-- ==== Sys2Proof/Word.lean ====
section
/-! DEFINITION. The words of the machine: bytes, opcode words, 32-bit words and interrupt numbers (00_scope.md R5, R6). -/

namespace Sys2Proof

/-- A byte, the unit of addressing (20_memory.md R61). -/
abbrev Byte := BitVec 8

/-- The 16-bit opcode word (30_encoding.md R100). -/
abbrev OpWord := BitVec 16

/-- A register value, an address or a literal: 32 bits, arithmetic modulo 2^32 (00_scope.md R6). -/
abbrev Word := BitVec 32

/-- An interrupt number, `IRQ_BITS` = 8 bits (00_scope.md R5). -/
abbrev IrqNum := BitVec 8

end Sys2Proof
end

