-- ==== Sys2Proof/Syntax.lean ====
section
/-! DEFINITION. Registers and instructions as terms: one constructor of `Instr` per row of spec/opcode_table.json. -/

namespace Sys2Proof

/-- The sixteen registers (10_state.md R20, R21). -/
inductive Reg where
  /-- R0, alias ACCUM. -/
  | r0
  /-- R1, alias CARRY. -/
  | r1
  | r2
  | r3
  | r4
  | r5
  | r6
  | r7
  | r8
  /-- R9, alias DS. -/
  | r9
  | cs
  | sp
  | ip
  | isr
  | status
  | ins
  deriving DecidableEq, Repr

/-- ACCUM and R0 are one register (10_state.md R22). -/
abbrev Reg.accum : Reg := .r0

/-- CARRY and R1 are one register (10_state.md R22). -/
abbrev Reg.carry : Reg := .r1

/-- DS and R9 are one register (10_state.md R22). -/
abbrev Reg.ds : Reg := .r9

/-- The condition field: a mask over NUMERICS, bit 0 ZERO, bit 1 NEGATIVE, bit 2 CARRY, bit 3 ERROR (10_state.md R37). -/
abbrev Cond := BitVec 4

/-- The 41 instructions (30_encoding.md R110), in the order of the opcode table.
The ignored bits of an opcode word (R109) are no part of an instruction. -/
inductive Instr where
  /-- 45_control.md R242. -/
  | nop
  /-- 42_bitwise_shift.md R191. -/
  | not (ra : Reg)
  /-- 42_bitwise_shift.md R192. -/
  | or (ra : Reg)
  /-- 42_bitwise_shift.md R193. -/
  | xor (ra : Reg)
  /-- 42_bitwise_shift.md R194. -/
  | and (ra : Reg)
  /-- 42_bitwise_shift.md R195: `rn` holds the amount, `rk` is the carry register. -/
  | bsl (rn rk : Reg)
  /-- 42_bitwise_shift.md R196. -/
  | bsr (rn rk : Reg)
  /-- 46_system.md R250. -/
  | int (n8 : IrqNum)
  /-- 46_system.md R251. -/
  | halt
  /-- 46_system.md R252. -/
  | sleep
  /-- 46_system.md R253. -/
  | sie
  /-- 46_system.md R254. -/
  | cie
  /-- 45_control.md R241. -/
  | ret
  /-- 46_system.md R257. -/
  | rti
  /-- 43_load_store.md R215. -/
  | inc (rd : Reg) (cc : Cond) (ro : Reg) (lit : Word)
  /-- 40_arith_int.md R143. -/
  | cmpi (ra rb : Reg)
  /-- 40_arith_int.md R144. -/
  | addi (ra : Reg)
  /-- 40_arith_int.md R145. -/
  | subi (ra : Reg)
  /-- 40_arith_int.md R146. -/
  | muli (ra : Reg)
  /-- 40_arith_int.md R147. -/
  | divi (ra : Reg)
  /-- 40_arith_int.md R148. -/
  | modi (ra : Reg)
  /-- 40_arith_int.md R149. -/
  | cmpu (ra rb : Reg)
  /-- 40_arith_int.md R150. -/
  | addu (ra : Reg)
  /-- 40_arith_int.md R151. -/
  | subu (ra : Reg)
  /-- 40_arith_int.md R152. -/
  | mulu (ra : Reg)
  /-- 40_arith_int.md R153. -/
  | divu (ra : Reg)
  /-- 40_arith_int.md R154. -/
  | modu (ra : Reg)
  /-- 41_arith_float.md R173. -/
  | cmpf (ra rb : Reg)
  /-- 41_arith_float.md R174. -/
  | addf (ra : Reg)
  /-- 41_arith_float.md R175. -/
  | subf (ra : Reg)
  /-- 41_arith_float.md R176. -/
  | mulf (ra : Reg)
  /-- 41_arith_float.md R177. -/
  | divf (ra : Reg)
  /-- 41_arith_float.md R178. -/
  | modf (ra : Reg)
  /-- 43_load_store.md R211. -/
  | load (rd : Reg) (cc : Cond) (ro : Reg) (lit : Word)
  /-- 44_stack.md R231. -/
  | pop (rd : Reg)
  /-- 45_control.md R240. -/
  | call (cc : Cond) (ro : Reg) (lit : Word)
  /-- 43_load_store.md R214. -/
  | mov (rd rs : Reg)
  /-- 43_load_store.md R216. -/
  | dec (rd : Reg) (cc : Cond) (ro : Reg) (lit : Word)
  /-- 43_load_store.md R213. -/
  | loadl (rd : Reg) (cc : Cond) (ro : Reg) (lit : Word)
  /-- 43_load_store.md R212: `rd` names the source. -/
  | store (rd : Reg) (cc : Cond) (ro : Reg) (lit : Word)
  /-- 44_stack.md R230. -/
  | push (rs : Reg)
  deriving DecidableEq, Repr

end Sys2Proof
end

