-- ==== Sys2Proof/Decode.lean ====
section
/-! DEFINITION. The decoder and the encoder (30_encoding.md), and the byte-order and field helpers they use. -/

namespace Sys2Proof

/-! ### Byte order (20_memory.md R62) -/

/-- The number whose bytes are listed least significant first. -/
def leNat : List Byte → Nat
  | [] => 0
  | b :: rest => b.toNat + 256 * leNat rest

/-- The `n` low bytes of a number, least significant first. -/
def leBytes : Nat → Nat → List Byte
  | 0, _ => []
  | n + 1, v => BitVec.ofNat 8 v :: leBytes n (v / 256)

/-- Two bytes as an opcode word. -/
def leOpWord (bs : List Byte) : OpWord := BitVec.ofNat 16 (leNat bs)

/-- Four bytes as a 32-bit word. -/
def leWord (bs : List Byte) : Word := BitVec.ofNat 32 (leNat bs)

/-! ### Register fields (10_state.md R21) -/

/-- The index of a register. -/
def Reg.index : Reg → Fin 16
  | .r0 => 0
  | .r1 => 1
  | .r2 => 2
  | .r3 => 3
  | .r4 => 4
  | .r5 => 5
  | .r6 => 6
  | .r7 => 7
  | .r8 => 8
  | .r9 => 9
  | .cs => 10
  | .sp => 11
  | .ip => 12
  | .isr => 13
  | .status => 14
  | .ins => 15

/-- The register a 4-bit field names. -/
def Reg.ofField (k : BitVec 4) : Reg :=
  match k with
  | 0x0#4 => .r0
  | 0x1#4 => .r1
  | 0x2#4 => .r2
  | 0x3#4 => .r3
  | 0x4#4 => .r4
  | 0x5#4 => .r5
  | 0x6#4 => .r6
  | 0x7#4 => .r7
  | 0x8#4 => .r8
  | 0x9#4 => .r9
  | 0xA#4 => .cs
  | 0xB#4 => .sp
  | 0xC#4 => .ip
  | 0xD#4 => .isr
  | 0xE#4 => .status
  | _ => .ins

/-- The 4-bit field that names a register. -/
def Reg.field (r : Reg) : BitVec 4 := BitVec.ofFin r.index

/-! ### The four fields of an opcode word (30_encoding.md R103) -/

/-- `grp = w[3:0]`. -/
def opGrp (w : OpWord) : BitVec 4 := w.extractLsb' 0 4

/-- `f1 = w[7:4]`. -/
def opF1 (w : OpWord) : BitVec 4 := w.extractLsb' 4 4

/-- `f2 = w[11:8]`. -/
def opF2 (w : OpWord) : BitVec 4 := w.extractLsb' 8 4

/-- `f3 = w[15:12]`. -/
def opF3 (w : OpWord) : BitVec 4 := w.extractLsb' 12 4

/-- `w = grp | (f1 << 4) | (f2 << 8) | (f3 << 12)`. -/
def packOp (grp f1 f2 f3 : BitVec 4) : OpWord := f3 ++ f2 ++ f1 ++ grp

/-! ### Decoding (30_encoding.md R104 to R108) -/

/-- Why the decoder answers no instruction. -/
inductive DecodeReject where
  /-- The word selects nothing: "unknown key" (30_encoding.md R108). -/
  | unknownKey (w : OpWord)
  /-- The list of bytes ends before the instruction does. -/
  | truncated
  deriving DecidableEq, Repr

/-- Table T0, key `f1` (30_encoding.md R105). -/
def decodeT0 (w : OpWord) : Except DecodeReject Instr :=
  match opF1 w with
  | 0x0#4 => .ok .nop
  | 0x1#4 => .ok (.not (.ofField (opF2 w)))
  | 0x2#4 => .ok (.or (.ofField (opF2 w)))
  | 0x3#4 => .ok (.xor (.ofField (opF2 w)))
  | 0x4#4 => .ok (.and (.ofField (opF2 w)))
  | 0x5#4 => .ok (.bsl (.ofField (opF2 w)) (.ofField (opF3 w)))
  | 0x6#4 => .ok (.bsr (.ofField (opF2 w)) (.ofField (opF3 w)))
  | 0x7#4 => .ok (.int (opF3 w ++ opF2 w))
  | 0x8#4 => .ok .halt
  | 0x9#4 => .ok .sleep
  | 0xA#4 => .ok .sie
  | 0xB#4 => .ok .cie
  | 0xC#4 => .ok .ret
  | 0xD#4 => .ok .rti
  | _ => .error (.unknownKey w)

/-- Table T2, the signed instructions, key `f1` (30_encoding.md R106). -/
def decodeT2 (w : OpWord) : Except DecodeReject Instr :=
  match opF1 w with
  | 0x0#4 => .ok (.cmpi (.ofField (opF2 w)) (.ofField (opF3 w)))
  | 0x1#4 => .ok (.addi (.ofField (opF2 w)))
  | 0x2#4 => .ok (.subi (.ofField (opF2 w)))
  | 0x3#4 => .ok (.muli (.ofField (opF2 w)))
  | 0x4#4 => .ok (.divi (.ofField (opF2 w)))
  | 0x5#4 => .ok (.modi (.ofField (opF2 w)))
  | _ => .error (.unknownKey w)

/-- Table T3, the unsigned instructions, key `f1` (30_encoding.md R106). -/
def decodeT3 (w : OpWord) : Except DecodeReject Instr :=
  match opF1 w with
  | 0x0#4 => .ok (.cmpu (.ofField (opF2 w)) (.ofField (opF3 w)))
  | 0x1#4 => .ok (.addu (.ofField (opF2 w)))
  | 0x2#4 => .ok (.subu (.ofField (opF2 w)))
  | 0x3#4 => .ok (.mulu (.ofField (opF2 w)))
  | 0x4#4 => .ok (.divu (.ofField (opF2 w)))
  | 0x5#4 => .ok (.modu (.ofField (opF2 w)))
  | _ => .error (.unknownKey w)

/-- Table T4, the float instructions, key `f1` (30_encoding.md R106). -/
def decodeT4 (w : OpWord) : Except DecodeReject Instr :=
  match opF1 w with
  | 0x0#4 => .ok (.cmpf (.ofField (opF2 w)) (.ofField (opF3 w)))
  | 0x1#4 => .ok (.addf (.ofField (opF2 w)))
  | 0x2#4 => .ok (.subf (.ofField (opF2 w)))
  | 0x3#4 => .ok (.mulf (.ofField (opF2 w)))
  | 0x4#4 => .ok (.divf (.ofField (opF2 w)))
  | 0x5#4 => .ok (.modf (.ofField (opF2 w)))
  | _ => .error (.unknownKey w)

/-- The root of the dispatch tree, key `grp` (30_encoding.md R104). The literal of a 6-byte instruction is left 0 here and
filled in by `Instr.withLiteral` once it is fetched. -/
def decodeWord (w : OpWord) : Except DecodeReject Instr :=
  match opGrp w with
  | 0x0#4 => decodeT0 w
  | 0x1#4 => .ok (.inc (.ofField (opF1 w)) (opF2 w) (.ofField (opF3 w)) 0#32)
  | 0x2#4 => decodeT2 w
  | 0x3#4 => decodeT3 w
  | 0x4#4 => decodeT4 w
  | 0x5#4 => .ok (.load (.ofField (opF1 w)) (opF2 w) (.ofField (opF3 w)) 0#32)
  | 0x6#4 => .ok (.pop (.ofField (opF1 w)))
  | 0x7#4 => .ok (.call (opF2 w) (.ofField (opF3 w)) 0#32)
  | 0x8#4 => .ok (.mov (.ofField (opF1 w)) (.ofField (opF2 w)))
  | 0x9#4 => .ok (.dec (.ofField (opF1 w)) (opF2 w) (.ofField (opF3 w)) 0#32)
  | 0xA#4 => .ok (.loadl (.ofField (opF1 w)) (opF2 w) (.ofField (opF3 w)) 0#32)
  | 0xD#4 => .ok (.store (.ofField (opF1 w)) (opF2 w) (.ofField (opF3 w)) 0#32)
  | 0xE#4 => .ok (.push (.ofField (opF1 w)))
  | _ => .error (.unknownKey w)

/-- Whether an instruction carries a trailing literal, a fixed property of the instruction (30_encoding.md R100). -/
def Instr.hasLiteral : Instr → Bool
  | .inc .. | .load .. | .call .. | .dec .. | .loadl .. | .store .. => true
  | .nop | .not _ | .or _ | .xor _ | .and _ | .bsl _ _ | .bsr _ _ | .int _ | .halt | .sleep | .sie | .cie | .ret | .rti => false
  | .cmpi _ _ | .addi _ | .subi _ | .muli _ | .divi _ | .modi _ => false
  | .cmpu _ _ | .addu _ | .subu _ | .mulu _ | .divu _ | .modu _ => false
  | .cmpf _ _ | .addf _ | .subf _ | .mulf _ | .divf _ | .modf _ => false
  | .pop _ | .mov _ _ | .push _ => false

/-- The length of an instruction in bytes (30_encoding.md R100). -/
def Instr.length (i : Instr) : Nat := if i.hasLiteral then 6 else 2

/-- The instruction with its literal, if it carries one, replaced. -/
def Instr.withLiteral (i : Instr) (lit : Word) : Instr :=
  match i with
  | .inc rd cc ro _ => .inc rd cc ro lit
  | .load rd cc ro _ => .load rd cc ro lit
  | .call cc ro _ => .call cc ro lit
  | .dec rd cc ro _ => .dec rd cc ro lit
  | .loadl rd cc ro _ => .loadl rd cc ro lit
  | .store rd cc ro _ => .store rd cc ro lit
  | .nop | .not _ | .or _ | .xor _ | .and _ | .bsl _ _ | .bsr _ _ | .int _ | .halt | .sleep | .sie | .cie | .ret | .rti => i
  | .cmpi _ _ | .addi _ | .subi _ | .muli _ | .divi _ | .modi _ => i
  | .cmpu _ _ | .addu _ | .subu _ | .mulu _ | .divu _ | .modu _ => i
  | .cmpf _ _ | .addf _ | .subf _ | .mulf _ | .divf _ | .modf _ => i
  | .pop _ | .mov _ _ | .push _ => i

/-- One instruction from the front of a list of bytes, with the bytes after it (30_encoding.md R100, R102). -/
def decode : List Byte → Except DecodeReject (Instr × List Byte)
  | b0 :: b1 :: rest =>
    match decodeWord (leOpWord [b0, b1]) with
    | .error e => .error e
    | .ok i =>
      if i.hasLiteral then
        match rest with
        | l0 :: l1 :: l2 :: l3 :: after => .ok (i.withLiteral (leWord [l0, l1, l2, l3]), after)
        | _ => .error .truncated
      else .ok (i, rest)
  | _ => .error .truncated

/-! ### Encoding (30_encoding.md R110 to R119); the ignored bits are written 0 (R109) -/

/-- The opcode word of an instruction. -/
def encodeWord : Instr → OpWord
  | .nop => packOp 0x0 0x0 0 0
  | .not ra => packOp 0x0 0x1 ra.field 0
  | .or ra => packOp 0x0 0x2 ra.field 0
  | .xor ra => packOp 0x0 0x3 ra.field 0
  | .and ra => packOp 0x0 0x4 ra.field 0
  | .bsl rn rk => packOp 0x0 0x5 rn.field rk.field
  | .bsr rn rk => packOp 0x0 0x6 rn.field rk.field
  | .int n8 => packOp 0x0 0x7 (n8.extractLsb' 0 4) (n8.extractLsb' 4 4)
  | .halt => packOp 0x0 0x8 0 0
  | .sleep => packOp 0x0 0x9 0 0
  | .sie => packOp 0x0 0xA 0 0
  | .cie => packOp 0x0 0xB 0 0
  | .ret => packOp 0x0 0xC 0 0
  | .rti => packOp 0x0 0xD 0 0
  | .inc rd cc ro _ => packOp 0x1 rd.field cc ro.field
  | .cmpi ra rb => packOp 0x2 0x0 ra.field rb.field
  | .addi ra => packOp 0x2 0x1 ra.field 0
  | .subi ra => packOp 0x2 0x2 ra.field 0
  | .muli ra => packOp 0x2 0x3 ra.field 0
  | .divi ra => packOp 0x2 0x4 ra.field 0
  | .modi ra => packOp 0x2 0x5 ra.field 0
  | .cmpu ra rb => packOp 0x3 0x0 ra.field rb.field
  | .addu ra => packOp 0x3 0x1 ra.field 0
  | .subu ra => packOp 0x3 0x2 ra.field 0
  | .mulu ra => packOp 0x3 0x3 ra.field 0
  | .divu ra => packOp 0x3 0x4 ra.field 0
  | .modu ra => packOp 0x3 0x5 ra.field 0
  | .cmpf ra rb => packOp 0x4 0x0 ra.field rb.field
  | .addf ra => packOp 0x4 0x1 ra.field 0
  | .subf ra => packOp 0x4 0x2 ra.field 0
  | .mulf ra => packOp 0x4 0x3 ra.field 0
  | .divf ra => packOp 0x4 0x4 ra.field 0
  | .modf ra => packOp 0x4 0x5 ra.field 0
  | .load rd cc ro _ => packOp 0x5 rd.field cc ro.field
  | .pop rd => packOp 0x6 rd.field 0 0
  | .call cc ro _ => packOp 0x7 0 cc ro.field
  | .mov rd rs => packOp 0x8 rd.field rs.field 0
  | .dec rd cc ro _ => packOp 0x9 rd.field cc ro.field
  | .loadl rd cc ro _ => packOp 0xA rd.field cc ro.field
  | .store rd cc ro _ => packOp 0xD rd.field cc ro.field
  | .push rs => packOp 0xE rs.field 0 0

/-- The bits of the opcode word that an instruction does not use: the column "ignored" of the opcode map (30_encoding.md
R110, log 18). -/
def Instr.ignoredBits : Instr → OpWord
  | .nop | .halt | .sleep | .sie | .cie | .ret | .rti | .pop _ | .push _ => 0xFF00#16
  | .not _ | .or _ | .xor _ | .and _ | .mov _ _ => 0xF000#16
  | .addi _ | .subi _ | .muli _ | .divi _ | .modi _ => 0xF000#16
  | .addu _ | .subu _ | .mulu _ | .divu _ | .modu _ => 0xF000#16
  | .addf _ | .subf _ | .mulf _ | .divf _ | .modf _ => 0xF000#16
  | .call .. => 0x00F0#16
  | .bsl _ _ | .bsr _ _ | .int _ | .cmpi _ _ | .cmpu _ _ | .cmpf _ _ => 0x0000#16
  | .inc .. | .load .. | .dec .. | .loadl .. | .store .. => 0x0000#16

/-- The literal of an instruction that carries one. -/
def Instr.literal? : Instr → Option Word
  | .inc _ _ _ lit | .load _ _ _ lit | .call _ _ lit | .dec _ _ _ lit | .loadl _ _ _ lit | .store _ _ _ lit => some lit
  | .nop | .not _ | .or _ | .xor _ | .and _ | .bsl _ _ | .bsr _ _ | .int _ | .halt | .sleep | .sie | .cie | .ret | .rti => none
  | .cmpi _ _ | .addi _ | .subi _ | .muli _ | .divi _ | .modi _ => none
  | .cmpu _ _ | .addu _ | .subu _ | .mulu _ | .divu _ | .modu _ => none
  | .cmpf _ _ | .addf _ | .subf _ | .mulf _ | .divf _ | .modf _ => none
  | .pop _ | .mov _ _ | .push _ => none

/-- The bytes of an instruction in memory order. -/
def encode (i : Instr) : List Byte :=
  leBytes 2 (encodeWord i).toNat ++
    match i.literal? with
    | none => []
    | some lit => leBytes 4 lit.toNat

/-! ### The opcode map as the spec prints it (30_encoding.md R110) -/

/-- One row of the opcode map: a word is this instruction exactly when `(w & mask) = pattern`. -/
structure OpcodeRow where
  mnemonic : String
  pattern : OpWord
  mask : OpWord
  length : Nat
  deriving DecidableEq, Repr

/-- The 41 rows of 30_encoding.md R110, in the table's order. -/
def opcodeRows : List OpcodeRow :=
  [⟨"NOP", 0x0000, 0x00FF, 2⟩, ⟨"NOT", 0x0010, 0x00FF, 2⟩, ⟨"OR", 0x0020, 0x00FF, 2⟩, ⟨"XOR", 0x0030, 0x00FF, 2⟩,
   ⟨"AND", 0x0040, 0x00FF, 2⟩, ⟨"BSL", 0x0050, 0x00FF, 2⟩, ⟨"BSR", 0x0060, 0x00FF, 2⟩, ⟨"INT", 0x0070, 0x00FF, 2⟩,
   ⟨"HALT", 0x0080, 0x00FF, 2⟩, ⟨"SLEEP", 0x0090, 0x00FF, 2⟩, ⟨"SIE", 0x00A0, 0x00FF, 2⟩, ⟨"CIE", 0x00B0, 0x00FF, 2⟩,
   ⟨"RET", 0x00C0, 0x00FF, 2⟩, ⟨"RTI", 0x00D0, 0x00FF, 2⟩, ⟨"INC", 0x0001, 0x000F, 6⟩] ++
  [⟨"CMPI", 0x0002, 0x00FF, 2⟩, ⟨"ADDI", 0x0012, 0x00FF, 2⟩, ⟨"SUBI", 0x0022, 0x00FF, 2⟩, ⟨"MULI", 0x0032, 0x00FF, 2⟩,
   ⟨"DIVI", 0x0042, 0x00FF, 2⟩, ⟨"MODI", 0x0052, 0x00FF, 2⟩, ⟨"CMPU", 0x0003, 0x00FF, 2⟩, ⟨"ADDU", 0x0013, 0x00FF, 2⟩,
   ⟨"SUBU", 0x0023, 0x00FF, 2⟩, ⟨"MULU", 0x0033, 0x00FF, 2⟩, ⟨"DIVU", 0x0043, 0x00FF, 2⟩, ⟨"MODU", 0x0053, 0x00FF, 2⟩,
   ⟨"CMPF", 0x0004, 0x00FF, 2⟩, ⟨"ADDF", 0x0014, 0x00FF, 2⟩, ⟨"SUBF", 0x0024, 0x00FF, 2⟩, ⟨"MULF", 0x0034, 0x00FF, 2⟩,
   ⟨"DIVF", 0x0044, 0x00FF, 2⟩, ⟨"MODF", 0x0054, 0x00FF, 2⟩] ++
  [⟨"LOAD", 0x0005, 0x000F, 6⟩, ⟨"POP", 0x0006, 0x000F, 2⟩, ⟨"CALL", 0x0007, 0x000F, 6⟩, ⟨"MOV", 0x0008, 0x000F, 2⟩,
   ⟨"DEC", 0x0009, 0x000F, 6⟩, ⟨"LOADL", 0x000A, 0x000F, 6⟩, ⟨"STORE", 0x000D, 0x000F, 6⟩, ⟨"PUSH", 0x000E, 0x000F, 2⟩]

/-- The mnemonic of an instruction, as the opcode table spells it. -/
def Instr.mnemonic : Instr → String
  | .nop => "NOP"
  | .not _ => "NOT"
  | .or _ => "OR"
  | .xor _ => "XOR"
  | .and _ => "AND"
  | .bsl _ _ => "BSL"
  | .bsr _ _ => "BSR"
  | .int _ => "INT"
  | .halt => "HALT"
  | .sleep => "SLEEP"
  | .sie => "SIE"
  | .cie => "CIE"
  | .ret => "RET"
  | .rti => "RTI"
  | .inc .. => "INC"
  | .cmpi _ _ => "CMPI"
  | .addi _ => "ADDI"
  | .subi _ => "SUBI"
  | .muli _ => "MULI"
  | .divi _ => "DIVI"
  | .modi _ => "MODI"
  | .cmpu _ _ => "CMPU"
  | .addu _ => "ADDU"
  | .subu _ => "SUBU"
  | .mulu _ => "MULU"
  | .divu _ => "DIVU"
  | .modu _ => "MODU"
  | .cmpf _ _ => "CMPF"
  | .addf _ => "ADDF"
  | .subf _ => "SUBF"
  | .mulf _ => "MULF"
  | .divf _ => "DIVF"
  | .modf _ => "MODF"
  | .load .. => "LOAD"
  | .pop _ => "POP"
  | .call .. => "CALL"
  | .mov _ _ => "MOV"
  | .dec .. => "DEC"
  | .loadl .. => "LOADL"
  | .store .. => "STORE"
  | .push _ => "PUSH"

/-! ### The host's reading of a table word -/

/-- The longest instruction, in bytes (30_encoding.md R100). -/
def maxInstrBytes : Nat := 6

/-- The instruction bytes of a table word: bit 0 is the least significant bit of the opcode word, bits from 16 on are the
literal, every bit at or above `nbits` is 0. -/
def tableBytes (nbits w : Nat) : List Byte := leBytes maxInstrBytes (w % 2 ^ nbits)

/-- The instruction the decoder reads from a table word. -/
def decodeTableWord (nbits w : Nat) : Option Instr :=
  match decode (tableBytes nbits w) with
  | .ok (i, _) => some i
  | .error _ => none

end Sys2Proof
end

