-- ==== Sys2Proof/Machine/Float32.lean ====
section
/-! DEFINITION. IEEE-754 binary32 arithmetic on 32-bit patterns, exact and then rounded once (41_arith_float.md R170, R171).
Every finite binary32 value is an integer multiple of 2^-149, so a finite number is a sign and a magnitude counted in that unit.
That the rules' words mean this arithmetic is PRESUMED: unsafe if the hardware departs from IEEE-754 (log 16, log 17). -/

namespace Sys2Proof.Machine

/-- What a pattern means. `fin neg mag` is `(-1)^neg * mag * 2^-149`; it keeps the sign of a zero. -/
inductive F32 where
  | nan
  | inf (neg : Bool)
  | fin (neg : Bool) (mag : Nat)
  deriving DecidableEq, Repr

/-- The exponent field `v[30:23]` (00_scope.md R7). -/
def f32Exp (v : Word) : Nat := (v.extractLsb' 23 8).toNat

/-- The fraction field `v[22:0]` (00_scope.md R7). -/
def f32Frac (v : Word) : Nat := (v.extractLsb' 0 23).toNat

/-- `f(v)`: the pattern read as binary32 (00_scope.md R7). A subnormal has exponent field 0 and no hidden bit. -/
def f32OfBits (v : Word) : F32 :=
  if f32Exp v = 255 then (if f32Frac v = 0 then .inf v.msb else .nan)
  else if f32Exp v = 0 then .fin v.msb (f32Frac v)
  else .fin v.msb ((2 ^ 23 + f32Frac v) * 2 ^ (f32Exp v - 1))

/-- The pattern with the given sign bit and the given bits 30:0. -/
def f32Pack (neg : Bool) (body : Nat) : Word := BitVec.ofNat 32 (body + if neg then 2 ^ 31 else 0)

/-- Bits 30:0 of an infinity. -/
def f32InfBody : Nat := 0x7F800000

/-- An infinity of the given sign. -/
def f32Inf (neg : Bool) : Word := f32Pack neg f32InfBody

/-- A zero of the given sign. -/
def f32Zero (neg : Bool) : Word := f32Pack neg 0

/-- The integer nearest to `num / den`, a tie going to the even one. -/
def divNearestEven (num den : Nat) : Nat :=
  if 2 * (num % den) < den ∨ (2 * (num % den) = den ∧ num / den % 2 = 0) then num / den else num / den + 1

/-- Bits 30:0 of the binary32 magnitude nearest to `num / den` units of 2^-149, ties to even; an infinity on overflow (R170).
From `2^(k+23)` units on, neighbouring values are `2^k` units apart; `k * 2^23 + n` is the pattern of `n * 2^k` units, the
carry of a rounding up to `2^24` included. -/
def f32RoundBody (num den : Nat) : Nat :=
  let k := (num / den).log2 - 23
  min (k * 2 ^ 23 + divNearestEven num (den * 2 ^ k)) f32InfBody

/-- The pattern of `(-1)^neg * (num / den) * 2^-149`, rounded once (R170). -/
def f32Round (neg : Bool) (num den : Nat) : Word := f32Pack neg (f32RoundBody num den)

/-- A finite number as an integer in units of 2^-149. -/
def f32Int (neg : Bool) (mag : Nat) : Int := if neg then -(mag : Int) else mag

/-- The number with its sign flipped. -/
def f32Neg : F32 → F32
  | .nan => .nan
  | .inf s => .inf (!s)
  | .fin s m => .fin (!s) m

/-- The sum, NaN written as `canon` (R170, R171, R174). A zero sum is +0 but for `-0 + -0`. -/
def f32Add (canon : Word) : F32 → F32 → Word
  | .nan, _ => canon
  | .inf _, .nan => canon
  | .fin _ _, .nan => canon
  | .inf s, .inf t => if s = t then f32Inf s else canon
  | .inf s, .fin _ _ => f32Inf s
  | .fin _ _, .inf t => f32Inf t
  | .fin s m, .fin t n =>
    if f32Int s m + f32Int t n = 0 then f32Zero (s && t)
    else f32Round (decide (f32Int s m + f32Int t n < 0)) (f32Int s m + f32Int t n).natAbs 1

/-- The difference (R175): `a - b` is `a + (-b)`. -/
def f32Sub (canon : Word) (x y : F32) : Word := f32Add canon x (f32Neg y)

/-- The product (R170, R171, R176). -/
def f32Mul (canon : Word) : F32 → F32 → Word
  | .nan, _ => canon
  | .inf _, .nan => canon
  | .fin _ _, .nan => canon
  | .inf s, .inf t => f32Inf (s ^^ t)
  | .inf s, .fin t n => if n = 0 then canon else f32Inf (s ^^ t)
  | .fin s m, .inf t => if m = 0 then canon else f32Inf (s ^^ t)
  | .fin s m, .fin t n => f32Round (s ^^ t) (m * n) (2 ^ 149)

/-- The quotient, division by zero included (R170, R171, R177). -/
def f32Div (canon : Word) : F32 → F32 → Word
  | .nan, _ => canon
  | .inf _, .nan => canon
  | .fin _ _, .nan => canon
  | .inf _, .inf _ => canon
  | .inf s, .fin t _ => f32Inf (s ^^ t)
  | .fin s _, .inf t => f32Zero (s ^^ t)
  | .fin s m, .fin t n =>
    if n = 0 then (if m = 0 then canon else f32Inf (s ^^ t)) else f32Round (s ^^ t) (m * 2 ^ 149) n

/-- The truncating remainder, sign of the dividend, exact (R178). -/
def f32Mod (canon a b : Word) : Word :=
  match f32OfBits a, f32OfBits b with
  | .nan, _ => canon
  | .inf _, _ => canon
  | .fin _ _, .nan => canon
  | .fin _ _, .inf _ => a
  | .fin s m, .fin _ n => if n = 0 then canon else if m = 0 then a else f32Round s (m % n) 1

/-- NaN: exponent all ones, fraction nonzero. -/
def f32IsNaN : F32 → Bool
  | .nan => true
  | .inf _ => false
  | .fin _ _ => false

/-- `+0` or `-0`. -/
def f32IsZero : F32 → Bool
  | .nan => false
  | .inf _ => false
  | .fin _ m => m == 0

/-- Less than zero: not for `-0`, not for NaN (R172). -/
def f32IsNeg : F32 → Bool
  | .nan => false
  | .inf s => s
  | .fin s m => s && m != 0

/-- The IEEE-754 relation `a = b`: false for NaN, `+0 = -0` (R173). -/
def f32Eq : F32 → F32 → Bool
  | .inf s, .inf t => s == t
  | .fin s m, .fin t n => f32Int s m == f32Int t n
  | .nan, _ => false
  | .inf _, .nan => false
  | .inf _, .fin _ _ => false
  | .fin _ _, .nan => false
  | .fin _ _, .inf _ => false

/-- The IEEE-754 relation `a < b`: false for NaN, `-inf` below and `+inf` above every finite number (R173). -/
def f32Lt : F32 → F32 → Bool
  | .nan, _ => false
  | .inf _, .nan => false
  | .fin _ _, .nan => false
  | .inf s, .inf t => s && !t
  | .inf s, .fin _ _ => s
  | .fin _ _, .inf t => !t
  | .fin s m, .fin t n => decide (f32Int s m < f32Int t n)

end Sys2Proof.Machine
end

