-- ==== Sys2Proof/Machine/Flags.lean ====
section
/-! DEFINITION. The STATUS flags (10_state.md R28 to R38) and every flag computation of the instruction rules. -/

namespace Sys2Proof.Machine

/-- The flags of STATUS (10_state.md R28). -/
inductive Flag where
  | zero
  | negative
  | carry
  | error
  | intEnabled
  | sleep
  | intFlag
  deriving DecidableEq, Repr

/-- The bit of a flag in STATUS (10_state.md R28). -/
def Flag.bit : Flag → Nat
  | .zero => 0
  | .negative => 1
  | .carry => 2
  | .error => 3
  | .intEnabled => 4
  | .sleep => 5
  | .intFlag => 6

/-- The mask of a flag. -/
def Flag.mask (f : Flag) : Word := 1#32 <<< f.bit

/-- A flag of a STATUS word. -/
def flagOf (status : Word) (f : Flag) : Bool := status.getLsbD f.bit

/-- A STATUS word with one flag set. -/
def withFlag (status : Word) (f : Flag) : Word := status ||| f.mask

/-- A STATUS word with one flag cleared. -/
def withoutFlag (status : Word) (f : Flag) : Word := status &&& ~~~f.mask

/-- The four numeric flags an ALU instruction assigns (10_state.md R36). -/
structure Nums where
  z : Bool
  n : Bool
  c : Bool
  e : Bool
  deriving DecidableEq, Repr

/-- A Boolean as bit 0 of a word. -/
def boolWord (b : Bool) : Word := (BitVec.ofBool b).setWidth 32

/-- `SetNum(z, n, c, e)` on a STATUS word (00_scope.md R8). -/
def setNumWord (status : Word) (f : Nums) : Word :=
  (status &&& 0xFFFFFFF0#32) ||| boolWord f.z ||| (boolWord f.n <<< 1) ||| (boolWord f.c <<< 2) ||| (boolWord f.e <<< 3)

/-- `CARRY_ADD`, a function of the three sign bits (40_arith_int.md R141, log 9). -/
def carryAdd (a31 b31 r31 : Bool) : Bool := (a31 || b31) && !r31

/-- `CARRY_SUB`, a function of the three sign bits (40_arith_int.md R142, log 9). -/
def carrySub (a31 b31 r31 : Bool) : Bool := (!a31 || b31) && r31

/-- The flags of ADDI and ADDU (40_arith_int.md R144, R150, R155). -/
def addNums (a b r : Word) : Nums where
  z := r == 0#32
  n := r.msb
  c := carryAdd a.msb b.msb r.msb
  e := a.msb == b.msb && r.msb != a.msb

/-- The flags of SUBI and SUBU (40_arith_int.md R145, R151, R155). -/
def subNums (a b r : Word) : Nums where
  z := r == 0#32
  n := r.msb
  c := carrySub a.msb b.msb r.msb
  e := a.msb != b.msb && r.msb != a.msb

/-- The flags of MULI from the exact product `p` (40_arith_int.md R146). -/
def muliNums (p : Int) (r : Word) : Nums where
  z := r == 0#32
  n := decide (p < 0)
  c := false
  e := decide (p > 2 ^ 31 - 1) || decide (p < -(2 ^ 31))

/-- The flags of MULU from the exact product `p` (40_arith_int.md R152). -/
def muluNums (p : Nat) (r : Word) : Nums where
  z := r == 0#32
  n := r.msb
  c := false
  e := decide (p > 2 ^ 32 - 1)

/-- The flags of an integer division or remainder by zero (40_arith_int.md R147, R148, R153, R154). -/
def divZeroNums : Nums := { z := false, n := false, c := false, e := true }

/-- The flags of DIVI from the exact quotient `q` (40_arith_int.md R147). -/
def diviNums (q : Int) (r : Word) : Nums where
  z := r == 0#32
  n := r.msb
  c := false
  e := decide (q = 2 ^ 31)

/-- ZERO and NEGATIVE from the result, CARRY and ERROR cleared: MODI, DIVU, MODU (40_arith_int.md R148, R153, R154) and the
bitwise instructions (42_bitwise_shift.md R190). -/
def resultNums (r : Word) : Nums where
  z := r == 0#32
  n := r.msb
  c := false
  e := false

/-- The flags of BSL and BSR (42_bitwise_shift.md R195, R196): CARRY is the last bit shifted out. -/
def shiftNums (r : Word) (c : Bool) : Nums where
  z := r == 0#32
  n := r.msb
  c := c
  e := false

/-- The flags of CMPI (40_arith_int.md R143). -/
def cmpiNums (a b : Word) : Nums where
  z := decide (a.toInt = b.toInt)
  n := decide (a.toInt < b.toInt)
  c := false
  e := false

/-- The flags of CMPU (40_arith_int.md R149). -/
def cmpuNums (a b : Word) : Nums where
  z := decide (a.toNat = b.toNat)
  n := false
  c := decide (a.toNat < b.toNat)
  e := false

/-- The flags of CMPF (41_arith_float.md R173): two NaNs count as equal, any NaN sets ERROR. -/
def cmpfNums (a b : F32) : Nums where
  z := f32Eq a b || (f32IsNaN a && f32IsNaN b)
  n := f32Lt a b
  c := false
  e := f32IsNaN a || f32IsNaN b

/-- The flags of ADDF, SUBF, MULF, DIVF, MODF from the operands and the result written (41_arith_float.md R172). -/
def floatNums (a b q : F32) : Nums where
  z := f32IsZero q
  n := f32IsNeg q
  c := false
  e := f32IsNaN a || f32IsNaN b

end Sys2Proof.Machine
end

