-- ==== Sys2Proof/Config.lean ====
section
/-! DEFINITION. The parameters of the block (00_scope.md R5) as one structure of plain data, which State holds in a field that
no step writes (log 1), and the free values of the model as opaque constants (log 3). -/

namespace Sys2Proof

/-- Who owns a region: a RAM device (20_memory.md R77) or any other device (R74). -/
inductive RegionKind where
  | ram
  | device
  deriving DecidableEq, Repr

/-- One entry of the address map, the "Memory Page Entry" of 20_memory.md R68. Its page count is `Region.pages`. -/
structure Region where
  id : Nat
  base : Nat
  size : Nat
  kind : RegionKind
  deriving DecidableEq, Repr

/-- The configuration of the block, fixed before the first step (70_reset_and_hazards.md R325). -/
structure Config where
  /-- `MAP` (20_memory.md R68). -/
  map : List Region
  /-- `PAGE_SIZE`, bytes per page. -/
  pageSize : Nat
  /-- `PAGE_COUNT`, page slots of the map. -/
  pageCount : Nat
  /-- `STACK_START`, the value of SP after reset. -/
  stackStart : Word
  /-- `STRICT`, the strict mode strap. -/
  strict : Bool
  /-- `IRQ_QUEUE_DEPTH`; `none` is infinity. -/
  irqDepth : Option Nat
  /-- `CANON_NAN`, the pattern written when a float operation gives NaN. -/
  canonNan : Word
  deriving DecidableEq, Repr

/-- The configuration `State.reset` starts from: the defaults of 00_scope.md R5 for PAGE_SIZE, PAGE_COUNT and STRICT, and for
the OPEN parameters the values 92_eei_decisions.md suggests for examples. DESIGN CHOICE (log 1, log 8): unsafe for a
statement that rests on these values; no statement does. -/
def Config.suggested : Config where
  map := [{ id := 0, base := 0, size := 0x2000, kind := .ram }]
  pageSize := 4096
  pageCount := 1024
  stackStart := 0x2000#32
  strict := false
  irqDepth := none
  canonNan := 0x7FC00000#32

/-- The byte that the k-th open device value stands for: a byte read from a device other than RAM (20_memory.md R74, U1) or one
missing after a short read (R73, U2). A FREE VALUE, log 3: nothing constrains it. -/
opaque Config.deviceByte : Nat → Byte

/-- How many bytes a device other than RAM is ready to transfer in its k-th call: one ready for fewer than the call holds makes the
transfer short (20_memory.md R73, U2). A FREE VALUE, log 4: nothing constrains it. -/
opaque Config.deviceTransfers : Nat → Nat

end Sys2Proof
end

