-- ==== Sys2Proof/Machine/State.lean ====
section
/-! DEFINITION. The state of the machine, the ways a step can stop, and the machine right after reset (10_state.md). -/

namespace Sys2Proof.Machine

/-- Why the machine stops with a fault. No instruction stops: the spec turns an unmapped access and an unknown opcode into
interrupt requests (60_exceptions.md R276 to R278). -/
inductive Fault where
  /-- Raised by `step`, for a configuration that is not well formed: the spec refuses the case and speaks for no result
  (93_implementation_defined.md U7, log 7). Safe: nothing is claimed of such a machine. -/
  | illFormedConfig
  deriving DecidableEq, Repr

/-- Why an instruction has no meaning. -/
inductive Refusal where
  /-- Raised by `exec` alone, for an instruction the model does not give a meaning yet. Safe. No arm of `exec` raises it. -/
  | notModelled (mnemonic : String)
  deriving DecidableEq, Repr

/-- The output bit of a step (60_exceptions.md R287). -/
inductive StepReport where
  | progress
  | idle
  deriving DecidableEq, Repr

/-- One write call of a device other than RAM (20_memory.md R72, R74, 93_implementation_defined.md U16): the region it belongs to,
the offset the device sees (R71), the bytes of the call, and how many of them the device took (R73). -/
structure DeviceWrite where
  region : Region
  offset : Nat
  bytes : List Byte
  accepted : Nat
  deriving DecidableEq, Repr

/-- Memory: the cells of the RAM regions that do not read as `Memory.fill`, addresses strictly rising. -/
abbrev Memory := List Host.Cell

/-- What a RAM byte that no cell lists reads as. The spec leaves it open (93_implementation_defined.md U9).
DESIGN CHOICE (log 2): unsafe for a statement about bytes nothing has written. -/
def Memory.fill : Byte := 0x00#8

/-- Everything the machine holds (10_state.md R20 to R48). -/
structure State where
  /-- The parameters of the block (00_scope.md R5); no step writes them (log 1). -/
  cfg : Config
  /-- The sixteen registers by index (10_state.md R20). -/
  regs : Vector Word 16
  /-- HALTED (10_state.md R42). -/
  halted : Bool
  /-- FATAL (10_state.md R43). -/
  fatal : Bool
  /-- `Q`, the pending-interrupt queue, oldest first (10_state.md R44). -/
  queue : List IrqNum
  /-- The bytes of the RAM regions (10_state.md R46). -/
  mem : Memory
  /-- The model's own: the write calls of devices other than RAM, oldest first (log 6). -/
  devWrites : List DeviceWrite
  /-- The model's own: the index of the next free device value (log 3). -/
  freeIndex : Nat
  /-- The model's own: the output bit of the last step (60_exceptions.md R287, log 10). -/
  report : StepReport
  deriving DecidableEq, Repr

/-- The register file after reset: every register 0 but SP, register 11, which holds STACK_START (10_state.md R48). -/
def resetRegs (stackStart : Word) : Vector Word 16 := (Vector.replicate 16 0#32).set 11 stackStart

/-- The machine right after reset (10_state.md R48), in the suggested configuration (log 1), with no program loaded (log 11). -/
def State.reset : State where
  cfg := Config.suggested
  regs := resetRegs Config.suggested.stackStart
  halted := false
  fatal := false
  queue := [0#8]
  mem := []
  devWrites := []
  freeIndex := 0
  report := .progress

end Sys2Proof.Machine
end

