-- ==== Sys2Proof/WellFormed.lean ====
section
/-! DEFINITION. What a well-formed configuration is: the preconditions on MAP and the parameters (20_memory.md R68, R70;
00_scope.md R5; 93_implementation_defined.md U7). An instruction needs no check: the field types of `Instr` hold exactly the
values that the 4-, 8- and 32-bit fields of 30_encoding.md R103 can hold (60_exceptions.md R280). -/

namespace Sys2Proof

/-- The first page slot a region claims: `floor(base / PAGE_SIZE)` (20_memory.md R68). -/
def Region.firstPage (pageSize : Nat) (r : Region) : Nat := r.base / pageSize

/-- The first page slot after a region: `ceil((base + size) / PAGE_SIZE)` (20_memory.md R68). -/
def Region.endPage (pageSize : Nat) (r : Region) : Nat := (r.base + r.size + (pageSize - 1)) / pageSize

/-- The page count of a region's record (20_memory.md R68). -/
def Region.pages (pageSize : Nat) (r : Region) : Nat := r.endPage pageSize - r.firstPage pageSize

/-- A region is page-aligned and a whole number of pages long (20_memory.md R70). -/
def Region.aligned (pageSize : Nat) (r : Region) : Bool := r.base % pageSize == 0 && r.size % pageSize == 0

/-- Two regions share no page: the later of their first pages is not before the earlier of their ends. A region that claims no page
shares none (20_memory.md R68). -/
def Region.disjoint (pageSize : Nat) (r q : Region) : Bool :=
  min (r.endPage pageSize) (q.endPage pageSize) ≤ max (r.firstPage pageSize) (q.firstPage pageSize)

/-- No region shares a page with a later one of the list. -/
def mapDisjoint (pageSize : Nat) : List Region → Bool
  | [] => true
  | r :: rest => rest.all (r.disjoint pageSize) && mapDisjoint pageSize rest

/-- PAGE_SIZE is a power of two not less than 2 (00_scope.md R5). -/
def Config.pageSizeOk (c : Config) : Bool := 2 ≤ c.pageSize && c.pageSize == 2 ^ c.pageSize.log2

/-- PAGE_COUNT is at most `2^32 / PAGE_SIZE` (00_scope.md R5). -/
def Config.pageCountOk (c : Config) : Bool := c.pageSize * c.pageCount ≤ 2 ^ 32

/-- Every page a region claims is below PAGE_COUNT (20_memory.md R68). -/
def Region.withinPages (pageSize pageCount : Nat) (r : Region) : Bool :=
  r.pages pageSize == 0 || r.endPage pageSize ≤ pageCount

/-- Every region is aligned and its claimed pages are below PAGE_COUNT (20_memory.md R68, R70). -/
def Config.regionsOk (c : Config) : Bool :=
  c.map.all fun r => r.aligned c.pageSize && r.withinPages c.pageSize c.pageCount

/-- IRQ_QUEUE_DEPTH is a positive integer or infinity (00_scope.md R5). -/
def Config.irqDepthOk (c : Config) : Bool :=
  match c.irqDepth with
  | none => true
  | some d => 0 < d

/-- CANON_NAN has exponent all ones and a nonzero fraction (41_arith_float.md R171). -/
def Config.canonNanOk (c : Config) : Bool :=
  c.canonNan.extractLsb' 23 8 == 0xFF#8 && c.canonNan.extractLsb' 0 23 != 0#23

/-- The configuration is one the spec speaks for. -/
def Config.wf (c : Config) : Bool :=
  c.pageSizeOk && c.pageCountOk && c.regionsOk && mapDisjoint c.pageSize c.map && c.irqDepthOk && c.canonNanOk

end Sys2Proof
end

