-- ==== Sys2Proof/Machine/Ops.lean ====
section
/-! DEFINITION. The named operations over registers, memory, the bus, the stack and the interrupt queue, with the delivery of an
interrupt and the return from one. Every instruction is built from these. -/

namespace Sys2Proof.Machine

/-! ### Registers (10_state.md R20 to R24) -/

/-- `x[r]` (00_scope.md R8). No register is hard-wired (10_state.md R23). -/
def State.get (s : State) (r : Reg) : Word := s.regs.get r.index

/-- `x[r] <- v` (00_scope.md R8). -/
def State.set (s : State) (r : Reg) (v : Word) : State := { s with regs := s.regs.set r.index.val v r.index.isLt }

/-- A flag of STATUS. -/
def State.flag (s : State) (f : Flag) : Bool := flagOf (s.get .status) f

/-- `SetNum` on the machine: all four numeric flags assigned, bits 31:4 of STATUS kept (10_state.md R36). -/
def State.setNum (s : State) (f : Nums) : State := s.set .status (setNumWord (s.get .status) f)

/-- An ALU result: ACCUM is written, then the flags are assigned (40_arith_int.md R140, 41_arith_float.md R179). -/
def State.setAccum (s : State) (r : Word) (f : Nums) : State := (s.set .accum r).setNum f

/-! ### Memory cells -/

/-- The byte at an address. -/
def Memory.read : Memory → Nat → Byte
  | [], _ => Memory.fill
  | (k, v) :: rest, a => if k = a then v else Memory.read rest a

/-- The cells with `(a, b)` put in its place. -/
def Memory.insert : Memory → Nat → Byte → Memory
  | [], a, b => [(a, b)]
  | (k, v) :: rest, a, b =>
    if a < k then (a, b) :: (k, v) :: rest
    else if a = k then (a, b) :: rest
    else (k, v) :: Memory.insert rest a b

/-- The cells without those at an address. -/
def Memory.erase (m : Memory) (a : Nat) : Memory := m.filter fun cell => cell.1 != a

/-- The memory with one byte replaced, in canonical form. -/
def Memory.write (m : Memory) (a : Nat) (b : Byte) : Memory :=
  if b = Memory.fill then m.erase a else m.insert a b

/-- Addresses strictly rise. -/
def Memory.sorted : Memory → Bool
  | [] => true
  | cell :: rest => rest.all (fun next => decide (cell.1 < next.1)) && Memory.sorted rest

/-- The canonical form: addresses strictly rise, are addresses of the 32-bit space, and no cell reads as an unlisted one. -/
def Memory.wf (m : Memory) : Bool :=
  m.sorted && m.all fun cell => decide (cell.1 < 2 ^ 32) && cell.2 != Memory.fill

/-- The byte a RAM address holds. -/
def State.byteAt (s : State) (a : Word) : Byte := s.mem.read a.toNat

/-- A RAM device takes one byte (20_memory.md R77). -/
def State.storeByte (s : State) (a : Word) (b : Byte) : State := { s with mem := s.mem.write a.toNat b }

/-! ### The address map (20_memory.md R67 to R69) -/

/-- Whether a region claims a page slot. -/
def regionClaims (pageSize page : Nat) (r : Region) : Bool :=
  r.firstPage pageSize ≤ page && page < r.endPage pageSize

/-- `Owner(a)`: the region in the page slot of an address, or none (20_memory.md R69). -/
def ownerOf (c : Config) (a : Word) : Option Region :=
  if a.toNat / c.pageSize < c.pageCount then c.map.find? (regionClaims c.pageSize (a.toNat / c.pageSize)) else none

/-- The offset of an address inside a region, which is what the device sees (20_memory.md R71). -/
def deviceOffset (r : Region) (a : Word) : Nat := a.toNat - r.base

/-! ### The bus (20_memory.md R71 to R77) -/

/-- What a bus access answers: a value, or `NotMapped` with the first unmapped byte address. Either carries the state the access
leaves, for a write changes the bytes below the unmapped one (20_memory.md R76). -/
inductive Bus (α : Type) where
  | ok (v : α) (s : State)
  | notMapped (a : Word) (s : State)

/-- A bus access with its value mapped. -/
def Bus.map {α β : Type} (f : α → β) : Bus α → Bus β
  | .ok v s => .ok (f v) s
  | .notMapped a s => .notMapped a s

/-- `n` free device bytes, from index `k` on (log 3, log 4). -/
def deviceBytes (k : Nat) : Nat → List Byte
  | 0 => []
  | n + 1 => Config.deviceByte k :: deviceBytes (k + 1) n

/-- The state after `n` free device values were used. -/
def State.useFree (s : State) (n : Nat) : State := { s with freeIndex := s.freeIndex + n }

/-- How many of the `n` bytes after the one at `a` lie in the same contiguous run of the region `r`: one call of a device
transfers the whole run (20_memory.md R72). A run ends where the addresses wrap (log 5). -/
def runAfter (c : Config) (r : Region) : Nat → Word → Nat
  | 0, _ => 0
  | n + 1, a => if a + 1#32 ≠ 0#32 ∧ ownerOf c (a + 1#32) = some r then runAfter c r n (a + 1#32) + 1 else 0

/-- `n` bytes read at ascending addresses from `a` on, the first `left` of them still to come from the call that is under way
(20_memory.md R72, R75). A device other than RAM is called once for a run and answers any bytes (R74), or ends the access with a
short read, after which the missing bytes are any bytes (R73, log 4). -/
def readFrom : Nat → Nat → Word → State → Bus (List Byte)
  | 0, _, _, s => .ok [] s
  | n + 1, left + 1, a, s => (readFrom n left (a + 1#32) (s.useFree 1)).map (Config.deviceByte s.freeIndex :: ·)
  | n + 1, 0, a, s =>
    match ownerOf s.cfg a with
    | none => .notMapped a s
    | some r =>
      match r.kind with
      | .ram => (readFrom n 0 (a + 1#32) s).map (s.byteAt a :: ·)
      | .device =>
        if runAfter s.cfg r n a < Config.deviceTransfers s.freeIndex then
          (readFrom n (runAfter s.cfg r n a) (a + 1#32) (s.useFree 2)).map (Config.deviceByte (s.freeIndex + 1) :: ·)
        else .ok (deviceBytes (s.freeIndex + 1) (n + 1)) (s.useFree (n + 2))

/-- `n` bytes read at ascending addresses from `a` on (20_memory.md R75). -/
def readBytes (n : Nat) (a : Word) (s : State) : Bus (List Byte) := readFrom n 0 a s

/-- One write call of a device other than RAM, for the bytes of a run (20_memory.md R72, R74, log 6). -/
def State.offer (s : State) (r : Region) (a : Word) (bs : List Byte) : State :=
  { s with
    devWrites := s.devWrites ++ [⟨r, deviceOffset r a, bs, min (Config.deviceTransfers s.freeIndex) bs.length⟩]
    freeIndex := s.freeIndex + 1 }

/-- Bytes written at ascending addresses from `a` on, the first `left` of them taken by the call that was made (20_memory.md R72,
R76). A device other than RAM is called once for a run; it may take fewer bytes, which ends the access with the rest unwritten
(R73, log 4). -/
def writeFrom : List Byte → Nat → Word → State → Bus Unit
  | [], _, _, s => .ok () s
  | _ :: rest, left + 1, a, s => writeFrom rest left (a + 1#32) s
  | b :: rest, 0, a, s =>
    match ownerOf s.cfg a with
    | none => .notMapped a s
    | some r =>
      match r.kind with
      | .ram => writeFrom rest 0 (a + 1#32) (s.storeByte a b)
      | .device =>
        if runAfter s.cfg r rest.length a < Config.deviceTransfers s.freeIndex then
          writeFrom rest (runAfter s.cfg r rest.length a) (a + 1#32)
            (s.offer r a (b :: rest.take (runAfter s.cfg r rest.length a)))
        else .ok () (s.offer r a (b :: rest.take (runAfter s.cfg r rest.length a)))

/-- Bytes written at ascending addresses from `a` on (20_memory.md R76). -/
def writeBytes (bs : List Byte) (a : Word) (s : State) : Bus Unit := writeFrom bs 0 a s

/-- `MemRead(a, 2)`, an opcode word (20_memory.md R66, R75). -/
def readOpWord (a : Word) (s : State) : Bus OpWord := (readBytes 2 a s).map leOpWord

/-- `MemRead(a, 4)` (20_memory.md R66, R75). -/
def readWord (a : Word) (s : State) : Bus Word := (readBytes 4 a s).map leWord

/-- `MemWrite(a, 4, v)` (20_memory.md R66, R76). -/
def writeWord (a v : Word) (s : State) : Bus Unit := writeBytes (leBytes 4 v.toNat) a s

/-! ### The interrupt queue (60_exceptions.md R283) -/

/-- The gate: INT_ENABLED or INT_FLAG is set. -/
def State.gateOpen (s : State) : Bool := s.flag .intEnabled || s.flag .intFlag

/-- The queue is below IRQ_QUEUE_DEPTH. -/
def State.queueHasRoom (s : State) : Bool :=
  match s.cfg.irqDepth with
  | none => true
  | some d => decide (s.queue.length < d)

/-- `RaiseIrq(n)`: the number is appended if the gate is open and the queue is not full, and dropped otherwise. -/
def State.raiseIrq (s : State) (n : IrqNum) : State :=
  if s.gateOpen && s.queueHasRoom then { s with queue := s.queue ++ [n] } else s

/-- `unknown_op` (60_exceptions.md R281). -/
def irqUnknownOp : IrqNum := 3#8

/-- `mem_fault` (60_exceptions.md R281). -/
def irqMemFault : IrqNum := 5#8

/-- A bus access inside an instruction or a delivery: on `NotMapped` the rest is abandoned, what was done stays, and `mem_fault` is
requested (60_exceptions.md R277, R288). -/
def Bus.orFault {α : Type} (r : Bus α) (k : α → State → State) : State :=
  match r with
  | .ok v s => k v s
  | .notMapped _ s => s.raiseIrq irqMemFault

/-! ### The stack (44_stack.md) -/

/-- The slot below the top of the stack: `(x[SP] - 4) mod 2^32`. -/
def State.pushSlot (s : State) : Word := s.get .sp - 4#32

/-- A push of `v`, then the rest: the write first, SP after it (44_stack.md R230). -/
def State.pushThen (s : State) (v : Word) (k : State → State) : State :=
  (writeWord s.pushSlot v s).orFault fun _ t => k (t.set .sp s.pushSlot)

/-- A pop, then the rest with the value popped: the read first, SP after it (44_stack.md R231). -/
def State.popThen (s : State) (k : Word → State → State) : State :=
  (readWord (s.get .sp) s).orFault fun v t => k v (t.set .sp (s.get .sp + 4#32))

/-! ### Taking an interrupt and returning from one -/

/-- The address of vector `n`: `(x[ISR] + 8 * n) mod 2^32` (60_exceptions.md R273, R274). -/
def State.vectorOf (s : State) (n : IrqNum) : Word := s.get .isr + BitVec.ofNat 32 (8 * n.toNat)

/-- `Deliver()` of the number `n` at the head of the queue, `rest` after it (60_exceptions.md R273): IP is pushed, then STATUS;
SP, STATUS, Q and IP are written only after both. A fault of either write abandons the delivery (R288). -/
def State.deliver (s : State) (n : IrqNum) (rest : List IrqNum) : State :=
  (writeWord (s.get .sp - 4#32) (s.get .ip) s).orFault fun _ s₁ =>
  (writeWord (s.get .sp - 8#32) (s.get .status) s₁).orFault fun _ s₂ =>
  let s₃ := s₂.set .sp (s.get .sp - 8#32)
  let s₄ := s₃.set .status (withoutFlag (withFlag (s.get .status) .intFlag) .intEnabled)
  { s₄ with queue := rest }.set .ip (s.vectorOf n)

/-- The STATUS that RTI restores from the stacked word and the live one: SLEEP is forced off when the live SLEEP is 0, every other
bit is the stacked one (46_system.md R257). -/
def rtiStatus (stacked live : Word) : Word :=
  if flagOf live .sleep then stacked else withoutFlag stacked .sleep

/-- The return from an interrupt (46_system.md R257): both words are read before any register is written. -/
def State.returnFromInterrupt (s : State) : State :=
  (readWord (s.get .sp) s).orFault fun st s₁ =>
  (readWord (s.get .sp + 4#32) s₁).orFault fun p s₂ =>
  ((s₂.set .sp (s.get .sp + 8#32)).set .status (rtiStatus st (s.get .status))).set .ip p

/-- An unknown opcode word, INS written and IP advanced already: with STRICT the core stops for good, otherwise `unknown_op` is
requested (60_exceptions.md R278). -/
def State.unknownOp (s : State) : State :=
  if s.cfg.strict then { s with halted := true, fatal := true, report := .idle } else s.raiseIrq irqUnknownOp

/-! ### The cases of a step (60_exceptions.md R270 to R272) -/

/-- `Idle()`: SLEEP, not INT_FLAG, and no deliverable interrupt (60_exceptions.md R271). -/
def State.isIdle (s : State) : Bool :=
  s.flag .sleep && !s.flag .intFlag && !(s.flag .intEnabled && !s.queue.isEmpty)

/-- What a step does (60_exceptions.md R270). -/
inductive StepCase where
  /-- Cases 1 and 2: the core is halted or asleep. -/
  | rest
  /-- Case 3: the number `n` at the head of the queue is delivered, `rest` after it. -/
  | deliver (n : IrqNum) (rest : List IrqNum)
  /-- Case 4: an instruction is fetched and run. -/
  | fetch
  deriving DecidableEq, Repr

/-- The cases of a step, tried in the order of 60_exceptions.md R270: halted, idle, delivery, fetch. -/
def State.nextCase (s : State) : StepCase :=
  if s.halted || s.isIdle then .rest
  else if s.flag .intEnabled then
    match s.queue with
    | n :: rest => .deliver n rest
    | [] => .fetch
  else .fetch

/-- The output bit of the step (60_exceptions.md R287). -/
def State.reporting (s : State) (r : StepReport) : State := { s with report := r }

end Sys2Proof.Machine
end

