-- ==== Sys2Proof/Machine/Operands.lean ====
section
/-! DEFINITION. Operand forms: the literal-zero sentinel, the condition and the operand value of the literal instructions
(30_encoding.md R120 to R123, 10_state.md R37). -/

namespace Sys2Proof.Machine

/-- `regz(r)`: 0 for INS, else the register (30_encoding.md R120). -/
def State.regz (s : State) (r : Reg) : Word := if r = .ins then 0#32 else s.get r

/-- `cond(cc)`: true when `cc` is 0 or a selected numeric flag is 1 (10_state.md R37). -/
def State.cond (s : State) (cc : Cond) : Bool := cc == 0#4 || (s.get .status &&& cc.setWidth 32) != 0#32

/-- `V = (lit + regz(ro)) mod 2^32` (30_encoding.md R121). -/
def State.operandV (s : State) (lit : Word) (ro : Reg) : Word := lit + s.regz ro

/-- A conditional instruction: with the condition false nothing more happens (30_encoding.md R122, 43_load_store.md R210). -/
def State.whenCond (s : State) (cc : Cond) (k : State → State) : State := if s.cond cc then k s else s

end Sys2Proof.Machine
end

