-- ==== Sys2Proof/Machine/Arith.lean ====
section
/-! DEFINITION. Integer arithmetic and compare (40_arith_int.md). -/

namespace Sys2Proof.Machine

/-- Two operands to a result and its flags. -/
abbrev AluOp := Word → Word → Word × Nums

/-- The common shape of ADDx, SUBx, MULx: ACCUM and `ra` are read, ACCUM and then the flags are written (40_arith_int.md R140). -/
def State.arith (s : State) (ra : Reg) (op : AluOp) : State :=
  s.setAccum (op (s.get .accum) (s.get ra)).1 (op (s.get .accum) (s.get ra)).2

/-- The common shape of DIVx and MODx: a zero divisor writes no ACCUM and sets ERROR (40_arith_int.md R156). -/
def State.arithDiv (s : State) (ra : Reg) (op : AluOp) : State :=
  if s.get ra = 0#32 then s.setNum divZeroNums else s.arith ra op

/-- The addition of ADDI and ADDU (40_arith_int.md R144, R155). -/
def addOp : AluOp := fun a b => (a + b, addNums a b (a + b))

/-- The subtraction of SUBI and SUBU (40_arith_int.md R145, R155). -/
def subOp : AluOp := fun a b => (a - b, subNums a b (a - b))

/-- The signed multiplication: the exact product, its low 32 bits kept (40_arith_int.md R146). -/
def muliOp : AluOp := fun a b =>
  (BitVec.ofInt 32 (a.toInt * b.toInt), muliNums (a.toInt * b.toInt) (BitVec.ofInt 32 (a.toInt * b.toInt)))

/-- The unsigned multiplication (40_arith_int.md R152). -/
def muluOp : AluOp := fun a b =>
  (BitVec.ofNat 32 (a.toNat * b.toNat), muluNums (a.toNat * b.toNat) (BitVec.ofNat 32 (a.toNat * b.toNat)))

/-- The signed quotient, rounded toward zero (40_arith_int.md R147). -/
def diviOp : AluOp := fun a b =>
  (BitVec.ofInt 32 (a.toInt.tdiv b.toInt), diviNums (a.toInt.tdiv b.toInt) (BitVec.ofInt 32 (a.toInt.tdiv b.toInt)))

/-- The unsigned quotient (40_arith_int.md R153). -/
def divuOp : AluOp := fun a b =>
  (BitVec.ofNat 32 (a.toNat / b.toNat), resultNums (BitVec.ofNat 32 (a.toNat / b.toNat)))

/-- The signed remainder, sign of the dividend: `s(a) - s(b) * trunc(s(a) / s(b))` (40_arith_int.md R148). -/
def modiOp : AluOp := fun a b =>
  (BitVec.ofInt 32 (a.toInt - b.toInt * a.toInt.tdiv b.toInt),
    resultNums (BitVec.ofInt 32 (a.toInt - b.toInt * a.toInt.tdiv b.toInt)))

/-- The unsigned remainder: `u(a) - u(b) * floor(u(a) / u(b))` (40_arith_int.md R154). -/
def moduOp : AluOp := fun a b =>
  (BitVec.ofNat 32 (a.toNat - b.toNat * (a.toNat / b.toNat)),
    resultNums (BitVec.ofNat 32 (a.toNat - b.toNat * (a.toNat / b.toNat))))

/-- CMPI (40_arith_int.md R143). -/
def execCmpi (ra rb : Reg) (s : State) : Host.Outcome State Fault Refusal :=
  .next (s.setNum (cmpiNums (s.regz ra) (s.regz rb)))

/-- ADDI (40_arith_int.md R144). -/
def execAddi (ra : Reg) (s : State) : Host.Outcome State Fault Refusal := .next (s.arith ra addOp)

/-- SUBI (40_arith_int.md R145). -/
def execSubi (ra : Reg) (s : State) : Host.Outcome State Fault Refusal := .next (s.arith ra subOp)

/-- MULI (40_arith_int.md R146). -/
def execMuli (ra : Reg) (s : State) : Host.Outcome State Fault Refusal := .next (s.arith ra muliOp)

/-- DIVI (40_arith_int.md R147). -/
def execDivi (ra : Reg) (s : State) : Host.Outcome State Fault Refusal := .next (s.arithDiv ra diviOp)

/-- MODI (40_arith_int.md R148). -/
def execModi (ra : Reg) (s : State) : Host.Outcome State Fault Refusal := .next (s.arithDiv ra modiOp)

/-- CMPU (40_arith_int.md R149). -/
def execCmpu (ra rb : Reg) (s : State) : Host.Outcome State Fault Refusal :=
  .next (s.setNum (cmpuNums (s.regz ra) (s.regz rb)))

/-- ADDU (40_arith_int.md R150). -/
def execAddu (ra : Reg) (s : State) : Host.Outcome State Fault Refusal := .next (s.arith ra addOp)

/-- SUBU (40_arith_int.md R151). -/
def execSubu (ra : Reg) (s : State) : Host.Outcome State Fault Refusal := .next (s.arith ra subOp)

/-- MULU (40_arith_int.md R152). -/
def execMulu (ra : Reg) (s : State) : Host.Outcome State Fault Refusal := .next (s.arith ra muluOp)

/-- DIVU (40_arith_int.md R153). -/
def execDivu (ra : Reg) (s : State) : Host.Outcome State Fault Refusal := .next (s.arithDiv ra divuOp)

/-- MODU (40_arith_int.md R154). -/
def execModu (ra : Reg) (s : State) : Host.Outcome State Fault Refusal := .next (s.arithDiv ra moduOp)

end Sys2Proof.Machine
end

