-- ==== Sys2Proof/Machine/Bitwise.lean ====
section
/-! DEFINITION. Bitwise and shift instructions (42_bitwise_shift.md). -/

namespace Sys2Proof.Machine

/-- The result of a bitwise instruction: ACCUM, then the flags (42_bitwise_shift.md R190). -/
def State.setLogic (s : State) (r : Word) : State := s.setAccum r (resultNums r)

/-- NOT: the source is `ra`, not ACCUM (42_bitwise_shift.md R191). -/
def execNot (ra : Reg) (s : State) : Host.Outcome State Fault Refusal := .next (s.setLogic (~~~s.get ra))

/-- OR (42_bitwise_shift.md R192). -/
def execOr (ra : Reg) (s : State) : Host.Outcome State Fault Refusal := .next (s.setLogic (s.get .accum ||| s.get ra))

/-- XOR (42_bitwise_shift.md R193). -/
def execXor (ra : Reg) (s : State) : Host.Outcome State Fault Refusal := .next (s.setLogic (s.get .accum ^^^ s.get ra))

/-- AND (42_bitwise_shift.md R194). -/
def execAnd (ra : Reg) (s : State) : Host.Outcome State Fault Refusal := .next (s.setLogic (s.get .accum &&& s.get ra))

/-- The amount of a shift: the amount register modulo 32 (42_bitwise_shift.md R195). -/
def shiftAmount (v : Word) : Nat := v.toNat % 32

/-- What a shift gives: ACCUM, the carry register, the CARRY flag. -/
structure Shifted where
  r : Word
  out : Word
  c : Bool
  deriving DecidableEq, Repr

/-- The left shift of `a` by `n` with carry-in `cin` (42_bitwise_shift.md R195). -/
def shiftLeft (a : Word) (n : Nat) (cin : Word) : Shifted :=
  if n = 0 then ⟨a, 0#32, false⟩
  else ⟨(a <<< n) ||| (cin &&& BitVec.ofNat 32 (2 ^ n - 1)), a >>> (32 - n), a.getLsbD (32 - n)⟩

/-- The logical right shift of `a` by `n` with carry-in `cin` (42_bitwise_shift.md R196). -/
def shiftRight (a : Word) (n : Nat) (cin : Word) : Shifted :=
  if n = 0 then ⟨a, 0#32, false⟩
  else ⟨(a >>> n) ||| (cin &&& ~~~BitVec.ofNat 32 (2 ^ (32 - n) - 1)), a <<< (32 - n), a.getLsbD (n - 1)⟩

/-- The writes of a shift in their order: the carry register, ACCUM, the flags (42_bitwise_shift.md R195, R196). With STATUS
as carry register the flags land in the word just written: DEDUCED, unsafe (log 19). -/
def State.setShifted (s : State) (rk : Reg) (x : Shifted) : State := (s.set rk x.out).setAccum x.r (shiftNums x.r x.c)

/-- BSL (42_bitwise_shift.md R195). -/
def execBsl (rn rk : Reg) (s : State) : Host.Outcome State Fault Refusal :=
  .next (s.setShifted rk (shiftLeft (s.get .accum) (shiftAmount (s.get rn)) (s.regz rk)))

/-- BSR (42_bitwise_shift.md R196). -/
def execBsr (rn rk : Reg) (s : State) : Host.Outcome State Fault Refusal :=
  .next (s.setShifted rk (shiftRight (s.get .accum) (shiftAmount (s.get rn)) (s.regz rk)))

end Sys2Proof.Machine
end

