-- ==== Sys2Proof/Machine/Control.lean ====
section
/-! DEFINITION. Control transfer (45_control.md). -/

namespace Sys2Proof.Machine

/-- NOP (45_control.md R242): only the effects of the fetch remain. -/
def execNop (s : State) : Host.Outcome State Fault Refusal := .next s

/-- CALL (45_control.md R240): the return address is pushed, then IP is the target, computed before the push. -/
def execCall (cc : Cond) (ro : Reg) (lit : Word) (s : State) : Host.Outcome State Fault Refusal :=
  .next (s.whenCond cc fun s => s.pushThen (s.get .ip) fun t => t.set .ip (s.operandV lit ro))

/-- RET (45_control.md R241). -/
def execRet (s : State) : Host.Outcome State Fault Refusal := .next (s.popThen fun v t => t.set .ip v)

end Sys2Proof.Machine
end

