-- ==== Sys2Proof/Machine/FloatArith.lean ====
section
/-! DEFINITION. Float arithmetic and compare on the same registers (41_arith_float.md). -/

namespace Sys2Proof.Machine

/-- The common shape of ADDF, SUBF, MULF, DIVF, MODF (41_arith_float.md R179): `op canon a b` gives the pattern written to ACCUM
from the pattern of CANON_NAN and the operand patterns; the flags follow R172. -/
def State.floatArith (s : State) (ra : Reg) (op : Word → Word → Word → Word) : State :=
  let a := s.get .accum
  let b := s.get ra
  let q := op s.cfg.canonNan a b
  s.setAccum q (floatNums (f32OfBits a) (f32OfBits b) (f32OfBits q))

/-- CMPF (41_arith_float.md R173). -/
def execCmpf (ra rb : Reg) (s : State) : Host.Outcome State Fault Refusal :=
  .next (s.setNum (cmpfNums (f32OfBits (s.regz ra)) (f32OfBits (s.regz rb))))

/-- ADDF (41_arith_float.md R174). -/
def execAddf (ra : Reg) (s : State) : Host.Outcome State Fault Refusal :=
  .next (s.floatArith ra fun canon a b => f32Add canon (f32OfBits a) (f32OfBits b))

/-- SUBF (41_arith_float.md R175). -/
def execSubf (ra : Reg) (s : State) : Host.Outcome State Fault Refusal :=
  .next (s.floatArith ra fun canon a b => f32Sub canon (f32OfBits a) (f32OfBits b))

/-- MULF (41_arith_float.md R176). -/
def execMulf (ra : Reg) (s : State) : Host.Outcome State Fault Refusal :=
  .next (s.floatArith ra fun canon a b => f32Mul canon (f32OfBits a) (f32OfBits b))

/-- DIVF (41_arith_float.md R177). -/
def execDivf (ra : Reg) (s : State) : Host.Outcome State Fault Refusal :=
  .next (s.floatArith ra fun canon a b => f32Div canon (f32OfBits a) (f32OfBits b))

/-- MODF (41_arith_float.md R178). -/
def execModf (ra : Reg) (s : State) : Host.Outcome State Fault Refusal := .next (s.floatArith ra f32Mod)

end Sys2Proof.Machine
end

