-- ==== Sys2Proof/Machine/Stack.lean ====
section
/-! DEFINITION. Stack instructions (44_stack.md). -/

namespace Sys2Proof.Machine

/-- PUSH (44_stack.md R230): the value is read first, so PUSH SP pushes the old SP. -/
def execPush (rs : Reg) (s : State) : Host.Outcome State Fault Refusal := .next (s.pushThen (s.get rs) id)

/-- POP (44_stack.md R231): the destination is written last, so POP SP leaves SP at the value popped. -/
def execPop (rd : Reg) (s : State) : Host.Outcome State Fault Refusal := .next (s.popThen fun v t => t.set rd v)

end Sys2Proof.Machine
end

