-- ==== Sys2Proof/Machine/System.lean ====
section
/-! DEFINITION. System instructions (46_system.md). No instruction is privileged (R255). -/

namespace Sys2Proof.Machine

/-- INT: a request like a device's, gated and queued (46_system.md R250). -/
def execInt (n8 : IrqNum) (s : State) : Host.Outcome State Fault Refusal := .next (s.raiseIrq n8)

/-- HALT: the step reports idle (46_system.md R251). -/
def execHalt (s : State) : Host.Outcome State Fault Refusal := .next ({ s with halted := true }.reporting .idle)

/-- SLEEP: the step reports idle (46_system.md R252). -/
def execSleep (s : State) : Host.Outcome State Fault Refusal :=
  .next ((s.set .status (withFlag (s.get .status) .sleep)).reporting .idle)

/-- SIE (46_system.md R253). -/
def execSie (s : State) : Host.Outcome State Fault Refusal :=
  .next (s.set .status (withFlag (s.get .status) .intEnabled))

/-- CIE (46_system.md R254). -/
def execCie (s : State) : Host.Outcome State Fault Refusal :=
  .next (s.set .status (withoutFlag (s.get .status) .intEnabled))

/-- RTI (46_system.md R257). -/
def execRti (s : State) : Host.Outcome State Fault Refusal := .next s.returnFromInterrupt

end Sys2Proof.Machine
end

