-- ==== Sys2Proof/Machine/Transfer.lean ====
section
/-! DEFINITION. Loads, stores, moves and conditional increment (43_load_store.md). -/

namespace Sys2Proof.Machine

/-- LOAD (43_load_store.md R211). -/
def execLoad (rd : Reg) (cc : Cond) (ro : Reg) (lit : Word) (s : State) : Host.Outcome State Fault Refusal :=
  .next (s.whenCond cc fun s => (readWord (s.operandV lit ro) s).orFault fun v t => t.set rd v)

/-- STORE (43_load_store.md R212): `rd` is the source, read as a plain register. -/
def execStore (rd : Reg) (cc : Cond) (ro : Reg) (lit : Word) (s : State) : Host.Outcome State Fault Refusal :=
  .next (s.whenCond cc fun s => (writeWord (s.operandV lit ro) (s.get rd) s).orFault fun _ t => t)

/-- LOADL (43_load_store.md R213). -/
def execLoadl (rd : Reg) (cc : Cond) (ro : Reg) (lit : Word) (s : State) : Host.Outcome State Fault Refusal :=
  .next (s.whenCond cc fun s => s.set rd (s.operandV lit ro))

/-- MOV (43_load_store.md R214). -/
def execMov (rd rs : Reg) (s : State) : Host.Outcome State Fault Refusal := .next (s.set rd (s.get rs))

/-- INC (43_load_store.md R215). -/
def execInc (rd : Reg) (cc : Cond) (ro : Reg) (lit : Word) (s : State) : Host.Outcome State Fault Refusal :=
  .next (s.whenCond cc fun s => s.set rd (s.get rd + s.operandV lit ro))

/-- DEC (43_load_store.md R216). -/
def execDec (rd : Reg) (cc : Cond) (ro : Reg) (lit : Word) (s : State) : Host.Outcome State Fault Refusal :=
  .next (s.whenCond cc fun s => s.set rd (s.get rd - s.operandV lit ro))

end Sys2Proof.Machine
end

