-- ==== Sys2Proof/Machine/Dispatch.lean ====
section
/-! DEFINITION. The dispatch of an instruction to its meaning: one arm per constructor of Instr. The state is the one after the
fetch: INS holds the opcode word and IP points past the whole instruction (00_scope.md R9). -/

namespace Sys2Proof.Machine

def exec (i : Instr) (s : State) : Host.Outcome State Fault Refusal :=
  match i with
  | .nop => Sys2Proof.Machine.execNop s
  | .not ra => Sys2Proof.Machine.execNot ra s
  | .or ra => Sys2Proof.Machine.execOr ra s
  | .xor ra => Sys2Proof.Machine.execXor ra s
  | .and ra => Sys2Proof.Machine.execAnd ra s
  | .bsl rn rk => Sys2Proof.Machine.execBsl rn rk s
  | .bsr rn rk => Sys2Proof.Machine.execBsr rn rk s
  | .int n8 => Sys2Proof.Machine.execInt n8 s
  | .halt => Sys2Proof.Machine.execHalt s
  | .sleep => Sys2Proof.Machine.execSleep s
  | .sie => Sys2Proof.Machine.execSie s
  | .cie => Sys2Proof.Machine.execCie s
  | .ret => Sys2Proof.Machine.execRet s
  | .rti => Sys2Proof.Machine.execRti s
  | .inc rd cc ro lit => Sys2Proof.Machine.execInc rd cc ro lit s
  | .cmpi ra rb => Sys2Proof.Machine.execCmpi ra rb s
  | .addi ra => Sys2Proof.Machine.execAddi ra s
  | .subi ra => Sys2Proof.Machine.execSubi ra s
  | .muli ra => Sys2Proof.Machine.execMuli ra s
  | .divi ra => Sys2Proof.Machine.execDivi ra s
  | .modi ra => Sys2Proof.Machine.execModi ra s
  | .cmpu ra rb => Sys2Proof.Machine.execCmpu ra rb s
  | .addu ra => Sys2Proof.Machine.execAddu ra s
  | .subu ra => Sys2Proof.Machine.execSubu ra s
  | .mulu ra => Sys2Proof.Machine.execMulu ra s
  | .divu ra => Sys2Proof.Machine.execDivu ra s
  | .modu ra => Sys2Proof.Machine.execModu ra s
  | .cmpf ra rb => Sys2Proof.Machine.execCmpf ra rb s
  | .addf ra => Sys2Proof.Machine.execAddf ra s
  | .subf ra => Sys2Proof.Machine.execSubf ra s
  | .mulf ra => Sys2Proof.Machine.execMulf ra s
  | .divf ra => Sys2Proof.Machine.execDivf ra s
  | .modf ra => Sys2Proof.Machine.execModf ra s
  | .load rd cc ro lit => Sys2Proof.Machine.execLoad rd cc ro lit s
  | .pop rd => Sys2Proof.Machine.execPop rd s
  | .call cc ro lit => Sys2Proof.Machine.execCall cc ro lit s
  | .mov rd rs => Sys2Proof.Machine.execMov rd rs s
  | .dec rd cc ro lit => Sys2Proof.Machine.execDec rd cc ro lit s
  | .loadl rd cc ro lit => Sys2Proof.Machine.execLoadl rd cc ro lit s
  | .store rd cc ro lit => Sys2Proof.Machine.execStore rd cc ro lit s
  | .push rs => Sys2Proof.Machine.execPush rs s

end Sys2Proof.Machine
end

