-- ==== Sys2Proof/Machine/Fetch.lean ====
section
/-! DEFINITION. The fetch unit (30_encoding.md R101) and the bytes of an instruction placed where it fetches. -/

namespace Sys2Proof.Machine

/-- What the fetch of one instruction gives: the step is over, or an instruction runs on a state whose INS and IP are set. -/
inductive Fetched where
  | over (s : State)
  | run (i : Instr) (s : State)

/-- INS takes the opcode word, zero-extended, and IP moves past it (30_encoding.md R101). -/
def State.opcodeFetched (s : State) (w : OpWord) : State :=
  (s.set .ins (w.setWidth 32)).set .ip (s.get .ip + 2#32)

/-- The literal of an instruction that carries one: read, and IP moved past it, whether or not the condition holds
(30_encoding.md R101, R122). A fault leaves IP at the literal (60_exceptions.md R276). -/
def fetchLiteral (i : Instr) (s : State) : Fetched :=
  match readWord (s.get .ip) s with
  | .notMapped _ t => .over (t.raiseIrq irqMemFault)
  | .ok lit t => .run (i.withLiteral lit) (t.set .ip (s.get .ip + 4#32))

/-- The fetch of one instruction (30_encoding.md R101; 60_exceptions.md R276, R278). -/
def fetch (s : State) : Fetched :=
  match readOpWord (s.get .ip) s with
  | .notMapped _ t => .over (t.raiseIrq irqMemFault)
  | .ok w t =>
    match decodeWord w with
    | .error _ => .over (t.opcodeFetched w).unknownOp
    | .ok i => if i.hasLiteral then fetchLiteral i (t.opcodeFetched w) else .run i (t.opcodeFetched w)

/-- Bytes placed in memory from an address on, whatever MAP says: the host's own hand, not the bus. -/
def State.placeBytes (s : State) (a : Word) : List Byte → State
  | [] => s
  | b :: rest => (s.storeByte a b).placeBytes (a + 1#32) rest

end Sys2Proof.Machine
end

