-- ==== Sys2Proof/Machine/Step.lean ====
section
/-! DEFINITION. One step of the core (60_exceptions.md R270). -/

namespace Sys2Proof.Machine

/-- Case 4 of a step: an instruction is fetched and run. -/
def State.fetchExecute (s : State) : Host.Outcome State Fault Refusal :=
  match fetch s with
  | .over t => .next t
  | .run i t => exec i t

/-- One step (60_exceptions.md R270): idle when halted or asleep, else one delivery, else one instruction. The output bit
(R287) is idle in the first case and progress in the others, unless the instruction reports idle itself. A configuration
that is not well formed is refused (log 7). -/
def step (s : State) : Host.Outcome State Fault Refusal :=
  if s.cfg.wf then
    match s.nextCase with
    | .rest => .next (s.reporting .idle)
    | .deliver n rest => .next ((s.reporting .progress).deliver n rest)
    | .fetch => (s.reporting .progress).fetchExecute
  else .fault .illFormedConfig

/-- The state with a table word's instruction placed where the next step fetches (log 11). -/
def State.withFetchWord (s : State) (nbits w : Nat) : State := s.placeBytes (s.get .ip) (tableBytes nbits w)

end Sys2Proof.Machine
end

