-- ==== Sys2Proof/Machine/AddressMap.lean ====
section
/-! DEFINITION. How the host builds the address map before the first step (20_memory.md R68, 70_reset_and_hazards.md R325). -/

namespace Sys2Proof.Machine

/-- The errors of whoever configures the machine; none is raised during a run (20_memory.md R68). -/
inductive MapError where
  /-- A page of the range is occupied; the address is the first byte of the first such page. DESIGN CHOICE (log 20): the rule says
  "carrying the address" and not which. -/
  | alreadyMapped (addr : Nat)
  /-- No region is mapped at the address. That the error carries the address asked for is a DESIGN CHOICE (log 20). -/
  | notMapped (addr : Nat)
  deriving DecidableEq, Repr

/-- The page slots a region claims (20_memory.md R68). -/
def pagesOf (pageSize : Nat) (r : Region) : List Nat :=
  (List.range (r.pages pageSize)).map (r.firstPage pageSize + ·)

/-- Whether a page slot is occupied. -/
def pageOccupied (c : Config) (page : Nat) : Bool := c.map.any (regionClaims c.pageSize page)

/-- A region added to the map; it fails if a page of its range is occupied (20_memory.md R68). The address the error carries is the
first byte of the first occupied page: DESIGN CHOICE (log 20). -/
def addRegion (c : Config) (r : Region) : Except MapError Config :=
  match (pagesOf c.pageSize r).find? (pageOccupied c) with
  | some page => .error (.alreadyMapped (page * c.pageSize))
  | none => .ok { c with map := c.map ++ [r] }

/-- The region that owns an address removed from the map, all its pages with it; it fails with NotMapped where there is none
(20_memory.md R68, log 20). -/
def removeRegion (c : Config) (a : Word) : Except MapError Config :=
  match ownerOf c a with
  | none => .error (.notMapped a.toNat)
  | some r => .ok { c with map := c.map.erase r }

end Sys2Proof.Machine
end

