-- ==== Sys2Proof/Machine/Inputs.lean ====
section
/-! DEFINITION. What the outside world does between two steps (70_reset_and_hazards.md R320 to R328). -/

namespace Sys2Proof.Machine

/-- `irq(n)`: a request through the port, one `RaiseIrq` (60_exceptions.md R284). -/
def State.irq (s : State) (n : IrqNum) : State := s.raiseIrq n

/-- `Reset()` (70_reset_and_hazards.md R321): the registers, the latches and the queue; memory, devices and configuration stay. -/
def State.resetInput (s : State) : State :=
  { s with regs := resetRegs s.cfg.stackStart, halted := false, fatal := false, queue := [0#8] }

/-- `stop`: HALTED is set (70_reset_and_hazards.md R328). -/
def State.stopInput (s : State) : State := { s with halted := true }

/-- One byte of the image: written where a RAM region owns the address, dropped elsewhere (log 13). -/
def State.loadByte (s : State) (a : Word) (b : Byte) : State :=
  match ownerOf s.cfg a with
  | none => s
  | some r =>
    match r.kind with
    | .ram => s.storeByte a b
    | .device => s

/-- Image bytes at ascending addresses from `a` on. -/
def State.loadImageAt (s : State) (a : Word) : List Byte → State
  | [] => s
  | b :: rest => (s.loadByte a b).loadImageAt (a + 1#32) rest

/-- The flat image loaded at address 0 before reset is released (70_reset_and_hazards.md R326). -/
def State.loadImage (s : State) (image : List Byte) : State := s.loadImageAt 0#32 image

/-- The inputs of the block (70_reset_and_hazards.md R327). -/
inductive Event where
  | step
  | irq (n : IrqNum)
  | reset
  | stop
  deriving DecidableEq, Repr

/-- One event. -/
def State.event (s : State) : Event → Host.Outcome State Fault Refusal
  | .step => step s
  | .irq n => .next (s.irq n)
  | .reset => .next s.resetInput
  | .stop => .next s.stopInput

/-- A list of events applied in its order (93_implementation_defined.md U17). -/
def State.events (s : State) : List Event → Host.Outcome State Fault Refusal
  | [] => .next s
  | e :: rest =>
    match s.event e with
    | .next t => t.events rest
    | .fault r => .fault r
    | .refused r => .refused r

end Sys2Proof.Machine
end

