-- ==== Sys2Proof/Safety.lean ====
section
/-! DEFINITION. The terms claims use: what a good state is, what a final and a stuck state are, where memory is RAM, what an
instruction leaves unchanged, and what a correctly rounded float is. -/

namespace Sys2Proof

/-! ### Registers an instruction names -/

/-- The registers named by the fields of an instruction. -/
def Instr.regsNamed : Instr → List Reg
  | .nop | .int _ | .halt | .sleep | .sie | .cie | .ret | .rti => []
  | .not r | .or r | .xor r | .and r => [r]
  | .addi r | .subi r | .muli r | .divi r | .modi r => [r]
  | .addu r | .subu r | .mulu r | .divu r | .modu r => [r]
  | .addf r | .subf r | .mulf r | .divf r | .modf r => [r]
  | .push r | .pop r => [r]
  | .bsl a b | .bsr a b | .cmpi a b | .cmpu a b | .cmpf a b | .mov a b => [a, b]
  | .inc rd _ ro _ | .load rd _ ro _ | .dec rd _ ro _ | .loadl rd _ ro _ | .store rd _ ro _ => [rd, ro]
  | .call _ ro _ => [ro]

/-- The destination register a field names, where the instruction has one (10_state.md R35). -/
def Instr.fieldDest : Instr → Option Reg
  | .mov rd _ | .load rd .. | .loadl rd .. | .inc rd .. | .dec rd .. | .pop rd => some rd
  | .bsl _ rk | .bsr _ rk => some rk
  | .nop | .int _ | .halt | .sleep | .sie | .cie | .ret | .rti => none
  | .not _ | .or _ | .xor _ | .and _ => none
  | .cmpi _ _ | .addi _ | .subi _ | .muli _ | .divi _ | .modi _ => none
  | .cmpu _ _ | .addu _ | .subu _ | .mulu _ | .divu _ | .modu _ => none
  | .cmpf _ _ | .addf _ | .subf _ | .mulf _ | .divf _ | .modf _ => none
  | .call .. | .store .. | .push _ => none

/-- The instructions that assign the four numeric flags (10_state.md R35). -/
def Instr.isAlu : Instr → Bool
  | .not _ | .or _ | .xor _ | .and _ | .bsl _ _ | .bsr _ _ => true
  | .cmpi _ _ | .addi _ | .subi _ | .muli _ | .divi _ | .modi _ => true
  | .cmpu _ _ | .addu _ | .subu _ | .mulu _ | .divu _ | .modu _ => true
  | .cmpf _ _ | .addf _ | .subf _ | .mulf _ | .divf _ | .modf _ => true
  | .nop | .int _ | .halt | .sleep | .sie | .cie | .ret | .rti => false
  | .inc .. | .load .. | .call .. | .dec .. | .loadl .. | .store .. => false
  | .pop _ | .mov _ _ | .push _ => false

/-- `w` is the opcode word of the instruction: the encoder writes it, and the decoder reads it back (the literal comes later). -/
abbrev WordOf (i : Instr) (w : OpWord) : Prop := encodeWord i = w ∧ decodeWord w = .ok (i.withLiteral 0#32)

/-- `w` and then `lit`, each with its least significant byte first, are the bytes of the instruction. -/
abbrev BytesOf (i : Instr) (w : OpWord) (lit : Word) : Prop :=
  encode i = leBytes 2 w.toNat ++ leBytes 4 lit.toNat ∧ decode (encode i) = .ok (i, [])

end Sys2Proof

namespace Sys2Proof.Machine

/-! ### Where an access goes -/

/-- The address belongs to a RAM region. -/
abbrev RamAt (c : Config) (a : Word) : Prop := (ownerOf c a).map Region.kind = some .ram

/-- The address belongs to a device other than RAM. -/
abbrev DeviceAt (c : Config) (a : Word) : Prop := (ownerOf c a).map Region.kind = some .device

/-- The address belongs to no region. -/
abbrev Unmapped (c : Config) (a : Word) : Prop := ownerOf c a = none

/-- The `n` addresses from `a` on, modulo 2^32, are RAM. -/
abbrev RamRange (c : Config) (a : Word) (n : Nat) : Prop := ∀ k, k < n → RamAt c (a + BitVec.ofNat 32 k)

/-- The `n` addresses from `a` on each belong to some region. -/
abbrev MappedRange (c : Config) (a : Word) (n : Nat) : Prop := ∀ k, k < n → (ownerOf c (a + BitVec.ofNat 32 k)).isSome = true

/-- Of the `n` addresses from `a` on, the first unmapped one is the one at distance `j`, and those below it are RAM. -/
abbrev FirstUnmapped (c : Config) (a : Word) (n j : Nat) : Prop :=
  j < n ∧ RamRange c a j ∧ Unmapped c (a + BitVec.ofNat 32 j)

/-- The bytes held at the `n` addresses from `a` on. -/
def State.bytesAt (s : State) (a : Word) (n : Nat) : List Byte := (List.range n).map fun k => s.byteAt (a + BitVec.ofNat 32 k)

/-- The 32-bit word held at an address, little-endian (20_memory.md R62). -/
def State.wordAt (s : State) (a : Word) : Word := leWord (s.bytesAt a 4)

/-- Byte `k` of a word, byte 0 the least significant (20_memory.md R62). -/
def byteOf (v : Word) (k : Nat) : Byte := v.extractLsb' (8 * k) 8

/-! ### What stays unchanged -/

/-- Every register outside the list is unchanged. -/
abbrev KeepsRegs (changed : List Reg) (s t : State) : Prop := ∀ r, r ∉ changed → t.get r = s.get r

/-- Every byte of memory is unchanged. -/
abbrev KeepsMem (s t : State) : Prop := ∀ a, t.byteAt a = s.byteAt a

/-- Every byte of memory outside the `n` addresses from `a` on is unchanged. -/
abbrev KeepsMemOutside (a : Word) (n : Nat) (s t : State) : Prop :=
  ∀ b : Word, (∀ k, k < n → b ≠ a + BitVec.ofNat 32 k) → t.byteAt b = s.byteAt b

/-- Bits 31:4 of STATUS are unchanged. -/
abbrev KeepsStatusHigh (s t : State) : Prop := ∀ k, 4 ≤ k → (t.get .status).getLsbD k = (s.get .status).getLsbD k

/-- The latches, the configuration, the device record and the free index are unchanged. -/
structure KeepsLatches (s t : State) : Prop where
  cfg : t.cfg = s.cfg
  halted : t.halted = s.halted
  fatal : t.fatal = s.fatal
  devWrites : t.devWrites = s.devWrites
  freeIndex : t.freeIndex = s.freeIndex

/-- Everything outside the registers and memory is unchanged. -/
structure KeepsRest (s t : State) : Prop extends KeepsLatches s t where
  queue : t.queue = s.queue
  report : t.report = s.report

/-- The four numeric flags. -/
abbrev NumsAre (t : State) (z n c e : Prop) : Prop :=
  (t.flag .zero = true ↔ z) ∧ (t.flag .negative = true ↔ n) ∧ (t.flag .carry = true ↔ c) ∧ (t.flag .error = true ↔ e)

/-- The frame of an ALU instruction that writes ACCUM and the numeric flags. -/
structure AluFrame (s t : State) : Prop where
  regs : KeepsRegs [.accum, .status] s t
  high : KeepsStatusHigh s t
  mem : KeepsMem s t
  rest : KeepsRest s t

/-- The frame of an instruction that writes the numeric flags only. -/
structure FlagFrame (s t : State) : Prop where
  regs : KeepsRegs [.status] s t
  high : KeepsStatusHigh s t
  mem : KeepsMem s t
  rest : KeepsRest s t

/-- The frame of an instruction that writes the listed registers only. -/
structure RegFrame (changed : List Reg) (s t : State) : Prop where
  regs : KeepsRegs changed s t
  mem : KeepsMem s t
  rest : KeepsRest s t

/-- The first `n` of the four bytes of `v` stand at `a`, and every byte of memory outside them is unchanged. -/
abbrev Stored (a v : Word) (n : Nat) (s t : State) : Prop :=
  (∀ k, k < n → t.byteAt (a + BitVec.ofNat 32 k) = byteOf v k) ∧ KeepsMemOutside a n s t

/-- The frame of an instruction that stores the word `v` at `a` and writes the listed registers. -/
structure StoreFrame (changed : List Reg) (a v : Word) (s t : State) : Prop where
  regs : KeepsRegs changed s t
  stored : Stored a v 4 s t
  rest : KeepsRest s t

/-- What an ALU instruction leaves: the result in ACCUM, the four numeric flags, and its frame. -/
structure AluResult (s t : State) (r : Word) (z n c e : Prop) : Prop where
  accum : t.get .accum = r
  nums : NumsAre t z n c e
  frame : AluFrame s t

/-- What an abandoned access leaves: every register, the latches and the output bit are kept, and `mem_fault` has been requested
through the gate (60_exceptions.md R277). -/
structure MemFaulted (s t : State) : Prop extends KeepsLatches s t where
  regs : KeepsRegs [] s t
  report : t.report = s.report
  queue : t.queue = (s.raiseIrq irqMemFault).queue

/-- What a faulting read leaves: memory is unchanged too. -/
structure ReadFaulted (s t : State) : Prop extends MemFaulted s t where
  mem : KeepsMem s t

/-- What a write of `v` at `a` leaves that faults at distance `j`: the `j` bytes below the unmapped one stay written. -/
structure WriteFaulted (a v : Word) (j : Nat) (s t : State) : Prop extends MemFaulted s t where
  stored : Stored a v j s t

/-- `w` is the one write call of a device for the run of the `m` bytes from byte `k` on, of the bytes `f 0`, `f 1`, … that go to the `n`
addresses from `a` on (20_memory.md R71, R72): one device owns the run, its addresses do not wrap, and it ends with the access, at
another owner or at the wrap. -/
structure RunCall (c : Config) (f : Nat → Byte) (n : Nat) (a : Word) (k m : Nat) (w : DeviceWrite) : Prop where
  fits : 0 < m ∧ k + m ≤ n
  device : w.region.kind = .device
  owner : ∀ i, i < m → ownerOf c (a + BitVec.ofNat 32 (k + i)) = some w.region ∧
    (a + BitVec.ofNat 32 (k + i)).toNat = (a + BitVec.ofNat 32 k).toNat + i
  ends : k + m = n ∨ ownerOf c (a + BitVec.ofNat 32 (k + m)) ≠ some w.region ∨ a + BitVec.ofNat 32 (k + m) = 0#32
  offset : w.offset = deviceOffset w.region (a + BitVec.ofNat 32 k)
  bytes : w.bytes = (List.range m).map fun i => f (k + i)

/-- The call of the run `p.1`, `p.2` took all its bytes, all among the first `j`; or it refused byte `j`, after taking those of the run
below it. -/
abbrev CallOutcome (j : Nat) (p : Nat × Nat) (w : DeviceWrite) : Prop :=
  (w.accepted = p.2 ∧ p.1 + p.2 ≤ j) ∨ (w.accepted < p.2 ∧ p.1 + w.accepted = j)

/-- The calls `ws` of a write that transfers its first `j` bytes: one for each run of `spans`, in ascending order without overlap, and
a run for every device byte up to the one that was refused (20_memory.md R72, R73). -/
structure RunCalls (c : Config) (f : Nat → Byte) (n : Nat) (a : Word) (j : Nat) (spans : List (Nat × Nat))
    (ws : List DeviceWrite) : Prop where
  each : List.Forall₂ (fun p w => RunCall c f n a p.1 p.2 w ∧ CallOutcome j p w) spans ws
  order : spans.Pairwise fun p q => p.1 + p.2 ≤ q.1
  reached : ∀ k, k < n → k ≤ j → DeviceAt c (a + BitVec.ofNat 32 k) → ∃ p, p ∈ spans ∧ p.1 ≤ k ∧ k < p.1 + p.2

/-- What a write of the bytes `f 0`, `f 1`, … to `n` mapped addresses leaves, RAM and devices mixed (20_memory.md R72 to R76). It
transfers the first `j` bytes: all of them, or those below the first one that a device refused. The bytes in RAM among these are
written, every other byte of memory is unchanged, and each run of device bytes is one call on record. -/
structure Offered (f : Nat → Byte) (n : Nat) (a : Word) (j : Nat) (s t : State) : Prop where
  bound : j ≤ n
  refused : j < n → DeviceAt s.cfg (a + BitVec.ofNat 32 j)
  written : ∀ k, k < j → RamAt s.cfg (a + BitVec.ofNat 32 k) → t.byteAt (a + BitVec.ofNat 32 k) = f k
  kept : ∀ x : Word, (∀ k, k < j → RamAt s.cfg (a + BitVec.ofNat 32 k) → x ≠ a + BitVec.ofNat 32 k) → t.byteAt x = s.byteAt x
  calls : ∃ ws spans, t.devWrites = s.devWrites ++ ws ∧ RunCalls s.cfg f n a j spans ws

/-- What a write of the word `v` to four mapped addresses leaves: its bytes are offered, and nothing else of memory, of the queue or
of the latches changes. -/
structure OfferedWord (a v : Word) (s t : State) : Prop where
  cfg : t.cfg = s.cfg
  halted : t.halted = s.halted
  fatal : t.fatal = s.fatal
  queue : t.queue = s.queue
  report : t.report = s.report
  offered : ∃ j, Offered (byteOf v) 4 a j s t

/-- What a read of the word `v` from four mapped addresses says of it (20_memory.md R73, R75): the first `j` bytes arrive, all of
them or those below a device that reads short, and those in RAM among these are the bytes held there. -/
def ReadFrom (s : State) (a v : Word) : Prop :=
  ∃ j, j ≤ 4 ∧ (∀ k, k < j → RamAt s.cfg (a + BitVec.ofNat 32 k) → byteOf v k = s.byteAt (a + BitVec.ofNat 32 k)) ∧
    (j < 4 → DeviceAt s.cfg (a + BitVec.ofNat 32 j))

/-! ### Good, final and stuck states -/

/-- What holds of every state of a run: memory is in canonical form and lists RAM only (10_state.md R46), the queue is within its
depth (R44), FATAL is set only with HALTED and only in strict mode (R43), and the device record names devices only, none of which took more
bytes than its call had. -/
structure State.Inv (s : State) : Prop where
  memWf : s.mem.wf = true
  memRam : ∀ cell, cell ∈ s.mem → RamAt s.cfg (BitVec.ofNat 32 cell.1)
  queueDepth : ∀ d, s.cfg.irqDepth = some d → s.queue.length ≤ d
  fatalHalted : s.fatal = true → s.halted = true ∧ s.cfg.strict = true
  devices : ∀ w, w ∈ s.devWrites → w.region.kind = .device ∧ w.region ∈ s.cfg.map ∧ w.accepted ≤ w.bytes.length

/-- A run has ended: HALTED without FATAL (00_scope.md section 4). A state with FATAL is never a final one (10_state.md R43). -/
def State.isFinal (s : State) : Bool := s.halted && !s.fatal

/-- The dead sleep of 70_reset_and_hazards.md R334: SLEEP with INT_ENABLED and INT_FLAG both 0. Only reset ends it. -/
def State.deadSleep (s : State) : Bool := s.flag .sleep && !s.flag .intEnabled && !s.flag .intFlag

/-- A step is safe when the machine goes on. -/
def State.stepIsSafe (s : State) : Bool :=
  match step s with
  | .next t => !t.fatal
  | .fault _ => false
  | .refused _ => false

/-! ### Correct rounding (41_arith_float.md R170) -/

/-- The rational value of a finite number. -/
def f32Rat (neg : Bool) (mag : Nat) : ℚ := (f32Int neg mag : ℚ) / 2 ^ 149

/-- `w` is `q` rounded once to binary32, to nearest, ties to even, with an infinity of the right sign on overflow. -/
def RoundsTo (q : ℚ) (w : Word) : Prop :=
  (∃ s m, f32OfBits w = .fin s m ∧ |q| < 2 ^ 128 - 2 ^ 103 ∧
    ∀ v s' m', f32OfBits v = .fin s' m' →
      |f32Rat s m - q| ≤ |f32Rat s' m' - q| ∧
      (f32Rat s' m' ≠ f32Rat s m → |f32Rat s m - q| = |f32Rat s' m' - q| → w.getLsbD 0 = false)) ∨
  (∃ s, f32OfBits w = .inf s ∧ 2 ^ 128 - 2 ^ 103 ≤ |q| ∧ (s = true ↔ q < 0))

/-- The value of a number in the rationals with a bottom for -inf and a top for +inf; NaN has none. -/
def f32Ext : F32 → Option (WithBot (WithTop ℚ))
  | .nan => none
  | .inf true => some ⊥
  | .inf false => some (some ⊤)
  | .fin s m => some (some (some (f32Rat s m)))

/-- The flags a float operation leaves in `t` for the operands `a`, `b` and the result in ACCUM (41_arith_float.md R172). -/
abbrev FloatFlags (a b : Word) (t : State) : Prop :=
  NumsAre t (∃ s, f32OfBits (t.get .accum) = .fin s 0)
    (f32OfBits (t.get .accum) = .inf true ∨ ∃ m, f32OfBits (t.get .accum) = .fin true m ∧ m ≠ 0)
    False (f32OfBits a = .nan ∨ f32OfBits b = .nan)

/-- A rational rounded toward zero. -/
def ratTrunc (q : ℚ) : ℤ := if 0 ≤ q then ⌊q⌋ else ⌈q⌉

/-- The registers no instruction reads or writes unless a field names them: R1 to R9 and CS (45_control.md R244, 10_state.md R41). -/
def plainRegs : List Reg := [.r1, .r2, .r3, .r4, .r5, .r6, .r7, .r8, .r9, .cs]

end Sys2Proof.Machine
end

