-- ==== Sys2Proof/Certificates/Slice0/Obligations.lean ====
section
/-! DEFINITION. The statements for the provers, each over every configuration, register content and memory it does not name. -/

open Sys2Proof Sys2Proof.Machine

/-! ### Encoding -/

/-- Decoding what the encoder writes gives the instruction back, with the bytes after it (30_encoding.md R100, R103, R128). -/
def Obligations.DecodeOfEncode : Prop :=
  ∀ (i : Instr) (rest : List Byte), decode (encode i ++ rest) = .ok (i, rest)

/-- A word is an instruction of the opcode map exactly when the row's mask and match say so (30_encoding.md R110). -/
def Obligations.DecodeFollowsOpcodeMap : Prop :=
  ∀ (w : OpWord) (row : OpcodeRow), row ∈ opcodeRows →
    (w &&& row.mask = row.pattern ↔
      ∃ i, decodeWord w = .ok i ∧ i.mnemonic = row.mnemonic ∧ i.length = row.length)

/-- The ignored bits of an instruction do not matter to decoding, and the encoder writes them as 0 (30_encoding.md R109). -/
def Obligations.IgnoredBitsDoNotMatter : Prop :=
  ∀ (w : OpWord) (i : Instr), decodeWord w = .ok i →
    encodeWord i = w &&& ~~~i.ignoredBits ∧
    ∀ v : OpWord, v &&& ~~~i.ignoredBits = w &&& ~~~i.ignoredBits → decodeWord v = .ok i

/-- The words that select nothing, by their groups and keys (30_encoding.md R108). -/
def Obligations.UnknownWords : Prop :=
  ∀ w : OpWord, (∃ e, decodeWord w = .error e) ↔
    (opGrp w = 0xB ∨ opGrp w = 0xC ∨ opGrp w = 0xF) ∨
    (opGrp w = 0x0 ∧ (opF1 w = 0xE ∨ opF1 w = 0xF)) ∨
    ((opGrp w = 0x2 ∨ opGrp w = 0x3 ∨ opGrp w = 0x4) ∧ 6 ≤ (opF1 w).toNat)

/-- The worked encodings of 30_encoding.md R128, one for each format: the encoder writes these bytes, the decoder reads them. -/
def Obligations.WorkedEncodings : Prop :=
  ∀ p : Instr × List Byte, p ∈ ([
      (.nop, [0x00, 0x00]), (.halt, [0x80, 0x00]), (.rti, [0xD0, 0x00]), (.and .r2, [0x40, 0x02]),
      (.bsl .r2 .r1, [0x50, 0x12]), (.int 9, [0x70, 0x09]), (.addi .r2, [0x12, 0x02]), (.cmpu .r2 .ins, [0x03, 0xF2]),
      (.mov .r2 .r0, [0x28, 0x00]), (.push .r1, [0x1E, 0x00]), (.pop .ip, [0xC6, 0x00]),
      (.loadl .r0 0 .ins 5, [0x0A, 0xF0, 0x05, 0x00, 0x00, 0x00]),
      (.loadl .ip 0 .ins 0x200, [0xCA, 0xF0, 0x00, 0x02, 0x00, 0x00]),
      (.load .r1 0 .r2 4, [0x15, 0x20, 0x04, 0x00, 0x00, 0x00]),
      (.store .r0 0 .ins 0xFFE, [0x0D, 0xF0, 0xFE, 0x0F, 0x00, 0x00]),
      (.inc .ip 1 .ins 6, [0xC1, 0xF1, 0x06, 0x00, 0x00, 0x00]),
      (.dec .r2 0 .ins 1, [0x29, 0xF0, 0x01, 0x00, 0x00, 0x00]),
      (.call 0 .ins 0x20, [0x07, 0xF0, 0x20, 0x00, 0x00, 0x00])] : List (Instr × List Byte)) →
    encode p.1 = p.2 ∧ decode p.2 = .ok (p.1, [])

/-! ### The step -/

/-- The step of an instruction is its meaning, run in the state where INS holds the opcode word and IP points past the whole
instruction (00_scope.md R9). -/
def Obligations.StepRunsDecodedInstruction : Prop :=
  ∀ (s : State) (i : Instr), s.cfg.wf = true → s.nextCase = .fetch →
    RamRange s.cfg (s.get .ip) i.length → decode (s.bytesAt (s.get .ip) i.length) = .ok (i, []) →
    step s = exec i
      (((s.reporting .progress).set .ins ((leOpWord (s.bytesAt (s.get .ip) 2)).setWidth 32)).set .ip
        (s.get .ip + BitVec.ofNat 32 i.length))

/-- Which case a step is, and that a halted or idle core changes nothing but the output bit (60_exceptions.md R270 to R272). -/
def Obligations.StepCases : Prop :=
  ∀ s : State,
    (s.nextCase = .rest ↔
      s.halted = true ∨
      (s.flag .sleep = true ∧ s.flag .intFlag = false ∧ ¬(s.flag .intEnabled = true ∧ s.queue ≠ []))) ∧
    (∀ n rest, s.nextCase = .deliver n rest ↔
      s.halted = false ∧ s.flag .intEnabled = true ∧ s.queue = n :: rest) ∧
    (s.cfg.wf = true → s.nextCase = .rest → step s = .next (s.reporting .idle))

/-- No instruction stops the machine, and no step of a well-formed configuration does ("never crash the run loop",
60_exceptions.md R276). That an ill-formed configuration stops it is the model's choice (log 7). -/
def Obligations.NothingStopsTheRun : Prop :=
  (∀ (i : Instr) (s : State), ∃ t, exec i s = .next t) ∧
  ∀ s : State, (s.cfg.wf = true → ∃ t, step s = .next t) ∧ (s.cfg.wf = false → step s = .fault .illFormedConfig)

/-- A delivery onto a mapped stack: SP, STATUS, IP and the queue of 60_exceptions.md R273. Where the stack is RAM, the eight bytes of
the frame of R275 are written, and no other byte of memory. -/
def Obligations.DeliverySavesAndVectors : Prop :=
  ∀ (s : State) (n : IrqNum) (rest : List IrqNum), s.cfg.wf = true → s.nextCase = .deliver n rest →
    MappedRange s.cfg (s.get .sp - 8#32) 8 →
    ∃ t, step s = .next t ∧
      t.get .sp = s.get .sp - 8#32 ∧ t.get .ip = s.get .isr + BitVec.ofNat 32 (8 * n.toNat) ∧
      (∀ k, (t.get .status).getLsbD k = if k = 6 then true else if k = 4 then false else (s.get .status).getLsbD k) ∧
      t.queue = rest ∧ t.report = .progress ∧ KeepsRegs [.sp, .status, .ip] s t ∧
      t.cfg = s.cfg ∧ t.halted = s.halted ∧ t.fatal = s.fatal ∧
      (RamRange s.cfg (s.get .sp - 8#32) 8 →
        t.wordAt (s.get .sp - 4#32) = s.get .ip ∧ t.wordAt (s.get .sp - 8#32) = s.get .status ∧
        KeepsMemOutside (s.get .sp - 8#32) 8 s t ∧ KeepsLatches s t)

/-- A delivery whose first or second push faults is abandoned: no register changes, the number stays at the head of the queue,
the bytes written stay written, interrupt 5 is requested, and the next step tries the same delivery (60_exceptions.md R288). -/
def Obligations.DeliveryFaultAbandons : Prop :=
  ∀ (s : State) (n : IrqNum) (rest : List IrqNum) (j : Nat), s.cfg.wf = true → s.nextCase = .deliver n rest →
    (FirstUnmapped s.cfg (s.get .sp - 4#32) 4 j →
      ∃ t, step s = .next t ∧ WriteFaulted (s.get .sp - 4#32) (s.get .ip) j (s.reporting .progress) t ∧
        ∃ more, t.nextCase = .deliver n more) ∧
    (RamRange s.cfg (s.get .sp - 4#32) 4 → FirstUnmapped s.cfg (s.get .sp - 8#32) 4 j →
      ∃ t, step s = .next t ∧ MemFaulted (s.reporting .progress) t ∧
        (∀ k, k < 4 → t.byteAt (s.get .sp - 4#32 + BitVec.ofNat 32 k) = byteOf (s.get .ip) k) ∧
        (∀ k, k < j → t.byteAt (s.get .sp - 8#32 + BitVec.ofNat 32 k) = byteOf (s.get .status) k) ∧
        (∀ a : Word, (∀ k, k < 4 → a ≠ s.get .sp - 4#32 + BitVec.ofNat 32 k) →
          (∀ k, k < j → a ≠ s.get .sp - 8#32 + BitVec.ofNat 32 k) → t.byteAt a = s.byteAt a) ∧
        ∃ more, t.nextCase = .deliver n more)

/-- An unknown opcode word in RAM: INS and IP are written, then interrupt 3 is requested, or in strict mode the core stops for
good (60_exceptions.md R278, 30_encoding.md R108). -/
def Obligations.UnknownWordStep : Prop :=
  ∀ (s : State) (e : DecodeReject), s.cfg.wf = true → s.nextCase = .fetch → RamRange s.cfg (s.get .ip) 2 →
    decodeWord (leOpWord (s.bytesAt (s.get .ip) 2)) = .error e →
    ∃ t, step s = .next t ∧
      t.get .ins = (leOpWord (s.bytesAt (s.get .ip) 2)).setWidth 32 ∧ t.get .ip = s.get .ip + 2#32 ∧
      KeepsRegs [.ins, .ip] s t ∧ KeepsMem s t ∧ t.cfg = s.cfg ∧ t.devWrites = s.devWrites ∧
      (s.cfg.strict = false →
        t.halted = false ∧ t.fatal = s.fatal ∧ t.queue = (s.raiseIrq 3#8).queue ∧ t.report = .progress) ∧
      (s.cfg.strict = true → t.halted = true ∧ t.fatal = true ∧ t.queue = s.queue ∧ t.report = .idle)

/-- A fetch fault: of the opcode word, which leaves every register alone, and of the literal, which leaves IP at the literal
(60_exceptions.md R276). -/
def Obligations.FetchFaults : Prop :=
  ∀ (s : State) (j : Nat), s.cfg.wf = true → s.nextCase = .fetch →
    (FirstUnmapped s.cfg (s.get .ip) 2 j → ∃ t, step s = .next t ∧ ReadFaulted (s.reporting .progress) t) ∧
    (∀ i : Instr, RamRange s.cfg (s.get .ip) 2 → decodeWord (leOpWord (s.bytesAt (s.get .ip) 2)) = .ok i →
      i.hasLiteral = true → FirstUnmapped s.cfg (s.get .ip + 2#32) 4 j →
      ∃ t, step s = .next t ∧
        t.get .ins = (leOpWord (s.bytesAt (s.get .ip) 2)).setWidth 32 ∧ t.get .ip = s.get .ip + 2#32 ∧
        KeepsRegs [.ins, .ip] s t ∧ KeepsMem s t ∧ KeepsLatches s t ∧
        t.queue = (s.raiseIrq 5#8).queue ∧ t.report = .progress)

/-- The gate of a request: INT_ENABLED or INT_FLAG, and room in the queue (60_exceptions.md R283). INT and the `irq` port are the
same request (46_system.md R250). -/
def Obligations.RequestGate : Prop :=
  ∀ (s : State) (n : IrqNum),
    ((s.flag .intEnabled = true ∨ s.flag .intFlag = true) ∧ (∀ d, s.cfg.irqDepth = some d → s.queue.length < d) →
      exec (.int n) s = .next { s with queue := s.queue ++ [n] }) ∧
    (¬((s.flag .intEnabled = true ∨ s.flag .intFlag = true) ∧ (∀ d, s.cfg.irqDepth = some d → s.queue.length < d)) →
      exec (.int n) s = .next s) ∧
    s.event (.irq n) = exec (.int n) s ∧ WordOf (.int n) (0x0070#16 ||| (n.setWidth 16 <<< 8))

/-- A core asleep with INT_ENABLED and INT_FLAG both 0 stays so through every list of inputs without a reset, and SLEEP with both
bits 0 enters that state (70_reset_and_hazards.md R334). -/
def Obligations.DeadSleepEndsOnlyByReset : Prop :=
  (∀ s t : State, s.flag .intEnabled = false → s.flag .intFlag = false → exec .sleep s = .next t → t.deadSleep = true) ∧
  ∀ (s : State) (es : List Event), s.cfg.wf = true → s.deadSleep = true → Event.reset ∉ es →
    ∃ t, s.events es = .next t ∧ t.deadSleep = true ∧ KeepsRegs [] s t ∧ KeepsMem s t ∧ t.queue = s.queue

/-- A halted core stays halted through every list of inputs without a reset: requests may queue, nothing else changes
(46_system.md R251, 70_reset_and_hazards.md R328). The input `stop` halts it. -/
def Obligations.HaltedUntilReset : Prop :=
  (∀ s : State, s.event .stop = .next { s with halted := true }) ∧
  ∀ (s : State) (es : List Event), s.cfg.wf = true → s.halted = true → Event.reset ∉ es →
    ∃ t, s.events es = .next t ∧ t.halted = true ∧ t.fatal = s.fatal ∧ KeepsRegs [] s t ∧ KeepsMem s t ∧
      ∃ q, t.queue = s.queue ++ q

/-- A fetch fault that cannot be delivered repeats for ever: IP stays, and with INT_FLAG each repetition queues another 5 until the
queue is full (70_reset_and_hazards.md R331). -/
def Obligations.FetchFaultLivelock : Prop :=
  ∀ (s : State) (j m : Nat), s.cfg.wf = true → s.nextCase = .fetch → s.flag .intEnabled = false →
    FirstUnmapped s.cfg (s.get .ip) 2 j →
    ∃ t, s.events (List.replicate m .step) = .next t ∧ KeepsRegs [] s t ∧ KeepsMem s t ∧ t.halted = s.halted ∧
      (s.flag .intFlag = false → t.queue = s.queue) ∧
      (s.flag .intFlag = true → s.cfg.irqDepth = none → t.queue = s.queue ++ List.replicate m 5#8) ∧
      (∀ d, s.flag .intFlag = true → s.cfg.irqDepth = some d →
        t.queue = s.queue ++ List.replicate (min m (d - s.queue.length)) 5#8)

/-! ### Return from an interrupt -/

/-- RTI: both words are popped, SLEEP is the stacked bit and the live one, every other bit of STATUS is the stacked one; a fault of
either read changes nothing but the queue (46_system.md R257). -/
def Obligations.RtiRestoresStatusAndIp : Prop :=
  ∀ s : State,
    WordOf .rti 0x00D0#16 ∧
    (RamRange s.cfg (s.get .sp) 8 →
      ∃ t, exec .rti s = .next t ∧ t.get .sp = s.get .sp + 8#32 ∧ t.get .ip = s.wordAt (s.get .sp + 4#32) ∧
        (∀ k, k ≠ 5 → (t.get .status).getLsbD k = (s.wordAt (s.get .sp)).getLsbD k) ∧
        (t.get .status).getLsbD 5 = ((s.wordAt (s.get .sp)).getLsbD 5 && (s.get .status).getLsbD 5) ∧
        RegFrame [.sp, .status, .ip] s t) ∧
    ∀ j, FirstUnmapped s.cfg (s.get .sp) 8 j → ∃ t, exec .rti s = .next t ∧ ReadFaulted s t

/-- A handler that is a lone RTI gives the interrupted code every register back but INS, STATUS and IP included
(60_exceptions.md R290): `u` is the state RTI runs in, with the memory and the registers the delivery left but for IP and INS. -/
def Obligations.RtiUndoesDelivery : Prop :=
  ∀ (s t u v : State) (n : IrqNum) (rest : List IrqNum), s.cfg.wf = true → s.nextCase = .deliver n rest →
    RamRange s.cfg (s.get .sp - 8#32) 8 → step s = .next t →
    KeepsRegs [.ip, .ins] t u → KeepsMem t u → u.cfg = t.cfg → exec .rti u = .next v →
    KeepsRegs [.ins] s v ∧ KeepsMemOutside (s.get .sp - 8#32) 8 s v ∧ (u.queue = t.queue → v.queue = rest)

/-! ### Reset -/

/-- The reset sequence, from any state: every register 0 but SP, the latches clear, one pending interrupt, memory and the configuration
untouched (70_reset_and_hazards.md R321). That the record of device writes stays too is the model's choice (log 6). -/
def Obligations.ResetSequence : Prop :=
  ∀ s : State, ∃ t, s.event .reset = .next t ∧
    (∀ r : Reg, t.get r = if r = .sp then s.cfg.stackStart else 0#32) ∧
    t.halted = false ∧ t.fatal = false ∧ t.queue = [0#8] ∧ t.mem = s.mem ∧ t.devWrites = s.devWrites ∧ t.cfg = s.cfg

/-- The state runs start from: the reset values of 10_state.md R48. Its configuration with SP at 0x2000, the empty memory that reads 0,
the empty record of device writes and the output bit `progress` are the model's choices (log 1, log 2, log 6, log 10). -/
def Obligations.ResetState : Prop :=
  (∀ r : Reg, State.reset.get r = if r = .sp then 0x2000#32 else 0#32) ∧
  State.reset.halted = false ∧ State.reset.fatal = false ∧ State.reset.queue = [0#8] ∧
  (∀ a : Word, State.reset.byteAt a = 0#8) ∧ State.reset.devWrites = [] ∧ State.reset.report = .progress ∧
  State.reset.cfg.wf = true ∧ State.reset.nextCase = .fetch

/-- The state after reset meets the invariant. -/
def Obligations.ResetMeetsInvariant : Prop := State.reset.Inv

/-- The pending reset interrupt: the first step after a reset is a fetch, and the step after the first instruction that leaves
INT_ENABLED at 1 delivers number 0 (70_reset_and_hazards.md R322). -/
def Obligations.PendingResetInterrupt : Prop :=
  (∀ s t : State, s.event .reset = .next t → t.nextCase = .fetch ∧ t.queue = [0#8]) ∧
  ∀ (i : Instr) (s t : State) (rest : List IrqNum), s.queue = 0#8 :: rest → exec i s = .next t →
    t.halted = false → t.flag .intEnabled = true → ∃ more, t.nextCase = .deliver 0#8 more

/-! ### Invariants and whole-machine rules -/

/-- Every step keeps the invariant: memory in canonical form and in RAM, the queue within its depth, FATAL only with HALTED and
STRICT, device records only of devices (10_state.md R43, R44, R46). -/
def Obligations.StepKeepsInvariant : Prop :=
  ∀ s t : State, s.Inv → step s = .next t → t.Inv

/-- The other inputs and the image load keep the invariant (70_reset_and_hazards.md R326, R327), and the load puts byte `k` of the image
at RAM address `k` and changes nothing else (R326). That bytes of the image outside RAM are dropped is the model's choice (log 13). -/
def Obligations.InputsKeepInvariant : Prop :=
  (∀ (s t : State) (e : Event), s.cfg.wf = true → s.Inv → e ≠ .step → s.event e = .next t → t.Inv) ∧
  ∀ (s : State) (image : List Byte),
    (s.Inv → (s.loadImage image).Inv) ∧
    KeepsRegs [] s (s.loadImage image) ∧ KeepsRest s (s.loadImage image) ∧
    (image.length ≤ 2 ^ 32 →
      (∀ (k : Nat) (b : Byte), image[k]? = some b → RamAt s.cfg (BitVec.ofNat 32 k) →
        (s.loadImage image).byteAt (BitVec.ofNat 32 k) = b) ∧
      ∀ a : Word, image.length ≤ a.toNat ∨ ¬RamAt s.cfg a → (s.loadImage image).byteAt a = s.byteAt a)

/-- No sequence of inputs changes the configuration (70_reset_and_hazards.md R325, 20_memory.md R68). -/
def Obligations.ConfigurationIsFixed : Prop :=
  ∀ (s t : State) (es : List Event), s.events es = .next t → t.cfg = s.cfg

/-- HALT alone sets HALTED, no instruction sets FATAL, and only HALT and SLEEP report idle (10_state.md R42, R43;
60_exceptions.md R287). -/
def Obligations.OnlyHaltHalts : Prop :=
  ∀ (i : Instr) (s t : State), exec i s = .next t →
    t.fatal = s.fatal ∧ (i ≠ .halt → t.halted = s.halted) ∧ (i ≠ .halt → i ≠ .sleep → t.report = s.report)

/-- The writers of STATUS among the instructions (10_state.md R35): the ALU instructions write NUMERICS only, SIE, CIE and SLEEP
their bit, RTI all of it; no other instruction changes it unless its destination field names it. -/
def Obligations.StatusWriters : Prop :=
  ∀ (i : Instr) (s t : State), exec i s = .next t → i.fieldDest ≠ some .status →
    (i.isAlu = true → KeepsStatusHigh s t) ∧
    (i = .sie ∨ i = .cie → ∀ k, k ≠ 4 → (t.get .status).getLsbD k = (s.get .status).getLsbD k) ∧
    (i = .sleep → ∀ k, k ≠ 5 → (t.get .status).getLsbD k = (s.get .status).getLsbD k) ∧
    (i.isAlu = false → i ∉ [.sie, .cie, .sleep, .rti] → t.get .status = s.get .status)

/-- An instruction appends at most one number to the queue and removes none: its fault's 5, or the number INT names
(10_state.md R44; 60_exceptions.md R286, R297). -/
def Obligations.InstructionRequestsAtMostOne : Prop :=
  ∀ (i : Instr) (s t : State), exec i s = .next t →
    t.queue = s.queue ∨ ∃ n, t.queue = s.queue ++ [n] ∧ (n = 5#8 ∨ i = .int n)

/-- A register from R1 to R9, or CS, that no field of the instruction names is neither read nor written: the instruction does the
same whatever it holds, and leaves it (10_state.md R41, 45_control.md R244). -/
def Obligations.UnnamedRegistersDoNotMatter : Prop :=
  ∀ (i : Instr) (s t : State) (r : Reg) (v : Word), r ∈ plainRegs → r ∉ i.regsNamed → exec i s = .next t →
    t.get r = s.get r ∧ exec i (s.set r v) = .next (t.set r v)

/-! ### Memory -/

/-- A word written to RAM at any address, across pages too, reads back; the opcode words at its address, one above and two above
are its bits 15:0, 23:8 and 31:16 (20_memory.md R62, R64, R65). -/
def Obligations.StoredWordReadsBack : Prop :=
  ∀ (s : State) (a v : Word), RamRange s.cfg a 4 →
    ∃ t, writeWord a v s = .ok () t ∧ readWord a t = .ok v t ∧
      readOpWord a t = .ok (v.extractLsb' 0 16) t ∧ readOpWord (a + 1#32) t = .ok (v.extractLsb' 8 16) t ∧
      readOpWord (a + 2#32) t = .ok (v.extractLsb' 16 16) t

/-- In a well-formed map the owner of an address is the one region that contains it, and addresses from
`PAGE_COUNT * PAGE_SIZE` on have none (20_memory.md R68 to R70). -/
def Obligations.OwnerContainsAddress : Prop :=
  ∀ (c : Config) (a : Word), c.wf = true →
    (∀ r, ownerOf c a = some r ↔ r ∈ c.map ∧ r.base ≤ a.toNat ∧ a.toNat < r.base + r.size) ∧
    (c.pageSize * c.pageCount ≤ a.toNat → Unmapped c a)

/-- The instructions that read memory complete on every mapped address, devices included, whatever these answer: no fault, no request,
and only the destinations change (20_memory.md R73, R74). The bytes of a word that lie in RAM below the first device byte are the bytes
held there, and so are those above it when no device reads short (R75). That what devices answer is a free value is log 3, and when
they read short log 4. -/
def Obligations.MappedReadsComplete : Prop :=
  ∀ (s : State) (rd ro : Reg) (cc : Cond) (lit : Word),
    (s.cond cc = true → MappedRange s.cfg (s.operandV lit ro) 4 →
      ∃ v k, exec (.load rd cc ro lit) s = .next ((s.useFree k).set rd v) ∧ ReadFrom s (s.operandV lit ro) v) ∧
    (MappedRange s.cfg (s.get .sp) 4 →
      ∃ v k, exec (.pop rd) s = .next (((s.useFree k).set .sp (s.get .sp + 4#32)).set rd v) ∧ ReadFrom s (s.get .sp) v) ∧
    (MappedRange s.cfg (s.get .sp) 4 →
      ∃ v k, exec .ret s = .next (((s.useFree k).set .sp (s.get .sp + 4#32)).set .ip v) ∧ ReadFrom s (s.get .sp) v) ∧
    (MappedRange s.cfg (s.get .sp) 8 →
      ∃ v p k, exec .rti s =
        .next ((((s.useFree k).set .sp (s.get .sp + 8#32)).set .status (rtiStatus v (s.get .status))).set .ip p) ∧
        ReadFrom s (s.get .sp) v ∧ ReadFrom s (s.get .sp + 4#32) p)

/-- The instructions that write memory complete on every mapped address, devices included: there is a first byte that a device refused,
or none, such that every byte below it is written to RAM or taken by its device, no byte from it on is, and each run of device bytes up
to it is one call (20_memory.md R71 to R76). That the calls stand on record is log 6, and when a device refuses log 4. -/
def Obligations.MappedWritesComplete : Prop :=
  ∀ (s : State) (r ro : Reg) (cc : Cond) (lit : Word),
    (s.cond cc = true → MappedRange s.cfg (s.operandV lit ro) 4 →
      ∃ t, exec (.store r cc ro lit) s = .next t ∧ OfferedWord (s.operandV lit ro) (s.get r) s t ∧ KeepsRegs [] s t) ∧
    (MappedRange s.cfg (s.get .sp - 4#32) 4 →
      ∃ t, exec (.push r) s = .next t ∧ OfferedWord (s.get .sp - 4#32) (s.get r) s t ∧
        t.get .sp = s.get .sp - 4#32 ∧ KeepsRegs [.sp] s t) ∧
    (s.cond cc = true → MappedRange s.cfg (s.get .sp - 4#32) 4 →
      ∃ t, exec (.call cc ro lit) s = .next t ∧ OfferedWord (s.get .sp - 4#32) (s.get .ip) s t ∧
        t.get .sp = s.get .sp - 4#32 ∧ t.get .ip = s.operandV lit ro ∧ KeepsRegs [.sp, .ip] s t)

/-! ### Operands -/

/-- The condition: `cc` is 0 or some selected flag is 1 (10_state.md R37). -/
def Obligations.ConditionIsAnySelectedFlag : Prop :=
  ∀ (s : State) (cc : Cond), s.cond cc = true ↔
    cc = 0#4 ∨ (cc.getLsbD 0 = true ∧ s.flag .zero = true) ∨ (cc.getLsbD 1 = true ∧ s.flag .negative = true) ∨
    (cc.getLsbD 2 = true ∧ s.flag .carry = true) ∨ (cc.getLsbD 3 = true ∧ s.flag .error = true)

/-- The operand value is the literal plus the offset register, with INS read as 0 (30_encoding.md R121), and a false condition
leaves the whole state as the fetch left it (R122). -/
def Obligations.OperandValueAndFalseCondition : Prop :=
  ∀ (s : State) (rd ro : Reg) (cc : Cond) (lit : Word),
    s.operandV lit .ins = lit ∧ (ro ≠ .ins → s.operandV lit ro = lit + s.get ro) ∧
    (s.cond cc = false →
      exec (.load rd cc ro lit) s = .next s ∧ exec (.store rd cc ro lit) s = .next s ∧
      exec (.loadl rd cc ro lit) s = .next s ∧ exec (.inc rd cc ro lit) s = .next s ∧
      exec (.dec rd cc ro lit) s = .next s ∧ exec (.call cc ro lit) s = .next s)

/-! ### Integer instructions -/

/-- CMPI and CMPU: the operands are read through the zero sentinel, compared as signed or as unsigned integers (40_arith_int.md
R143, R149). -/
def Obligations.IntegerCompares : Prop :=
  ∀ (s : State) (ra rb : Reg),
    WordOf (.cmpi ra rb) (0x0002#16 ||| (ra.field.setWidth 16 <<< 8) ||| (rb.field.setWidth 16 <<< 12)) ∧
    WordOf (.cmpu ra rb) (0x0003#16 ||| (ra.field.setWidth 16 <<< 8) ||| (rb.field.setWidth 16 <<< 12)) ∧
    (∃ t, exec (.cmpi ra rb) s = .next t ∧ FlagFrame s t ∧
      NumsAre t ((s.regz ra).toInt = (s.regz rb).toInt) ((s.regz ra).toInt < (s.regz rb).toInt) False False) ∧
    (∃ t, exec (.cmpu ra rb) s = .next t ∧ FlagFrame s t ∧
      NumsAre t ((s.regz ra).toNat = (s.regz rb).toNat) False ((s.regz ra).toNat < (s.regz rb).toNat) False)

/-- ADDI and ADDU are one operation: the sum modulo 2^32, CARRY by the three sign bits, ERROR on signed overflow (40_arith_int.md
R141, R144, R150, R155). CARRY is the function of decision D28 (log 9). -/
def Obligations.AddResult : Prop :=
  ∀ (s : State) (ra : Reg),
    WordOf (.addi ra) (0x0012#16 ||| (ra.field.setWidth 16 <<< 8)) ∧
    WordOf (.addu ra) (0x0013#16 ||| (ra.field.setWidth 16 <<< 8)) ∧
    exec (.addu ra) s = exec (.addi ra) s ∧
    ∃ t, exec (.addi ra) s = .next t ∧
      AluResult s t (s.get .accum + s.get ra) (s.get .accum + s.get ra = 0#32)
        ((s.get .accum + s.get ra).msb = true)
        (((s.get .accum).msb = true ∨ (s.get ra).msb = true) ∧ (s.get .accum + s.get ra).msb = false)
        ((s.get .accum).toInt + (s.get ra).toInt < -2 ^ 31 ∨ 2 ^ 31 ≤ (s.get .accum).toInt + (s.get ra).toInt)

/-- SUBI and SUBU are one operation: the difference modulo 2^32, CARRY by the three sign bits, ERROR on signed overflow of the
difference (40_arith_int.md R142, R145, R151, R155). CARRY is the function of decision D28 (log 9). -/
def Obligations.SubResult : Prop :=
  ∀ (s : State) (ra : Reg),
    WordOf (.subi ra) (0x0022#16 ||| (ra.field.setWidth 16 <<< 8)) ∧
    WordOf (.subu ra) (0x0023#16 ||| (ra.field.setWidth 16 <<< 8)) ∧
    exec (.subu ra) s = exec (.subi ra) s ∧
    ∃ t, exec (.subi ra) s = .next t ∧
      AluResult s t (s.get .accum - s.get ra) (s.get .accum = s.get ra)
        ((s.get .accum - s.get ra).msb = true)
        (((s.get .accum).msb = false ∨ (s.get ra).msb = true) ∧ (s.get .accum - s.get ra).msb = true)
        ((s.get .accum).toInt - (s.get ra).toInt < -2 ^ 31 ∨ 2 ^ 31 ≤ (s.get .accum).toInt - (s.get ra).toInt)

/-- MULI and MULU: the low 32 bits of the exact product, ERROR when it does not fit the type, NEGATIVE from the exact product or
from bit 31 (40_arith_int.md R146, R152). -/
def Obligations.MulResult : Prop :=
  ∀ (s : State) (ra : Reg),
    WordOf (.muli ra) (0x0032#16 ||| (ra.field.setWidth 16 <<< 8)) ∧
    WordOf (.mulu ra) (0x0033#16 ||| (ra.field.setWidth 16 <<< 8)) ∧
    (∃ (t : State) (r : Word), exec (.muli ra) s = .next t ∧
      (r.toNat : ℤ) = ((s.get .accum).toInt * (s.get ra).toInt) % 2 ^ 32 ∧
      AluResult s t r (r = 0#32) ((s.get .accum).toInt * (s.get ra).toInt < 0) False
        ((s.get .accum).toInt * (s.get ra).toInt > 2 ^ 31 - 1 ∨ (s.get .accum).toInt * (s.get ra).toInt < -2 ^ 31)) ∧
    (∃ (t : State) (r : Word), exec (.mulu ra) s = .next t ∧
      r.toNat = ((s.get .accum).toNat * (s.get ra).toNat) % 2 ^ 32 ∧
      AluResult s t r (r = 0#32) (r.msb = true) False ((s.get .accum).toNat * (s.get ra).toNat > 2 ^ 32 - 1))

/-- DIVI and MODI: a zero divisor writes no ACCUM and sets ERROR alone; otherwise `s(a) = q * s(b) + m` with `|m| < |s(b)|` and `m`
of the sign of the dividend (40_arith_int.md R147, R148, R156). -/
def Obligations.SignedDivision : Prop :=
  ∀ (s : State) (ra : Reg),
    WordOf (.divi ra) (0x0042#16 ||| (ra.field.setWidth 16 <<< 8)) ∧
    WordOf (.modi ra) (0x0052#16 ||| (ra.field.setWidth 16 <<< 8)) ∧
    (s.get ra = 0#32 →
      ∃ t, exec (.divi ra) s = .next t ∧ exec (.modi ra) s = .next t ∧ FlagFrame s t ∧ NumsAre t False False False True) ∧
    (s.get ra ≠ 0#32 →
      ∃ q m : ℤ, (s.get .accum).toInt = q * (s.get ra).toInt + m ∧ |m| < |(s.get ra).toInt| ∧
        (m ≠ 0 → (0 < m ↔ 0 < (s.get .accum).toInt)) ∧
        (∃ t, exec (.divi ra) s = .next t ∧
          AluResult s t (BitVec.ofInt 32 q) (BitVec.ofInt 32 q = 0#32) ((BitVec.ofInt 32 q).msb = true) False (q = 2 ^ 31)) ∧
        (∃ t, exec (.modi ra) s = .next t ∧
          AluResult s t (BitVec.ofInt 32 m) (m = 0) ((BitVec.ofInt 32 m).msb = true) False False))

/-- DIVU and MODU: a zero divisor writes no ACCUM and sets ERROR alone; otherwise `u(a) = q * u(b) + m` with `m < u(b)`
(40_arith_int.md R153, R154). -/
def Obligations.UnsignedDivision : Prop :=
  ∀ (s : State) (ra : Reg),
    WordOf (.divu ra) (0x0043#16 ||| (ra.field.setWidth 16 <<< 8)) ∧
    WordOf (.modu ra) (0x0053#16 ||| (ra.field.setWidth 16 <<< 8)) ∧
    (s.get ra = 0#32 →
      ∃ t, exec (.divu ra) s = .next t ∧ exec (.modu ra) s = .next t ∧ FlagFrame s t ∧ NumsAre t False False False True) ∧
    (s.get ra ≠ 0#32 →
      ∃ q m : Word, (s.get .accum).toNat = q.toNat * (s.get ra).toNat + m.toNat ∧ m.toNat < (s.get ra).toNat ∧
        (∃ t, exec (.divu ra) s = .next t ∧ AluResult s t q (q = 0#32) (q.msb = true) False False) ∧
        (∃ t, exec (.modu ra) s = .next t ∧ AluResult s t m (m = 0#32) (m.msb = true) False False))

/-! ### Float instructions -/

/-- The rounding the model uses is the one rounding of 41_arith_float.md R170: to nearest, ties to even, gradual underflow, an
infinity of the right sign on overflow, and the sign asked for. -/
def Obligations.RoundingIsNearestEven : Prop :=
  ∀ (neg : Bool) (num den : Nat), 0 < den →
    RoundsTo (((if neg then -1 else 1) * (num : ℚ)) / den / 2 ^ 149) (f32Round neg num den) ∧
    (f32Round neg num den).msb = neg

/-- CMPF: through the zero sentinel, by the order of the numbers with the infinities at the ends and the zeros equal; two NaNs are
equal, and any NaN sets ERROR (41_arith_float.md R173). -/
def Obligations.FloatCompare : Prop :=
  ∀ (s : State) (ra rb : Reg),
    WordOf (.cmpf ra rb) (0x0004#16 ||| (ra.field.setWidth 16 <<< 8) ||| (rb.field.setWidth 16 <<< 12)) ∧
    ∃ t, exec (.cmpf ra rb) s = .next t ∧ FlagFrame s t ∧
      NumsAre t (f32Ext (f32OfBits (s.regz ra)) = f32Ext (f32OfBits (s.regz rb)))
        (∃ x y, f32Ext (f32OfBits (s.regz ra)) = some x ∧ f32Ext (f32OfBits (s.regz rb)) = some y ∧ x < y) False
        (f32OfBits (s.regz ra) = .nan ∨ f32OfBits (s.regz rb) = .nan)

/-- ADDF: the exact sum rounded once; NaN for a NaN operand and for infinities of opposite sign; a zero sum is +0 unless both
operands are -0 (41_arith_float.md R170 to R172, R174). -/
def Obligations.FloatAdd : Prop :=
  ∀ (s : State) (ra : Reg),
    WordOf (.addf ra) (0x0014#16 ||| (ra.field.setWidth 16 <<< 8)) ∧
    ∃ t, exec (.addf ra) s = .next t ∧ AluFrame s t ∧ FloatFlags (s.get .accum) (s.get ra) t ∧
      (f32OfBits (s.get .accum) = .nan ∨ f32OfBits (s.get ra) = .nan ∨
          (∃ p, f32OfBits (s.get .accum) = .inf p ∧ f32OfBits (s.get ra) = .inf (!p)) → t.get .accum = s.cfg.canonNan) ∧
      (∀ p, f32OfBits (s.get .accum) = .inf p → (f32OfBits (s.get ra) = .inf p ∨ ∃ q n, f32OfBits (s.get ra) = .fin q n) →
        f32OfBits (t.get .accum) = .inf p) ∧
      (∀ p q m, f32OfBits (s.get .accum) = .fin q m → f32OfBits (s.get ra) = .inf p → f32OfBits (t.get .accum) = .inf p) ∧
      (∀ p m q n, f32OfBits (s.get .accum) = .fin p m → f32OfBits (s.get ra) = .fin q n →
        RoundsTo (f32Rat p m + f32Rat q n) (t.get .accum) ∧
        (f32Rat p m + f32Rat q n = 0 → f32OfBits (t.get .accum) = .fin (p && q) 0))

/-- SUBF: the exact difference rounded once, with the cases of a sum with the second sign flipped (41_arith_float.md R170 to R172,
R175). -/
def Obligations.FloatSub : Prop :=
  ∀ (s : State) (ra : Reg),
    WordOf (.subf ra) (0x0024#16 ||| (ra.field.setWidth 16 <<< 8)) ∧
    ∃ t, exec (.subf ra) s = .next t ∧ AluFrame s t ∧ FloatFlags (s.get .accum) (s.get ra) t ∧
      (f32OfBits (s.get .accum) = .nan ∨ f32OfBits (s.get ra) = .nan ∨
          (∃ p, f32OfBits (s.get .accum) = .inf p ∧ f32OfBits (s.get ra) = .inf p) → t.get .accum = s.cfg.canonNan) ∧
      (∀ p, f32OfBits (s.get .accum) = .inf p →
        (f32OfBits (s.get ra) = .inf (!p) ∨ ∃ q n, f32OfBits (s.get ra) = .fin q n) → f32OfBits (t.get .accum) = .inf p) ∧
      (∀ p q m, f32OfBits (s.get .accum) = .fin q m → f32OfBits (s.get ra) = .inf p → f32OfBits (t.get .accum) = .inf (!p)) ∧
      (∀ p m q n, f32OfBits (s.get .accum) = .fin p m → f32OfBits (s.get ra) = .fin q n →
        RoundsTo (f32Rat p m - f32Rat q n) (t.get .accum) ∧
        (f32Rat p m - f32Rat q n = 0 → f32OfBits (t.get .accum) = .fin (p && !q) 0))

/-- MULF: the exact product rounded once, its sign the exclusive-or of the operand signs; NaN for a NaN operand and for zero times
infinity (41_arith_float.md R170 to R172, R176). -/
def Obligations.FloatMul : Prop :=
  ∀ (s : State) (ra : Reg),
    WordOf (.mulf ra) (0x0034#16 ||| (ra.field.setWidth 16 <<< 8)) ∧
    ∃ t, exec (.mulf ra) s = .next t ∧ AluFrame s t ∧ FloatFlags (s.get .accum) (s.get ra) t ∧
      (f32OfBits (s.get .accum) = .nan ∨ f32OfBits (s.get ra) = .nan ∨
          (∃ p q, f32OfBits (s.get .accum) = .inf p ∧ f32OfBits (s.get ra) = .fin q 0) ∨
          (∃ p q, f32OfBits (s.get .accum) = .fin p 0 ∧ f32OfBits (s.get ra) = .inf q) → t.get .accum = s.cfg.canonNan) ∧
      (∀ p q, f32OfBits (s.get .accum) = .inf p →
        (f32OfBits (s.get ra) = .inf q ∨ ∃ n, n ≠ 0 ∧ f32OfBits (s.get ra) = .fin q n) →
        f32OfBits (t.get .accum) = .inf (p ^^ q)) ∧
      (∀ p q m, f32OfBits (s.get .accum) = .fin p m → m ≠ 0 → f32OfBits (s.get ra) = .inf q →
        f32OfBits (t.get .accum) = .inf (p ^^ q)) ∧
      (∀ p m q n, f32OfBits (s.get .accum) = .fin p m → f32OfBits (s.get ra) = .fin q n →
        RoundsTo (f32Rat p m * f32Rat q n) (t.get .accum) ∧ (t.get .accum).msb = (p ^^ q))

/-- DIVF: the exact quotient rounded once, its sign the exclusive-or of the operand signs; a nonzero number by zero is an infinity, by
an infinity a zero; NaN for a NaN operand, zero by zero and infinity by infinity (41_arith_float.md R170 to R172, R177). -/
def Obligations.FloatDiv : Prop :=
  ∀ (s : State) (ra : Reg),
    WordOf (.divf ra) (0x0044#16 ||| (ra.field.setWidth 16 <<< 8)) ∧
    ∃ t, exec (.divf ra) s = .next t ∧ AluFrame s t ∧ FloatFlags (s.get .accum) (s.get ra) t ∧
      (f32OfBits (s.get .accum) = .nan ∨ f32OfBits (s.get ra) = .nan ∨
          (∃ p q, f32OfBits (s.get .accum) = .inf p ∧ f32OfBits (s.get ra) = .inf q) ∨
          (∃ p q, f32OfBits (s.get .accum) = .fin p 0 ∧ f32OfBits (s.get ra) = .fin q 0) → t.get .accum = s.cfg.canonNan) ∧
      (∀ p q n, f32OfBits (s.get .accum) = .inf p → f32OfBits (s.get ra) = .fin q n →
        f32OfBits (t.get .accum) = .inf (p ^^ q)) ∧
      (∀ p q m, f32OfBits (s.get .accum) = .fin p m → m ≠ 0 → f32OfBits (s.get ra) = .fin q 0 →
        f32OfBits (t.get .accum) = .inf (p ^^ q)) ∧
      (∀ p q m, f32OfBits (s.get .accum) = .fin p m → f32OfBits (s.get ra) = .inf q →
        f32OfBits (t.get .accum) = .fin (p ^^ q) 0) ∧
      (∀ p m q n, f32OfBits (s.get .accum) = .fin p m → f32OfBits (s.get ra) = .fin q n → n ≠ 0 →
        RoundsTo (f32Rat p m / f32Rat q n) (t.get .accum) ∧ (t.get .accum).msb = (p ^^ q))

/-- MODF: the truncating remainder, exact and of the sign of the dividend; a finite number by an infinity is itself; NaN for a NaN
operand, an infinite dividend and a zero divisor (41_arith_float.md R171, R172, R178). -/
def Obligations.FloatRemainder : Prop :=
  ∀ (s : State) (ra : Reg),
    WordOf (.modf ra) (0x0054#16 ||| (ra.field.setWidth 16 <<< 8)) ∧
    ∃ t, exec (.modf ra) s = .next t ∧ AluFrame s t ∧ FloatFlags (s.get .accum) (s.get ra) t ∧
      (f32OfBits (s.get .accum) = .nan ∨ f32OfBits (s.get ra) = .nan ∨ (∃ p, f32OfBits (s.get .accum) = .inf p) ∨
          (∃ q, f32OfBits (s.get ra) = .fin q 0) → t.get .accum = s.cfg.canonNan) ∧
      (∀ p m q, f32OfBits (s.get .accum) = .fin p m → f32OfBits (s.get ra) = .inf q → t.get .accum = s.get .accum) ∧
      (∀ p m q n, f32OfBits (s.get .accum) = .fin p m → f32OfBits (s.get ra) = .fin q n → n ≠ 0 →
        ∃ k, f32OfBits (t.get .accum) = .fin p k ∧
          f32Rat p k = f32Rat p m - f32Rat q n * ratTrunc (f32Rat p m / f32Rat q n))

/-! ### Bitwise and shift instructions -/

/-- NOT, OR, XOR, AND, bit by bit, and their flags (42_bitwise_shift.md R190 to R194). -/
def Obligations.BitwiseResults : Prop :=
  ∀ (s : State) (ra : Reg),
    WordOf (.not ra) (0x0010#16 ||| (ra.field.setWidth 16 <<< 8)) ∧
    WordOf (.or ra) (0x0020#16 ||| (ra.field.setWidth 16 <<< 8)) ∧
    WordOf (.xor ra) (0x0030#16 ||| (ra.field.setWidth 16 <<< 8)) ∧
    WordOf (.and ra) (0x0040#16 ||| (ra.field.setWidth 16 <<< 8)) ∧
    (∃ (t : State) (r : Word), exec (.not ra) s = .next t ∧ AluResult s t r (r = 0#32) (r.getLsbD 31 = true) False False ∧
      ∀ k, k < 32 → r.getLsbD k = !(s.get ra).getLsbD k) ∧
    (∃ (t : State) (r : Word), exec (.or ra) s = .next t ∧ AluResult s t r (r = 0#32) (r.getLsbD 31 = true) False False ∧
      ∀ k, k < 32 → r.getLsbD k = ((s.get .accum).getLsbD k || (s.get ra).getLsbD k)) ∧
    (∃ (t : State) (r : Word), exec (.xor ra) s = .next t ∧ AluResult s t r (r = 0#32) (r.getLsbD 31 = true) False False ∧
      ∀ k, k < 32 → r.getLsbD k = ((s.get .accum).getLsbD k ^^ (s.get ra).getLsbD k)) ∧
    (∃ (t : State) (r : Word), exec (.and ra) s = .next t ∧ AluResult s t r (r = 0#32) (r.getLsbD 31 = true) False False ∧
      ∀ k, k < 32 → r.getLsbD k = ((s.get .accum).getLsbD k && (s.get ra).getLsbD k))

/-- BSL, bit by bit: ACCUM takes the shifted bits with the carry-in below, the carry register the bits shifted out at its low end,
CARRY the last of them. A carry register that is ACCUM holds the result. One that is STATUS keeps the carry-out in bits 31:4, under the flags
written last (log 19). (42_bitwise_shift.md R195) -/
def Obligations.ShiftLeftResult : Prop :=
  ∀ (s : State) (rn rk : Reg) (n : Nat), n = (s.get rn).toNat % 32 →
    WordOf (.bsl rn rk) (0x0050#16 ||| (rn.field.setWidth 16 <<< 8) ||| (rk.field.setWidth 16 <<< 12)) ∧
    ∃ t, exec (.bsl rn rk) s = .next t ∧
      (∀ k, k < 32 → (t.get .accum).getLsbD k =
        if k < n then (s.regz rk).getLsbD k else (s.get .accum).getLsbD (k - n)) ∧
      (∀ k, (rk ≠ .status ∨ 4 ≤ k) → rk ≠ .accum →
        (t.get rk).getLsbD k = (decide (k < n) && (s.get .accum).getLsbD (32 - n + k))) ∧
      NumsAre t (t.get .accum = 0#32) ((t.get .accum).getLsbD 31 = true)
        (n ≠ 0 ∧ (s.get .accum).getLsbD (32 - n) = true) False ∧
      KeepsRegs [.accum, .status, rk] s t ∧ (rk ≠ .status → KeepsStatusHigh s t) ∧ KeepsMem s t ∧ KeepsRest s t

/-- BSR, bit by bit: ACCUM takes the shifted bits with the top of the carry-in above, the carry register the bits shifted out at its
high end, CARRY the last of them; ACCUM and STATUS as carry register as for BSL (log 19). (42_bitwise_shift.md R196) -/
def Obligations.ShiftRightResult : Prop :=
  ∀ (s : State) (rn rk : Reg) (n : Nat), n = (s.get rn).toNat % 32 →
    WordOf (.bsr rn rk) (0x0060#16 ||| (rn.field.setWidth 16 <<< 8) ||| (rk.field.setWidth 16 <<< 12)) ∧
    ∃ t, exec (.bsr rn rk) s = .next t ∧
      (∀ k, k < 32 → (t.get .accum).getLsbD k =
        if 32 - n ≤ k then (s.regz rk).getLsbD k else (s.get .accum).getLsbD (k + n)) ∧
      (∀ k, (rk ≠ .status ∨ 4 ≤ k) → rk ≠ .accum → k < 32 →
        (t.get rk).getLsbD k = (decide (32 - n ≤ k) && (s.get .accum).getLsbD (k - (32 - n)))) ∧
      NumsAre t (t.get .accum = 0#32) ((t.get .accum).getLsbD 31 = true)
        (n ≠ 0 ∧ (s.get .accum).getLsbD (n - 1) = true) False ∧
      KeepsRegs [.accum, .status, rk] s t ∧ (rk ≠ .status → KeepsStatusHigh s t) ∧ KeepsMem s t ∧ KeepsRest s t

/-- Chained shifts with one carry register are the shift of the longer word: low word first to the left, high word first to the right
(42_bitwise_shift.md R197). -/
def Obligations.ShiftsChain : Prop :=
  ∀ (s t u v : State) (rn rk : Reg), rk ∉ [.accum, .status, .ins] → s.get rk = 0#32 →
    u.get rk = t.get rk → u.get rn = s.get rn →
    (exec (.bsl rn rk) s = .next t → exec (.bsl rn rk) u = .next v →
      (v.get .accum ++ t.get .accum) = (u.get .accum ++ s.get .accum) <<< ((s.get rn).toNat % 32)) ∧
    (exec (.bsr rn rk) s = .next t → exec (.bsr rn rk) u = .next v →
      (t.get .accum ++ v.get .accum) = (s.get .accum ++ u.get .accum) >>> ((s.get rn).toNat % 32))

/-! ### Transfers, stack, control, system -/

/-- MOV, and LOADL, INC, DEC with a true condition: the one register written, STATUS and IP included, and nothing else; with a false
one nothing at all (43_load_store.md R213 to R216). -/
def Obligations.RegisterTransfers : Prop :=
  ∀ (s : State) (rd rs ro : Reg) (cc : Cond) (lit : Word),
    WordOf (.mov rd rs) (0x0008#16 ||| (rd.field.setWidth 16 <<< 4) ||| (rs.field.setWidth 16 <<< 8)) ∧
    BytesOf (.loadl rd cc ro lit)
      (0x000A#16 ||| (rd.field.setWidth 16 <<< 4) ||| (cc.setWidth 16 <<< 8) ||| (ro.field.setWidth 16 <<< 12)) lit ∧
    BytesOf (.inc rd cc ro lit)
      (0x0001#16 ||| (rd.field.setWidth 16 <<< 4) ||| (cc.setWidth 16 <<< 8) ||| (ro.field.setWidth 16 <<< 12)) lit ∧
    BytesOf (.dec rd cc ro lit)
      (0x0009#16 ||| (rd.field.setWidth 16 <<< 4) ||| (cc.setWidth 16 <<< 8) ||| (ro.field.setWidth 16 <<< 12)) lit ∧
    (∃ t, exec (.mov rd rs) s = .next t ∧ t.get rd = s.get rs ∧ RegFrame [rd] s t) ∧
    (s.cond cc = true →
      (∃ t, exec (.loadl rd cc ro lit) s = .next t ∧ t.get rd = s.operandV lit ro ∧ RegFrame [rd] s t) ∧
      (∃ t, exec (.inc rd cc ro lit) s = .next t ∧ t.get rd = s.get rd + s.operandV lit ro ∧ RegFrame [rd] s t) ∧
      (∃ t, exec (.dec rd cc ro lit) s = .next t ∧ t.get rd = s.get rd - s.operandV lit ro ∧ RegFrame [rd] s t)) ∧
    (s.cond cc = false →
      exec (.loadl rd cc ro lit) s = .next s ∧ exec (.inc rd cc ro lit) s = .next s ∧ exec (.dec rd cc ro lit) s = .next s)

/-- LOAD with a true condition: the word at the operand value, or a fault that changes nothing but the queue (43_load_store.md
R211). -/
def Obligations.LoadResult : Prop :=
  ∀ (s : State) (rd ro : Reg) (cc : Cond) (lit : Word),
    BytesOf (.load rd cc ro lit)
      (0x0005#16 ||| (rd.field.setWidth 16 <<< 4) ||| (cc.setWidth 16 <<< 8) ||| (ro.field.setWidth 16 <<< 12)) lit ∧
    (s.cond cc = true →
      (RamRange s.cfg (s.operandV lit ro) 4 →
        ∃ t, exec (.load rd cc ro lit) s = .next t ∧ t.get rd = s.wordAt (s.operandV lit ro) ∧ RegFrame [rd] s t) ∧
      ∀ j, FirstUnmapped s.cfg (s.operandV lit ro) 4 j →
        ∃ t, exec (.load rd cc ro lit) s = .next t ∧ ReadFaulted s t)

/-- STORE with a true condition: the register's four bytes at the operand value, or a fault that leaves the bytes below the unmapped
one written (43_load_store.md R212, 20_memory.md R76). -/
def Obligations.StoreResult : Prop :=
  ∀ (s : State) (rd ro : Reg) (cc : Cond) (lit : Word),
    BytesOf (.store rd cc ro lit)
      (0x000D#16 ||| (rd.field.setWidth 16 <<< 4) ||| (cc.setWidth 16 <<< 8) ||| (ro.field.setWidth 16 <<< 12)) lit ∧
    (s.cond cc = true →
      (RamRange s.cfg (s.operandV lit ro) 4 →
        ∃ t, exec (.store rd cc ro lit) s = .next t ∧ StoreFrame [] (s.operandV lit ro) (s.get rd) s t) ∧
      ∀ j, FirstUnmapped s.cfg (s.operandV lit ro) 4 j →
        ∃ t, exec (.store rd cc ro lit) s = .next t ∧ WriteFaulted (s.operandV lit ro) (s.get rd) j s t)

/-- PUSH: the old value of the register at the slot below SP, then SP; a fault leaves SP alone (44_stack.md R230). -/
def Obligations.PushResult : Prop :=
  ∀ (s : State) (rs : Reg),
    WordOf (.push rs) (0x000E#16 ||| (rs.field.setWidth 16 <<< 4)) ∧
    (RamRange s.cfg (s.get .sp - 4#32) 4 →
      ∃ t, exec (.push rs) s = .next t ∧ t.get .sp = s.get .sp - 4#32 ∧
        StoreFrame [.sp] (s.get .sp - 4#32) (s.get rs) s t) ∧
    ∀ j, FirstUnmapped s.cfg (s.get .sp - 4#32) 4 j →
      ∃ t, exec (.push rs) s = .next t ∧ WriteFaulted (s.get .sp - 4#32) (s.get rs) j s t

/-- POP and RET: the word at SP into the register, written after SP, or into IP; a fault changes nothing but the queue (44_stack.md
R231, 45_control.md R241). -/
def Obligations.PopAndRetResult : Prop :=
  ∀ (s : State) (rd : Reg),
    WordOf (.pop rd) (0x0006#16 ||| (rd.field.setWidth 16 <<< 4)) ∧ WordOf .ret 0x00C0#16 ∧
    exec .ret s = exec (.pop .ip) s ∧
    (RamRange s.cfg (s.get .sp) 4 →
      ∃ t, exec (.pop rd) s = .next t ∧ t.get rd = s.wordAt (s.get .sp) ∧
        (rd ≠ .sp → t.get .sp = s.get .sp + 4#32) ∧ RegFrame [.sp, rd] s t) ∧
    ∀ j, FirstUnmapped s.cfg (s.get .sp) 4 j → ∃ t, exec (.pop rd) s = .next t ∧ ReadFaulted s t

/-- CALL with a true condition: the return address is pushed and IP is the operand value of before the push; a fault leaves SP and IP
alone (45_control.md R240). -/
def Obligations.CallResult : Prop :=
  ∀ (s : State) (ro : Reg) (cc : Cond) (lit : Word),
    BytesOf (.call cc ro lit) (0x0007#16 ||| (cc.setWidth 16 <<< 8) ||| (ro.field.setWidth 16 <<< 12)) lit ∧
    (s.cond cc = true →
      (RamRange s.cfg (s.get .sp - 4#32) 4 →
        ∃ t, exec (.call cc ro lit) s = .next t ∧ t.get .sp = s.get .sp - 4#32 ∧ t.get .ip = s.operandV lit ro ∧
          StoreFrame [.sp, .ip] (s.get .sp - 4#32) (s.get .ip) s t) ∧
      ∀ j, FirstUnmapped s.cfg (s.get .sp - 4#32) 4 j →
        ∃ t, exec (.call cc ro lit) s = .next t ∧ WriteFaulted (s.get .sp - 4#32) (s.get .ip) j s t)

/-- NOP changes nothing after its fetch: a step on a word whose low byte is 0 leaves the word in INS, IP two bytes on, and every
other thing as it was (45_control.md R242). -/
def Obligations.NopDoesNothing : Prop :=
  WordOf .nop 0x0000#16 ∧ (∀ s : State, exec .nop s = .next s) ∧
  ∀ (s : State) (w : OpWord), s.cfg.wf = true → s.nextCase = .fetch → RamRange s.cfg (s.get .ip) 2 →
    w = leOpWord (s.bytesAt (s.get .ip) 2) → w &&& 0x00FF#16 = 0x0000#16 →
    step s = .next (((s.reporting .progress).set .ins (w.setWidth 32)).set .ip (s.get .ip + 2#32))

/-- HALT, SLEEP, SIE and CIE: one latch or one bit each, and the idle report of the first two (46_system.md R251 to R254). -/
def Obligations.SystemBits : Prop :=
  WordOf .halt 0x0080#16 ∧ WordOf .sleep 0x0090#16 ∧ WordOf .sie 0x00A0#16 ∧ WordOf .cie 0x00B0#16 ∧
  ∀ s : State,
    (∃ t, exec .halt s = .next t ∧ t.halted = true ∧ t.report = .idle ∧ KeepsRegs [] s t ∧ KeepsMem s t ∧
      t.cfg = s.cfg ∧ t.fatal = s.fatal ∧ t.queue = s.queue ∧ t.devWrites = s.devWrites) ∧
    (∃ t, exec .sleep s = .next t ∧
      (∀ k, (t.get .status).getLsbD k = (decide (k = 5) || (s.get .status).getLsbD k)) ∧ t.report = .idle ∧
      KeepsRegs [.status] s t ∧ KeepsMem s t ∧ KeepsLatches s t ∧ t.queue = s.queue) ∧
    (∃ t, exec .sie s = .next t ∧
      (∀ k, (t.get .status).getLsbD k = (decide (k = 4) || (s.get .status).getLsbD k)) ∧ RegFrame [.status] s t) ∧
    (∃ t, exec .cie s = .next t ∧
      (∀ k, (t.get .status).getLsbD k = (!decide (k = 4) && (s.get .status).getLsbD k)) ∧ RegFrame [.status] s t)
end

