-- ==== Sys2Proof/Laws/State.lean ====
section
/-! SUPPORT. One small lemma per field per update of State, and the bits of a STATUS word after each flag write. -/

namespace Sys2Proof

theorem Reg.index_injective {r q : Reg} (h : r.index = q.index) : r = q := by
  cases r <;> cases q <;> first | rfl | exact absurd h (by decide)

@[simp] theorem Reg.index_eq_iff {r q : Reg} : r.index = q.index ↔ r = q :=
  ⟨Reg.index_injective, fun h => by rw [h]⟩

end Sys2Proof

namespace Sys2Proof.Machine

/-! ### Register writes -/

theorem State.get_set (s : State) (r q : Reg) (v : Word) : (s.set r v).get q = if q = r then v else s.get q := by
  by_cases h : q = r
  · subst h; simp [State.get, State.set, Vector.get_eq_getElem]
  · have hne : r.index.val ≠ q.index.val := fun e => h (Reg.index_injective (Fin.ext e.symm))
    simp [State.get, State.set, Vector.get_eq_getElem, hne, h]

@[simp] theorem State.get_set_self (s : State) (r : Reg) (v : Word) : (s.set r v).get r = v := by
  simp [State.get_set]

@[simp] theorem State.get_set_ne (s : State) {r q : Reg} (v : Word) (h : q ≠ r) : (s.set r v).get q = s.get q := by
  simp [State.get_set, h]

@[simp] theorem State.set_cfg (s : State) (r : Reg) (v : Word) : (s.set r v).cfg = s.cfg := rfl
@[simp] theorem State.set_halted (s : State) (r : Reg) (v : Word) : (s.set r v).halted = s.halted := rfl
@[simp] theorem State.set_fatal (s : State) (r : Reg) (v : Word) : (s.set r v).fatal = s.fatal := rfl
@[simp] theorem State.set_queue (s : State) (r : Reg) (v : Word) : (s.set r v).queue = s.queue := rfl
@[simp] theorem State.set_mem (s : State) (r : Reg) (v : Word) : (s.set r v).mem = s.mem := rfl
@[simp] theorem State.set_devWrites (s : State) (r : Reg) (v : Word) : (s.set r v).devWrites = s.devWrites := rfl
@[simp] theorem State.set_freeIndex (s : State) (r : Reg) (v : Word) : (s.set r v).freeIndex = s.freeIndex := rfl
@[simp] theorem State.set_report (s : State) (r : Reg) (v : Word) : (s.set r v).report = s.report := rfl
@[simp] theorem State.set_byteAt (s : State) (r : Reg) (v a : Word) : (s.set r v).byteAt a = s.byteAt a := rfl

@[simp] theorem State.set_set (s : State) (r : Reg) (v w : Word) : (s.set r v).set r w = s.set r w := by
  simp [State.set]

theorem State.set_comm (s : State) {r q : Reg} (v w : Word) (h : r ≠ q) :
    (s.set r v).set q w = (s.set q w).set r v := by
  have hne : r.index.val ≠ q.index.val := fun e => h (Reg.index_injective (Fin.ext e))
  simp [State.set, Vector.set_comm _ _ hne]

/-- A register file is its sixteen registers. -/
theorem State.regs_ext {s t : State} (h : ∀ r, t.get r = s.get r) : t.regs = s.regs := by
  apply Vector.ext
  intro i hi
  have cover : ∀ k : Fin 16, ∃ r : Reg, r.index = k := by
    intro k
    exact ⟨Reg.ofField (BitVec.ofFin k), by revert k; decide⟩
  obtain ⟨r, hr⟩ := cover ⟨i, hi⟩
  have := h r
  simpa [State.get, hr, Vector.get_eq_getElem] using this

/-! ### The output bit -/

@[simp] theorem State.reporting_get (s : State) (p : StepReport) (r : Reg) : (s.reporting p).get r = s.get r := rfl
@[simp] theorem State.reporting_cfg (s : State) (p : StepReport) : (s.reporting p).cfg = s.cfg := rfl
@[simp] theorem State.reporting_halted (s : State) (p : StepReport) : (s.reporting p).halted = s.halted := rfl
@[simp] theorem State.reporting_fatal (s : State) (p : StepReport) : (s.reporting p).fatal = s.fatal := rfl
@[simp] theorem State.reporting_queue (s : State) (p : StepReport) : (s.reporting p).queue = s.queue := rfl
@[simp] theorem State.reporting_mem (s : State) (p : StepReport) : (s.reporting p).mem = s.mem := rfl
@[simp] theorem State.reporting_devWrites (s : State) (p : StepReport) : (s.reporting p).devWrites = s.devWrites := rfl
@[simp] theorem State.reporting_freeIndex (s : State) (p : StepReport) : (s.reporting p).freeIndex = s.freeIndex := rfl
@[simp] theorem State.reporting_report (s : State) (p : StepReport) : (s.reporting p).report = p := rfl
@[simp] theorem State.reporting_byteAt (s : State) (p : StepReport) (a : Word) : (s.reporting p).byteAt a = s.byteAt a := rfl
@[simp] theorem State.reporting_flag (s : State) (p : StepReport) (f : Flag) : (s.reporting p).flag f = s.flag f := rfl

/-! ### RAM bytes -/

@[simp] theorem State.storeByte_get (s : State) (a : Word) (b : Byte) (r : Reg) : (s.storeByte a b).get r = s.get r := rfl
@[simp] theorem State.storeByte_cfg (s : State) (a : Word) (b : Byte) : (s.storeByte a b).cfg = s.cfg := rfl
@[simp] theorem State.storeByte_halted (s : State) (a : Word) (b : Byte) : (s.storeByte a b).halted = s.halted := rfl
@[simp] theorem State.storeByte_fatal (s : State) (a : Word) (b : Byte) : (s.storeByte a b).fatal = s.fatal := rfl
@[simp] theorem State.storeByte_queue (s : State) (a : Word) (b : Byte) : (s.storeByte a b).queue = s.queue := rfl
@[simp] theorem State.storeByte_devWrites (s : State) (a : Word) (b : Byte) : (s.storeByte a b).devWrites = s.devWrites := rfl
@[simp] theorem State.storeByte_freeIndex (s : State) (a : Word) (b : Byte) : (s.storeByte a b).freeIndex = s.freeIndex := rfl
@[simp] theorem State.storeByte_report (s : State) (a : Word) (b : Byte) : (s.storeByte a b).report = s.report := rfl
@[simp] theorem State.storeByte_mem (s : State) (a : Word) (b : Byte) : (s.storeByte a b).mem = s.mem.write a.toNat b := rfl

/-! ### Free device values and the record of device writes -/

@[simp] theorem State.useFree_get (s : State) (n : Nat) (r : Reg) : (s.useFree n).get r = s.get r := rfl
@[simp] theorem State.useFree_cfg (s : State) (n : Nat) : (s.useFree n).cfg = s.cfg := rfl
@[simp] theorem State.useFree_halted (s : State) (n : Nat) : (s.useFree n).halted = s.halted := rfl
@[simp] theorem State.useFree_fatal (s : State) (n : Nat) : (s.useFree n).fatal = s.fatal := rfl
@[simp] theorem State.useFree_queue (s : State) (n : Nat) : (s.useFree n).queue = s.queue := rfl
@[simp] theorem State.useFree_mem (s : State) (n : Nat) : (s.useFree n).mem = s.mem := rfl
@[simp] theorem State.useFree_devWrites (s : State) (n : Nat) : (s.useFree n).devWrites = s.devWrites := rfl
@[simp] theorem State.useFree_report (s : State) (n : Nat) : (s.useFree n).report = s.report := rfl
@[simp] theorem State.useFree_freeIndex (s : State) (n : Nat) : (s.useFree n).freeIndex = s.freeIndex + n := rfl

@[simp] theorem State.offer_get (s : State) (g : Region) (a : Word) (bs : List Byte) (r : Reg) :
    (s.offer g a bs).get r = s.get r := rfl
@[simp] theorem State.offer_byteAt (s : State) (g : Region) (a x : Word) (bs : List Byte) :
    (s.offer g a bs).byteAt x = s.byteAt x := rfl
@[simp] theorem State.offer_regs (s : State) (g : Region) (a : Word) (bs : List Byte) :
    (s.offer g a bs).regs = s.regs := rfl
@[simp] theorem State.offer_cfg (s : State) (g : Region) (a : Word) (bs : List Byte) :
    (s.offer g a bs).cfg = s.cfg := rfl
@[simp] theorem State.offer_halted (s : State) (g : Region) (a : Word) (bs : List Byte) :
    (s.offer g a bs).halted = s.halted := rfl
@[simp] theorem State.offer_fatal (s : State) (g : Region) (a : Word) (bs : List Byte) :
    (s.offer g a bs).fatal = s.fatal := rfl
@[simp] theorem State.offer_queue (s : State) (g : Region) (a : Word) (bs : List Byte) :
    (s.offer g a bs).queue = s.queue := rfl
@[simp] theorem State.offer_mem (s : State) (g : Region) (a : Word) (bs : List Byte) :
    (s.offer g a bs).mem = s.mem := rfl
@[simp] theorem State.offer_report (s : State) (g : Region) (a : Word) (bs : List Byte) :
    (s.offer g a bs).report = s.report := rfl
@[simp] theorem State.offer_freeIndex (s : State) (g : Region) (a : Word) (bs : List Byte) :
    (s.offer g a bs).freeIndex = s.freeIndex + 1 := rfl
@[simp] theorem State.offer_devWrites (s : State) (g : Region) (a : Word) (bs : List Byte) :
    (s.offer g a bs).devWrites =
      s.devWrites ++ [⟨g, deviceOffset g a, bs, min (Config.deviceTransfers s.freeIndex) bs.length⟩] := rfl

/-! ### Flag writes, bit by bit -/

@[simp] theorem Flag.bit_lt (f : Flag) : f.bit < 32 := by cases f <;> decide

theorem Flag.bit_injective {f g : Flag} (h : f.bit = g.bit) : f = g := by
  cases f <;> cases g <;> first | rfl | exact absurd h (by decide)

theorem getLsbD_flagMask (f : Flag) (k : Nat) : f.mask.getLsbD k = decide (k = f.bit) := by
  have h := f.bit_lt
  have one : ∀ j, (1#32).getLsbD j = decide (j = 0) := by intro j; cases j <;> simp
  simp only [Flag.mask, BitVec.getLsbD_shiftLeft, one]
  by_cases hk : k = f.bit
  · subst hk; simp [h]
  · by_cases lt : k < f.bit
    · simp [lt, hk]
    · have : k - f.bit ≠ 0 := by omega
      simp [this, hk]

theorem getLsbD_withFlag (w : Word) (f : Flag) (k : Nat) :
    (withFlag w f).getLsbD k = (w.getLsbD k || decide (k = f.bit)) := by
  simp [withFlag, getLsbD_flagMask]

theorem getLsbD_withoutFlag (w : Word) (f : Flag) (k : Nat) :
    (withoutFlag w f).getLsbD k = (w.getLsbD k && !decide (k = f.bit)) := by
  simp only [withoutFlag, BitVec.getLsbD_and, BitVec.getLsbD_not, getLsbD_flagMask]
  by_cases h : k < 32
  · simp [h]
  · simp [BitVec.getLsbD_of_ge w k (by omega)]

theorem getLsbD_boolWord (b : Bool) (k : Nat) : (boolWord b).getLsbD k = (decide (k = 0) && b) := by
  cases k <;> simp [boolWord]

theorem getLsbD_setNumWord_low (w : Word) (f : Nums) :
    (setNumWord w f).getLsbD 0 = f.z ∧ (setNumWord w f).getLsbD 1 = f.n ∧
    (setNumWord w f).getLsbD 2 = f.c ∧ (setNumWord w f).getLsbD 3 = f.e := by
  obtain ⟨z, n, c, e⟩ := f
  refine ⟨?_, ?_, ?_, ?_⟩ <;>
    cases z <;> cases n <;> cases c <;> cases e <;> simp [setNumWord, boolWord]

theorem getLsbD_setNumWord_high (w : Word) (f : Nums) {k : Nat} (h : 4 ≤ k) :
    (setNumWord w f).getLsbD k = w.getLsbD k := by
  have h1 : ¬ k < 1 := by omega
  have h2 : ¬ k < 2 := by omega
  have h3 : ¬ k < 3 := by omega
  have e0 : k ≠ 0 := by omega
  have e1 : k - 1 ≠ 0 := by omega
  have e2 : k - 2 ≠ 0 := by omega
  have e3 : k - 3 ≠ 0 := by omega
  by_cases hk : k < 32
  · have hm : (0xFFFFFFF0#32).getLsbD k = true := by
      have : ∀ j : Fin 32, 4 ≤ j.val → (0xFFFFFFF0#32).getLsbD j.val = true := by decide
      exact this ⟨k, hk⟩ h
    simp [setNumWord, getLsbD_boolWord, BitVec.getLsbD_or, BitVec.getLsbD_and, BitVec.getLsbD_shiftLeft, h1, h2, h3, e0,
      e1, e2, e3, hm]
  · rw [BitVec.getLsbD_of_ge _ k (by omega), BitVec.getLsbD_of_ge _ k (by omega)]

/-! ### The numeric flags of the machine -/

@[simp] theorem State.setNum_get_ne (s : State) (f : Nums) {r : Reg} (h : r ≠ .status) : (s.setNum f).get r = s.get r :=
  State.get_set_ne s _ h
@[simp] theorem State.setNum_status (s : State) (f : Nums) : (s.setNum f).get .status = setNumWord (s.get .status) f :=
  State.get_set_self s _ _
@[simp] theorem State.setNum_cfg (s : State) (f : Nums) : (s.setNum f).cfg = s.cfg := rfl
@[simp] theorem State.setNum_halted (s : State) (f : Nums) : (s.setNum f).halted = s.halted := rfl
@[simp] theorem State.setNum_fatal (s : State) (f : Nums) : (s.setNum f).fatal = s.fatal := rfl
@[simp] theorem State.setNum_queue (s : State) (f : Nums) : (s.setNum f).queue = s.queue := rfl
@[simp] theorem State.setNum_mem (s : State) (f : Nums) : (s.setNum f).mem = s.mem := rfl
@[simp] theorem State.setNum_devWrites (s : State) (f : Nums) : (s.setNum f).devWrites = s.devWrites := rfl
@[simp] theorem State.setNum_freeIndex (s : State) (f : Nums) : (s.setNum f).freeIndex = s.freeIndex := rfl
@[simp] theorem State.setNum_report (s : State) (f : Nums) : (s.setNum f).report = s.report := rfl
@[simp] theorem State.setNum_byteAt (s : State) (f : Nums) (a : Word) : (s.setNum f).byteAt a = s.byteAt a := rfl

theorem State.setNum_flags (s : State) (f : Nums) :
    (s.setNum f).flag .zero = f.z ∧ (s.setNum f).flag .negative = f.n ∧
    (s.setNum f).flag .carry = f.c ∧ (s.setNum f).flag .error = f.e := by
  simpa [State.flag, flagOf, Flag.bit] using getLsbD_setNumWord_low (s.get .status) f

@[simp] theorem State.setAccum_accum (s : State) (r : Word) (f : Nums) : (s.setAccum r f).get .accum = r := by
  simp [State.setAccum]
@[simp] theorem State.setAccum_status (s : State) (r : Word) (f : Nums) :
    (s.setAccum r f).get .status = setNumWord (s.get .status) f := by
  simp [State.setAccum]
theorem State.setAccum_get_ne (s : State) (r : Word) (f : Nums) {q : Reg} (ha : q ≠ .accum) (hs : q ≠ .status) :
    (s.setAccum r f).get q = s.get q := by
  simp [State.setAccum, ha, hs]
theorem State.setAccum_flags (s : State) (r : Word) (f : Nums) :
    (s.setAccum r f).flag .zero = f.z ∧ (s.setAccum r f).flag .negative = f.n ∧
    (s.setAccum r f).flag .carry = f.c ∧ (s.setAccum r f).flag .error = f.e :=
  State.setNum_flags _ f
@[simp] theorem State.setAccum_cfg (s : State) (r : Word) (f : Nums) : (s.setAccum r f).cfg = s.cfg := rfl
@[simp] theorem State.setAccum_halted (s : State) (r : Word) (f : Nums) : (s.setAccum r f).halted = s.halted := rfl
@[simp] theorem State.setAccum_fatal (s : State) (r : Word) (f : Nums) : (s.setAccum r f).fatal = s.fatal := rfl
@[simp] theorem State.setAccum_queue (s : State) (r : Word) (f : Nums) : (s.setAccum r f).queue = s.queue := rfl
@[simp] theorem State.setAccum_mem (s : State) (r : Word) (f : Nums) : (s.setAccum r f).mem = s.mem := rfl
@[simp] theorem State.setAccum_devWrites (s : State) (r : Word) (f : Nums) : (s.setAccum r f).devWrites = s.devWrites := rfl
@[simp] theorem State.setAccum_freeIndex (s : State) (r : Word) (f : Nums) : (s.setAccum r f).freeIndex = s.freeIndex := rfl
@[simp] theorem State.setAccum_report (s : State) (r : Word) (f : Nums) : (s.setAccum r f).report = s.report := rfl
@[simp] theorem State.setAccum_byteAt (s : State) (r : Word) (f : Nums) (a : Word) :
    (s.setAccum r f).byteAt a = s.byteAt a := rfl

/-! ### Operand reads -/

@[simp] theorem State.regz_ins (s : State) : s.regz .ins = 0#32 := rfl
@[simp] theorem State.regz_ne (s : State) {r : Reg} (h : r ≠ .ins) : s.regz r = s.get r := by simp [State.regz, h]

end Sys2Proof.Machine
end

