-- ==== Sys2Proof/Laws/Memory.lean ====
section
/-! SUPPORT. Memory cells: a read after a write, and the canonical form that every memory operation keeps. -/

namespace Sys2Proof.Machine

theorem Memory.read_insert (m : Memory) (a : Nat) (b : Byte) (x : Nat) :
    (m.insert a b).read x = if x = a then b else m.read x := by
  induction m with
  | nil => simp only [Memory.insert, Memory.read, eq_comm]
  | cons cell rest ih =>
    obtain ⟨k, v⟩ := cell
    by_cases h1 : a < k
    · simp only [Memory.insert, h1, if_true, Memory.read, eq_comm (a := x)]
    · by_cases h2 : a = k
      · subst h2
        by_cases hx : a = x <;> simp [Memory.insert, Memory.read, hx, eq_comm (a := x)]
      · simp only [Memory.insert, h1, h2, if_false, Memory.read, ih]
        by_cases hk : k = x
        · have : x ≠ a := fun e => h2 (e ▸ hk.symm)
          simp [hk, this]
        · simp [hk]

theorem Memory.read_erase (m : Memory) (a : Nat) (x : Nat) :
    (m.erase a).read x = if x = a then Memory.fill else m.read x := by
  induction m with
  | nil => simp [Memory.erase, Memory.read]
  | cons cell rest ih =>
    obtain ⟨k, v⟩ := cell
    by_cases hk : k = a
    · subst hk
      have : Memory.erase ((k, v) :: rest) k = Memory.erase rest k := by simp [Memory.erase]
      rw [this, ih]
      by_cases hx : x = k <;> simp [Memory.read, hx, eq_comm (a := k)]
    · have : Memory.erase ((k, v) :: rest) a = (k, v) :: Memory.erase rest a := by simp [Memory.erase, hk]
      rw [this]
      simp only [Memory.read, ih]
      by_cases hx : k = x
      · have : x ≠ a := fun e => hk (hx.trans e)
        simp [hx, this]
      · simp [hx]

/-- What memory reads after a write, whatever the memory. -/
theorem Memory.read_write (m : Memory) (a : Nat) (b : Byte) (x : Nat) :
    (m.write a b).read x = if x = a then b else m.read x := by
  unfold Memory.write
  split
  · next h => rw [Memory.read_erase, h]
  · exact Memory.read_insert m a b x

@[simp] theorem State.byteAt_storeByte_self (s : State) (a : Word) (b : Byte) : (s.storeByte a b).byteAt a = b := by
  simp [State.byteAt, Memory.read_write]

theorem State.byteAt_storeByte (s : State) (a x : Word) (b : Byte) :
    (s.storeByte a b).byteAt x = if x = a then b else s.byteAt x := by
  simp [State.byteAt, Memory.read_write, BitVec.toNat_inj]

theorem Memory.mem_insert {m : Memory} {a : Nat} {b : Byte} {cell : Host.Cell} (h : cell ∈ m.insert a b) :
    cell = (a, b) ∨ cell ∈ m := by
  induction m with
  | nil => simpa [Memory.insert] using h
  | cons head rest ih =>
    obtain ⟨k, v⟩ := head
    unfold Memory.insert at h
    split at h
    · simpa using h
    · split at h
      · rcases List.mem_cons.1 h with h | h
        · exact .inl h
        · exact .inr (List.mem_cons_of_mem _ h)
      · rcases List.mem_cons.1 h with h | h
        · exact .inr (h ▸ List.mem_cons_self)
        · exact (ih h).imp id (List.mem_cons_of_mem _)

/-- A cell of the memory after a write is the written one or an old one. -/
theorem Memory.mem_write {m : Memory} {a : Nat} {b : Byte} {cell : Host.Cell} (h : cell ∈ m.write a b) :
    cell = (a, b) ∨ cell ∈ m := by
  unfold Memory.write at h
  split at h
  · exact .inr (List.mem_of_mem_filter h)
  · exact Memory.mem_insert h

theorem Memory.sorted_iff (m : Memory) : m.sorted = true ↔ m.Pairwise fun p q => p.1 < q.1 := by
  induction m with
  | nil => simp [Memory.sorted]
  | cons cell rest ih => simp [Memory.sorted, ih]

theorem Memory.sorted_insert {m : Memory} (a : Nat) (b : Byte) (h : m.sorted = true) : (m.insert a b).sorted = true := by
  rw [Memory.sorted_iff] at *
  induction m with
  | nil => simp [Memory.insert]
  | cons cell rest ih =>
    obtain ⟨k, v⟩ := cell
    obtain ⟨hk, hr⟩ := List.pairwise_cons.1 h
    unfold Memory.insert
    split
    · next hlt =>
      refine List.pairwise_cons.2 ⟨fun q hq => ?_, h⟩
      rcases List.mem_cons.1 hq with rfl | hq
      · exact hlt
      · exact Nat.lt_trans hlt (hk q hq)
    · split
      · next heq => subst heq; exact List.pairwise_cons.2 ⟨hk, hr⟩
      · refine List.pairwise_cons.2 ⟨fun q hq => ?_, ih hr⟩
        rcases Memory.mem_insert hq with rfl | hq
        · simp only; omega
        · exact hk q hq

/-- A write keeps the canonical form. -/
theorem Memory.wf_write {m : Memory} {a : Nat} (b : Byte) (ha : a < 2 ^ 32) (h : m.wf = true) : (m.write a b).wf = true := by
  unfold Memory.wf at h ⊢
  rw [Bool.and_eq_true] at h ⊢
  refine ⟨?_, ?_⟩
  · unfold Memory.write
    split
    · rw [Memory.sorted_iff] at *
      exact h.1.filter _
    · exact Memory.sorted_insert a b h.1
  · rw [List.all_eq_true] at *
    intro cell hc
    by_cases hb : b = Memory.fill
    · have : cell ∈ m.erase a := by simpa [Memory.write, hb] using hc
      exact h.2 cell (List.mem_of_mem_filter this)
    · rcases Memory.mem_write hc with rfl | hc
      · have ha' : a < 4294967296 := ha
        simp [hb, ha']
      · exact h.2 cell hc

theorem State.storeByte_wf {s : State} (a : Word) (b : Byte) (h : s.mem.wf = true) : (s.storeByte a b).mem.wf = true :=
  Memory.wf_write b a.isLt h

theorem State.reset_mem_wf : State.reset.mem.wf = true := rfl

end Sys2Proof.Machine
end

