-- ==== Sys2Proof/Laws/Bus.lean ====
section
/-! SUPPORT. What a read and a write on the bus can do, and the bytes of a word. -/

namespace Sys2Proof.Machine

/-! ### Addresses -/

theorem addr_zero (a : Word) : a + BitVec.ofNat 32 0 = a := by simp

theorem addr_succ (a : Word) (k : Nat) : (a + 1#32) + BitVec.ofNat 32 k = a + BitVec.ofNat 32 (k + 1) := by
  rw [BitVec.ofNat_add]; rw [BitVec.add_assoc, BitVec.add_comm (1#32)]

theorem addr_add (a : Word) (j k : Nat) :
    (a + BitVec.ofNat 32 j) + BitVec.ofNat 32 k = a + BitVec.ofNat 32 (j + k) := by
  rw [BitVec.ofNat_add, BitVec.add_assoc]

/-- Addresses less than 2^32 apart differ. -/
theorem addr_inj {a : Word} {j k : Nat} (hj : j < 2 ^ 32) (hk : k < 2 ^ 32)
    (h : a + BitVec.ofNat 32 j = a + BitVec.ofNat 32 k) : j = k := by
  have := congrArg BitVec.toNat ((BitVec.add_right_inj a).1 h)
  rwa [BitVec.toNat_ofNat, BitVec.toNat_ofNat, Nat.mod_eq_of_lt hj, Nat.mod_eq_of_lt hk] at this

/-- The address after another is a different one, in a run no longer than the address space. -/
theorem addr_succ_ne {a : Word} {k : Nat} (hk : k + 1 < 2 ^ 32) : a + BitVec.ofNat 32 (k + 1) ≠ a := by
  intro he
  have := addr_inj (j := k + 1) (k := 0) hk (by omega) (by rw [addr_zero]; exact he)
  omega

theorem RamRange.head {c : Config} {a : Word} {n : Nat} (h : RamRange c a (n + 1)) : RamAt c a := by
  simpa using h 0 (Nat.succ_pos n)

theorem RamRange.tail {c : Config} {a : Word} {n : Nat} (h : RamRange c a (n + 1)) : RamRange c (a + 1#32) n := by
  intro k hk
  rw [addr_succ]
  exact h (k + 1) (by omega)

theorem RamRange.split {c : Config} {a : Word} {m n : Nat} (h : RamRange c a (m + n)) :
    RamRange c a m ∧ RamRange c (a + BitVec.ofNat 32 m) n :=
  ⟨fun k hk => h k (by omega), fun k hk => by rw [addr_add]; exact h (m + k) (by omega)⟩

theorem RamAt.owner {c : Config} {a : Word} (h : RamAt c a) : ∃ r, ownerOf c a = some r ∧ r.kind = .ram := by
  unfold RamAt at h
  cases ho : ownerOf c a with
  | none => simp [ho] at h
  | some r => exact ⟨r, rfl, by simpa [ho] using h⟩

@[simp] theorem State.bytesAt_zero (s : State) (a : Word) : s.bytesAt a 0 = [] := rfl

theorem State.bytesAt_succ (s : State) (a : Word) (n : Nat) :
    s.bytesAt a (n + 1) = s.byteAt a :: s.bytesAt (a + 1#32) n := by
  unfold State.bytesAt
  rw [List.range_succ_eq_map]
  simp only [List.map_cons, List.map_map, addr_zero]
  congr 1
  apply List.map_congr_left
  intro k _
  simp only [Function.comp_apply, addr_succ, Nat.succ_eq_add_one]

theorem State.bytesAt_congr {s t : State} {a : Word} {n : Nat}
    (h : ∀ k, k < n → t.byteAt (a + BitVec.ofNat 32 k) = s.byteAt (a + BitVec.ofNat 32 k)) :
    t.bytesAt a n = s.bytesAt a n := by
  apply List.map_congr_left
  intro k hk
  exact h k (List.mem_range.1 hk)

/-! ### Reads -/

/-- A read of RAM answers its bytes and leaves the state alone. -/
theorem readBytes_ram {n : Nat} {a : Word} {s : State} (h : RamRange s.cfg a n) :
    readBytes n a s = .ok (s.bytesAt a n) s := by
  unfold readBytes
  induction n generalizing a with
  | zero => rfl
  | succ n ih =>
    obtain ⟨r, ho, hk⟩ := h.head.owner
    simp only [readFrom, ho, hk, ih h.tail, Bus.map, State.bytesAt_succ]

theorem readOpWord_ram {a : Word} {s : State} (h : RamRange s.cfg a 2) :
    readOpWord a s = .ok (leOpWord (s.bytesAt a 2)) s := by
  simp [readOpWord, readBytes_ram h, Bus.map]

theorem readWord_ram {a : Word} {s : State} (h : RamRange s.cfg a 4) : readWord a s = .ok (s.wordAt a) s := by
  simp [readWord, readBytes_ram h, Bus.map, State.wordAt]

/-- A read whose first unmapped byte lies above RAM bytes raises NotMapped there and leaves the state alone. -/
theorem readBytes_unmapped {n j : Nat} {a : Word} {s : State} (h : FirstUnmapped s.cfg a n j) :
    readBytes n a s = .notMapped (a + BitVec.ofNat 32 j) s := by
  unfold readBytes
  induction n generalizing a j with
  | zero => exact absurd h.1 (by omega)
  | succ n ih =>
    obtain ⟨hj, hr, hu⟩ := h
    cases j with
    | zero =>
      have hu' : ownerOf s.cfg a = none := by simpa using hu
      simp [readFrom, hu']
    | succ j =>
      obtain ⟨r, ho, hk⟩ := hr.head.owner
      have := ih (a := a + 1#32) (j := j) ⟨by omega, hr.tail, by rw [addr_succ]; exact hu⟩
      simp only [readFrom, ho, hk, this, Bus.map, addr_succ]

theorem readOpWord_unmapped {j : Nat} {a : Word} {s : State} (h : FirstUnmapped s.cfg a 2 j) :
    readOpWord a s = .notMapped (a + BitVec.ofNat 32 j) s := by
  simp [readOpWord, readBytes_unmapped h, Bus.map]

theorem readWord_unmapped {j : Nat} {a : Word} {s : State} (h : FirstUnmapped s.cfg a 4 j) :
    readWord a s = .notMapped (a + BitVec.ofNat 32 j) s := by
  simp [readWord, readBytes_unmapped h, Bus.map]

theorem Bus.ok_ne_notMapped {α : Type} {v : α} {s : State} {a : Word} {t : State} {p : Prop}
    (h : Bus.ok v s = Bus.notMapped a t) : p := by
  cases h

theorem State.useFree_useFree (s : State) (m n : Nat) : (s.useFree m).useFree n = s.useFree (m + n) := by
  simp [State.useFree, Nat.add_assoc]

/-- The run of a device after an address: it stays with its owner and does not wrap, and it ends with the access, at another owner or at
the wrap. -/
theorem runAfter_spec (c : Config) (r : Region) (n : Nat) (a : Word) :
    runAfter c r n a ≤ n ∧
    (∀ i, i < runAfter c r n a → ownerOf c (a + BitVec.ofNat 32 (i + 1)) = some r ∧
      (a + BitVec.ofNat 32 (i + 1)).toNat = a.toNat + (i + 1)) ∧
    (runAfter c r n a = n ∨ ownerOf c (a + BitVec.ofNat 32 (runAfter c r n a + 1)) ≠ some r ∨
      a + BitVec.ofNat 32 (runAfter c r n a + 1) = 0#32) := by
  induction n generalizing a with
  | zero => exact ⟨Nat.le_refl _, fun i hi => absurd hi (Nat.not_lt_zero i), .inl rfl⟩
  | succ n ih =>
    unfold runAfter
    split
    · next h =>
      obtain ⟨h1, h2, h3⟩ := ih (a + 1#32)
      have hn : (a + 1#32).toNat = a.toNat + 1 := by
        have := mt (fun e => (BitVec.eq_of_toNat_eq (y := 0#32) e)) h.1
        have h1 := BitVec.toNat_add a 1#32
        have := a.isLt
        simp only [BitVec.toNat_ofNat] at *
        omega
      refine ⟨by omega, fun i hi => ?_, ?_⟩
      · cases i with
        | zero => exact ⟨h.2, hn⟩
        | succ i =>
          have := h2 i (by omega)
          rw [addr_succ, hn] at this
          exact ⟨this.1, by omega⟩
      · rw [addr_succ] at h3
        rcases h3 with h3 | h3
        · exact .inl (by omega)
        · exact .inr h3
    · next h =>
      refine ⟨by omega, fun i hi => absurd hi (Nat.not_lt_zero i), .inr ?_⟩
      by_cases hz : a + 1#32 = 0#32
      · exact .inr hz
      · exact .inl fun ho => h ⟨hz, ho⟩

/-- The bytes of a run all belong to its region. -/
theorem runAfter_owner {c : Config} {r : Region} {n : Nat} {a : Word} (ho : ownerOf c a = some r) {i : Nat}
    (hi : i < runAfter c r n a + 1) :
    ownerOf c (a + BitVec.ofNat 32 i) = some r ∧ (a + BitVec.ofNat 32 i).toNat = a.toNat + i := by
  cases i with
  | zero => simpa using ho
  | succ i => exact (runAfter_spec c r n a).2.1 i (by omega)

@[simp] theorem State.useFree_byteAt (s : State) (n : Nat) (a : Word) : (s.useFree n).byteAt a = s.byteAt a := rfl

/-- What any read leaves: only the free index can have moved. -/
theorem readFrom_state (n left : Nat) (a : Word) (s : State) :
    ∃ k, (∃ v, readFrom n left a s = .ok v (s.useFree k)) ∨ (∃ x, readFrom n left a s = .notMapped x (s.useFree k)) := by
  induction n generalizing left a s with
  | zero => exact ⟨0, .inl ⟨[], rfl⟩⟩
  | succ n ih =>
    have next : ∀ (b : Byte) (m q : Nat),
        ∃ k, (∃ v, (readFrom n q (a + 1#32) (s.useFree m)).map (b :: ·) = .ok v (s.useFree k)) ∨
          (∃ x, (readFrom n q (a + 1#32) (s.useFree m)).map (b :: ·) = .notMapped x (s.useFree k)) := by
      intro b m q
      obtain ⟨k, ⟨v, h⟩ | ⟨x, h⟩⟩ := ih q (a + 1#32) (s.useFree m)
      · exact ⟨m + k, .inl ⟨b :: v, by rw [h, State.useFree_useFree]; rfl⟩⟩
      · exact ⟨m + k, .inr ⟨x, by rw [h, State.useFree_useFree]; rfl⟩⟩
    cases left with
    | succ left => exact next _ 1 left
    | zero =>
      simp only [readFrom]
      split
      · exact ⟨0, .inr ⟨a, rfl⟩⟩
      · next r _ =>
        cases r.kind with
        | ram => exact next _ 0 0
        | device =>
          by_cases ht : runAfter s.cfg r n a < Config.deviceTransfers s.freeIndex
          · simp only [ht, if_true]; exact next _ 2 _
          · simp only [ht, if_false]; exact ⟨n + 2, .inl ⟨_, rfl⟩⟩

theorem readBytes_state (n : Nat) (a : Word) (s : State) :
    ∃ k, (∃ v, readBytes n a s = .ok v (s.useFree k)) ∨ (∃ x, readBytes n a s = .notMapped x (s.useFree k)) :=
  readFrom_state n 0 a s

theorem deviceBytes_length (k n : Nat) : (deviceBytes k n).length = n := by
  induction n generalizing k with
  | zero => rfl
  | succ n ih => simp [deviceBytes, ih]

theorem RamAt.not_device {c : Config} {a : Word} (h : RamAt c a) : ¬DeviceAt c a := by
  intro h'
  rw [RamAt, h'] at h
  cases h

theorem MappedRange.tail {c : Config} {a : Word} {n : Nat} (h : MappedRange c a (n + 1)) : MappedRange c (a + 1#32) n := by
  intro k hk
  rw [addr_succ]
  exact h (k + 1) (by omega)

theorem MappedRange.head {c : Config} {a : Word} {n : Nat} (h : MappedRange c a (n + 1)) : ∃ r, ownerOf c a = some r :=
  Option.isSome_iff_exists.1 (by simpa using h 0 (by omega))

/-- The bytes `v` read at `a`, the first `left` of them from the call under way: the first `j` arrived, and those in RAM among these
are the bytes held. -/
abbrev Arrived (s : State) (a : Word) (n left : Nat) (v : List Byte) : Prop :=
  v.length = n ∧ ∃ j, j ≤ n ∧
    (∀ i, i < j → left ≤ i → RamAt s.cfg (a + BitVec.ofNat 32 i) → v[i]? = some (s.byteAt (a + BitVec.ofNat 32 i))) ∧
    (j < n → DeviceAt s.cfg (a + BitVec.ofNat 32 j))

/-- One more byte in front, in RAM or from a device. -/
theorem Arrived.cons {s : State} {a : Word} {n left q m : Nat} {b : Byte} {v : List Byte}
    (h : Arrived (s.useFree m) (a + 1#32) n q v)
    (h0 : left = 0 → RamAt s.cfg a → b = s.byteAt a)
    (hq : ∀ i, i < q → left ≤ i + 1 → ¬RamAt s.cfg (a + BitVec.ofNat 32 (i + 1))) : Arrived s a (n + 1) left (b :: v) := by
  obtain ⟨hl, j, hj, h1, h2⟩ := h
  simp only [addr_succ, State.useFree_cfg, State.useFree_byteAt] at h1 h2
  refine ⟨by simp [hl], j + 1, by omega, fun i hi hli hr => ?_, fun hlt => h2 (by omega)⟩
  cases i with
  | zero => simpa using h0 (by omega) (by simpa using hr)
  | succ i =>
    by_cases hiq : i < q
    · exact absurd hr (hq i hiq hli)
    · simpa using h1 i (by omega) (by omega) hr

/-- A read of mapped addresses raises no NotMapped, whatever the devices answer, and gives the RAM bytes that arrive. -/
theorem readFrom_mapped {n : Nat} (left : Nat) {a : Word} {s : State} (h : MappedRange s.cfg a n) :
    ∃ v k, readFrom n left a s = .ok v (s.useFree k) ∧ Arrived s a n left v := by
  induction n generalizing left a s with
  | zero => exact ⟨[], 0, rfl, rfl, 0, by omega, by simp, by simp⟩
  | succ n ih =>
    have next : ∀ (b : Byte) (m q : Nat), (left = 0 → RamAt s.cfg a → b = s.byteAt a) →
        (∀ i, i < q → left ≤ i + 1 → ¬RamAt s.cfg (a + BitVec.ofNat 32 (i + 1))) →
        ∃ v k, (readFrom n q (a + 1#32) (s.useFree m)).map (b :: ·) = .ok v (s.useFree k) ∧ Arrived s a (n + 1) left v := by
      intro b m q h0 hq
      obtain ⟨v, k, e, o⟩ := ih (s := s.useFree m) q h.tail
      exact ⟨b :: v, m + k, by rw [e, State.useFree_useFree]; rfl, o.cons h0 hq⟩
    cases left with
    | succ left => exact next _ 1 left (by omega) (by omega)
    | zero =>
      obtain ⟨r, ho⟩ := h.head
      simp only [readFrom, ho]
      cases hk : r.kind with
      | ram => exact next _ 0 0 (fun _ _ => rfl) (by omega)
      | device =>
        have hd : ∀ i, i < runAfter s.cfg r n a + 1 → DeviceAt s.cfg (a + BitVec.ofNat 32 i) := fun i hi => by
          simp [DeviceAt, (runAfter_owner ho hi).1, hk]
        by_cases ht : runAfter s.cfg r n a < Config.deviceTransfers s.freeIndex
        · simp only [ht, if_true]
          exact next _ 2 _ (fun _ hr => absurd (by simpa using hd 0 (by omega)) hr.not_device)
            (fun i hi _ hr => hr.not_device (hd (i + 1) (by omega)))
        · simp only [ht, if_false]
          exact ⟨_, n + 2, rfl, deviceBytes_length _ _, 0, by omega, by simp, fun _ => hd 0 (by omega)⟩

/-! ### Writes -/

/-- A write to RAM writes its bytes and nothing else. -/
theorem writeBytes_ram {bs : List Byte} {a : Word} {s : State} (h : RamRange s.cfg a bs.length) :
    writeBytes bs a s = .ok () (s.placeBytes a bs) := by
  unfold writeBytes
  induction bs generalizing a s with
  | nil => rfl
  | cons b rest ih =>
    have hh : RamAt s.cfg a := by simpa using h 0 (by simp)
    obtain ⟨r, ho, hk⟩ := hh.owner
    have ht : RamRange (s.storeByte a b).cfg (a + 1#32) rest.length := RamRange.tail h
    simp only [writeFrom, ho, hk, ih ht, State.placeBytes]

/-- A write whose first unmapped byte lies above RAM bytes leaves exactly the bytes below it written. -/
theorem writeBytes_unmapped {bs : List Byte} {j : Nat} {a : Word} {s : State} (h : FirstUnmapped s.cfg a bs.length j) :
    writeBytes bs a s = .notMapped (a + BitVec.ofNat 32 j) (s.placeBytes a (bs.take j)) := by
  unfold writeBytes
  induction bs generalizing a s j with
  | nil => exact absurd h.1 (by simp)
  | cons b rest ih =>
    obtain ⟨hj, hr, hu⟩ := h
    cases j with
    | zero =>
      have hu' : ownerOf s.cfg a = none := by simpa using hu
      simp [writeFrom, hu', State.placeBytes]
    | succ j =>
      obtain ⟨r, ho, hk⟩ := hr.head.owner
      have := ih (a := a + 1#32) (s := s.storeByte a b) (j := j)
        ⟨by simp only [List.length_cons] at hj; omega, hr.tail, by rw [addr_succ]; exact hu⟩
      simp only [writeFrom, ho, hk, this, addr_succ, List.take_succ_cons, State.placeBytes]

@[simp] theorem State.placeBytes_get (s : State) (a : Word) (bs : List Byte) (r : Reg) :
    (s.placeBytes a bs).get r = s.get r := by
  induction bs generalizing s a with
  | nil => rfl
  | cons b rest ih => simp [State.placeBytes, ih]

/-- The fields other than memory that a run of RAM bytes leaves alone. -/
theorem State.placeBytes_rest (s : State) (a : Word) (bs : List Byte) : KeepsRest s (s.placeBytes a bs) := by
  induction bs generalizing s a with
  | nil => exact ⟨⟨rfl, rfl, rfl, rfl, rfl⟩, rfl, rfl⟩
  | cons b rest ih =>
    have h := ih (s.storeByte a b) (a + 1#32)
    exact ⟨⟨h.cfg, h.halted, h.fatal, h.devWrites, h.freeIndex⟩, h.queue, h.report⟩

theorem State.placeBytes_regs (s : State) (a : Word) (bs : List Byte) : (s.placeBytes a bs).regs = s.regs :=
  State.regs_ext fun r => State.placeBytes_get s a bs r

theorem State.placeBytes_byteAt_other (s : State) (a x : Word) (bs : List Byte)
    (h : ∀ k, k < bs.length → x ≠ a + BitVec.ofNat 32 k) : (s.placeBytes a bs).byteAt x = s.byteAt x := by
  induction bs generalizing s a with
  | nil => rfl
  | cons b rest ih =>
    have h0 : x ≠ a := by simpa using h 0 (by simp)
    rw [State.placeBytes, ih, State.byteAt_storeByte, if_neg h0]
    intro k hk
    rw [addr_succ]
    exact h (k + 1) (by simpa using hk)

theorem State.placeBytes_byteAt (s : State) (a : Word) (bs : List Byte) (hlen : bs.length < 2 ^ 32) {k : Nat}
    (hk : k < bs.length) : (s.placeBytes a bs).byteAt (a + BitVec.ofNat 32 k) = bs[k] := by
  induction bs generalizing s a k with
  | nil => exact absurd hk (by simp)
  | cons b rest ih =>
    simp only [List.length_cons] at hlen hk
    cases k with
    | zero =>
      rw [State.placeBytes, addr_zero, State.placeBytes_byteAt_other, State.byteAt_storeByte, if_pos rfl]
      · rfl
      · intro j hj he
        rw [addr_succ] at he
        have := addr_inj (j := 0) (k := j + 1) (by omega) (by omega) (by rw [addr_zero]; exact he)
        omega
    | succ k =>
      have := ih (s.storeByte a b) (a + 1#32) (by omega) (k := k) (by omega)
      rw [addr_succ] at this
      rw [State.placeBytes, this]
      rfl

/-- What every write leaves alone. -/
structure WriteKeeps (s t : State) : Prop where
  regs : t.regs = s.regs
  cfg : t.cfg = s.cfg
  halted : t.halted = s.halted
  fatal : t.fatal = s.fatal
  queue : t.queue = s.queue
  report : t.report = s.report

theorem WriteKeeps.get {s t : State} (h : WriteKeeps s t) (r : Reg) : t.get r = s.get r := by simp [State.get, h.regs]

theorem WriteKeeps.refl (s : State) : WriteKeeps s s := ⟨rfl, rfl, rfl, rfl, rfl, rfl⟩

theorem WriteKeeps.trans {s t u : State} (h : WriteKeeps s t) (h' : WriteKeeps t u) : WriteKeeps s u :=
  ⟨h'.1.trans h.1, h'.2.trans h.2, h'.3.trans h.3, h'.4.trans h.4, h'.5.trans h.5, h'.6.trans h.6⟩

theorem WriteKeeps.storeByte (s : State) (a : Word) (b : Byte) : WriteKeeps s (s.storeByte a b) := ⟨rfl, rfl, rfl, rfl, rfl, rfl⟩

theorem WriteKeeps.offer (s : State) (r : Region) (a : Word) (bs : List Byte) : WriteKeeps s (s.offer r a bs) :=
  ⟨rfl, rfl, rfl, rfl, rfl, rfl⟩

/-- Everything a write does, byte by byte: it keeps whatever storing a byte in RAM and calling a device keep. -/
theorem writeFrom_keeps (P : State → Prop) (hs : ∀ s a b, P s → RamAt s.cfg a → P (s.storeByte a b))
    (ho : ∀ s r a bs, P s → ownerOf s.cfg a = some r → r.kind = .device → P (s.offer r a bs))
    (bs : List Byte) (left : Nat) (a : Word) (s : State) (h : P s) :
    ∃ t, (writeFrom bs left a s = .ok () t ∨ ∃ x, writeFrom bs left a s = .notMapped x t) ∧ P t := by
  induction bs generalizing left a s with
  | nil => exact ⟨s, .inl rfl, h⟩
  | cons b rest ih =>
    cases left with
    | succ left => exact ih left (a + 1#32) s h
    | zero =>
      simp only [writeFrom]
      split
      · exact ⟨s, .inr ⟨a, rfl⟩, h⟩
      · next r hr =>
        cases hk : r.kind with
        | ram => exact ih 0 (a + 1#32) _ (hs s a b h (by simp [RamAt, hr, hk]))
        | device =>
          by_cases ht : runAfter s.cfg r rest.length a < Config.deviceTransfers s.freeIndex
          · simp only [ht, if_true]; exact ih _ (a + 1#32) _ (ho s r a _ h hr hk)
          · simp only [ht, if_false]; exact ⟨_, .inl rfl, ho s r a _ h hr hk⟩

/-- What holds of the one state a write leaves. -/
theorem writeBytes_left {P : State → Prop} {bs : List Byte} {a : Word} {s t : State}
    (h : ∃ t, (writeFrom bs 0 a s = .ok () t ∨ ∃ x, writeFrom bs 0 a s = .notMapped x t) ∧ P t)
    (ht : writeBytes bs a s = .ok () t ∨ ∃ x, writeBytes bs a s = .notMapped x t) : P t := by
  obtain ⟨u, hu, hp⟩ := h
  suffices u = t from this ▸ hp
  unfold writeBytes at ht
  rcases hu with hu | ⟨x, hu⟩ <;> rcases ht with ht | ⟨y, ht⟩ <;> rw [hu] at ht <;> cases ht <;> rfl

/-- What any write leaves: registers, latches, the queue and the output bit are kept. -/
theorem writeBytes_state (bs : List Byte) (a : Word) (s : State) :
    ∃ t : State, (writeBytes bs a s = .ok () t ∨ ∃ x, writeBytes bs a s = .notMapped x t) ∧ WriteKeeps s t :=
  writeFrom_keeps (WriteKeeps s) (fun u a b h _ => h.trans (.storeByte u a b)) (fun u r a bs h _ _ => h.trans (.offer u r a bs))
    bs 0 a s (.refl s)

/-- Every write keeps the canonical form of memory. -/
theorem writeBytes_wf {bs : List Byte} {a : Word} {s t : State} (h : s.mem.wf = true)
    (ht : writeBytes bs a s = .ok () t ∨ ∃ x, writeBytes bs a s = .notMapped x t) : t.mem.wf = true :=
  writeBytes_left (P := fun u => u.mem.wf = true)
    (writeFrom_keeps (fun u => u.mem.wf = true) (fun _ a b h _ => State.storeByte_wf a b h) (fun _ _ _ _ h _ _ => h) bs 0 a s h) ht

/-- Every read keeps memory. -/
theorem readBytes_mem (n : Nat) (a : Word) (s : State) :
    (∀ v t, readBytes n a s = .ok v t → t.mem = s.mem) ∧ (∀ x t, readBytes n a s = .notMapped x t → t.mem = s.mem) := by
  obtain ⟨k, ⟨v, hv⟩ | ⟨x, hx⟩⟩ := readBytes_state n a s
  · rw [hv]
    exact ⟨fun _ t e => by injection e with _ e; exact e ▸ rfl, fun _ t e => Bus.ok_ne_notMapped e⟩
  · rw [hx]
    exact ⟨fun _ t e => Bus.ok_ne_notMapped e.symm, fun _ t e => by injection e with _ e; exact e ▸ rfl⟩

/-- A run of bytes stored in RAM keeps the canonical form. -/
theorem State.placeBytes_wf (bs : List Byte) (a : Word) (s : State) (h : s.mem.wf = true) :
    (s.placeBytes a bs).mem.wf = true := by
  induction bs generalizing a s with
  | nil => exact h
  | cons b rest ih => exact ih (a + 1#32) _ (State.storeByte_wf a b h)

/-! ### The image load -/

/-- What loading one byte does: it is stored where RAM is, and nothing happens elsewhere. -/
theorem State.loadByte_eq (s : State) (a : Word) (b : Byte) :
    s.loadByte a b = if RamAt s.cfg a then s.storeByte a b else s := by
  unfold State.loadByte RamAt
  split
  · next h => simp [h]
  · next r h => cases hk : r.kind <;> simp [h, hk]

/-- Loading keeps whatever storing a byte in RAM keeps. -/
theorem State.loadImageAt_keeps (P : State → Prop) (hs : ∀ s a b, P s → RamAt s.cfg a → P (s.storeByte a b)) (bs : List Byte)
    (a : Word) (s : State) (h : P s) : P (s.loadImageAt a bs) := by
  induction bs generalizing a s with
  | nil => exact h
  | cons b rest ih =>
    refine ih (a + 1#32) _ ?_
    rw [State.loadByte_eq]
    split
    · next ha => exact hs s a b h ha
    · exact h

/-- Loading the image keeps the canonical form. -/
theorem State.loadImageAt_wf (bs : List Byte) (a : Word) (s : State) (h : s.mem.wf = true) :
    (s.loadImageAt a bs).mem.wf = true :=
  State.loadImageAt_keeps (fun u => u.mem.wf = true) (fun _ a b h _ => State.storeByte_wf a b h) bs a s h

/-- Loading changes memory only. -/
theorem State.loadImageAt_rest (bs : List Byte) (a : Word) (s : State) :
    (s.loadImageAt a bs).regs = s.regs ∧ KeepsRest s (s.loadImageAt a bs) :=
  State.loadImageAt_keeps (fun u => u.regs = s.regs ∧ KeepsRest s u)
    (fun _ _ _ h _ => ⟨h.1, ⟨⟨h.2.cfg, h.2.halted, h.2.fatal, h.2.devWrites, h.2.freeIndex⟩, h.2.queue, h.2.report⟩⟩) bs a s
    ⟨rfl, ⟨⟨rfl, rfl, rfl, rfl, rfl⟩, rfl, rfl⟩⟩

theorem State.loadByte_cfg (s : State) (a : Word) (b : Byte) : (s.loadByte a b).cfg = s.cfg := (State.loadImageAt_rest [b] a s).2.cfg

/-- A byte of memory that no byte of the image falls on in RAM is kept. -/
theorem State.loadImageAt_byteAt_other (bs : List Byte) (a x : Word) (s : State)
    (h : ∀ k, k < bs.length → RamAt s.cfg (a + BitVec.ofNat 32 k) → x ≠ a + BitVec.ofNat 32 k) :
    (s.loadImageAt a bs).byteAt x = s.byteAt x := by
  induction bs generalizing a s with
  | nil => rfl
  | cons b rest ih =>
    rw [State.loadImageAt, ih, State.loadByte_eq]
    · split
      · next ha => rw [State.byteAt_storeByte, if_neg]; simpa using h 0 (by simp) (by simpa using ha)
      · rfl
    · intro k hk hr
      rw [State.loadByte_cfg, addr_succ] at hr
      rw [addr_succ]
      exact h (k + 1) (by simpa using hk) hr

/-- A byte of the image that falls on RAM stands there. -/
theorem State.loadImageAt_byteAt (bs : List Byte) (a : Word) (s : State) (hlen : bs.length ≤ 2 ^ 32) {k : Nat} {b : Byte}
    (hb : bs[k]? = some b) (hr : RamAt s.cfg (a + BitVec.ofNat 32 k)) :
    (s.loadImageAt a bs).byteAt (a + BitVec.ofNat 32 k) = b := by
  induction bs generalizing a s k with
  | nil => simp at hb
  | cons c rest ih =>
    simp only [List.length_cons] at hlen
    cases k with
    | zero =>
      obtain rfl : c = b := by simpa using hb
      rw [addr_zero] at hr ⊢
      rw [State.loadImageAt, State.loadImageAt_byteAt_other, State.loadByte_eq, if_pos hr, State.byteAt_storeByte_self]
      intro i hi _
      rw [addr_succ]
      exact (addr_succ_ne (by omega)).symm
    | succ k =>
      rw [← addr_succ] at hr ⊢
      exact ih (a + 1#32) _ (by omega) (by simpa using hb) (by rwa [State.loadByte_cfg])

/-! ### The bytes of a word -/

theorem leBytes_length (n v : Nat) : (leBytes n v).length = n := by
  induction n generalizing v with
  | zero => rfl
  | succ n ih => simp [leBytes, ih]

theorem leBytes_four (v : Word) : leBytes 4 v.toNat = [byteOf v 0, byteOf v 1, byteOf v 2, byteOf v 3] := by
  simp only [leBytes, byteOf, List.cons.injEq, and_true]
  refine ⟨?_, ?_, ?_, ?_⟩ <;> apply BitVec.eq_of_toNat_eq <;>
    simp [BitVec.extractLsb'_toNat, Nat.shiftRight_eq_div_pow, Nat.div_div_eq_div_mul]

theorem leWord_byteOf (v : Word) : leWord [byteOf v 0, byteOf v 1, byteOf v 2, byteOf v 3] = v := by
  apply BitVec.eq_of_toNat_eq
  have h := v.isLt
  simp only [leWord, leNat, byteOf, BitVec.extractLsb'_toNat, Nat.shiftRight_eq_div_pow, BitVec.toNat_ofNat]
  omega

/-- A word written to RAM reads back, byte by byte. -/
theorem writeWord_ram {a v : Word} {s : State} (h : RamRange s.cfg a 4) :
    ∃ t, writeWord a v s = .ok () t ∧ Stored a v 4 s t ∧ t.wordAt a = v ∧ t.regs = s.regs ∧ KeepsRest s t := by
  have hl : (leBytes 4 v.toNat).length = 4 := leBytes_length 4 _
  refine ⟨s.placeBytes a (leBytes 4 v.toNat), writeBytes_ram (hl ▸ h), ⟨?_, ?_⟩, ?_, s.placeBytes_regs _ _, s.placeBytes_rest _ _⟩
  · intro k hk
    rw [State.placeBytes_byteAt _ _ _ (by rw [hl]; omega) (by rw [hl]; exact hk)]
    simp only [leBytes_four]
    have : k = 0 ∨ k = 1 ∨ k = 2 ∨ k = 3 := by omega
    rcases this with rfl | rfl | rfl | rfl <;> rfl
  · intro x hx
    exact State.placeBytes_byteAt_other _ _ _ _ (by rw [hl]; exact hx)
  · have hb : ∀ k, (hk : k < 4) →
        (s.placeBytes a (leBytes 4 v.toNat)).byteAt (a + BitVec.ofNat 32 k) = (leBytes 4 v.toNat)[k]'(by rw [hl]; exact hk) :=
      fun k hk => State.placeBytes_byteAt _ _ _ (by rw [hl]; omega) _
    have hw : (s.placeBytes a (leBytes 4 v.toNat)).bytesAt a 4 = [byteOf v 0, byteOf v 1, byteOf v 2, byteOf v 3] := by
      have h0 := hb 0 (by omega)
      have h1 := hb 1 (by omega)
      have h2 := hb 2 (by omega)
      have h3 := hb 3 (by omega)
      simp only [leBytes_four, List.getElem_cons_zero, List.getElem_cons_succ] at h0 h1 h2 h3
      simp only [State.bytesAt, List.range, List.range.loop, List.map_cons, List.map_nil, leBytes_four, h0, h1, h2, h3]
    rw [State.wordAt, hw, leWord_byteOf]

/-- A word written across the end of RAM: the bytes below the first unmapped one stay written. -/
theorem writeWord_unmapped {a v : Word} {s : State} {j : Nat} (h : FirstUnmapped s.cfg a 4 j) :
    ∃ t, writeWord a v s = .notMapped (a + BitVec.ofNat 32 j) t ∧ Stored a v j s t ∧ t.regs = s.regs ∧ KeepsRest s t := by
  have hl : (leBytes 4 v.toNat).length = 4 := leBytes_length 4 _
  have hj : j < 4 := h.1
  have ht : ((leBytes 4 v.toNat).take j).length = j := by rw [List.length_take, hl]; omega
  refine ⟨s.placeBytes a ((leBytes 4 v.toNat).take j), writeBytes_unmapped (hl ▸ h), ⟨?_, ?_⟩, s.placeBytes_regs _ _,
    s.placeBytes_rest _ _⟩
  · intro k hk
    rw [State.placeBytes_byteAt _ _ _ (by rw [ht]; omega) (by rw [ht]; exact hk), List.getElem_take]
    simp only [leBytes_four]
    have : k = 0 ∨ k = 1 ∨ k = 2 ∨ k = 3 := by omega
    rcases this with rfl | rfl | rfl | rfl <;> rfl
  · intro x hx
    exact State.placeBytes_byteAt_other _ _ _ _ (by rw [ht]; exact hx)

/-! ### Everything a word access can do -/

@[simp] theorem State.reporting_bytesAt (s : State) (p : StepReport) (a : Word) (n : Nat) :
    (s.reporting p).bytesAt a n = s.bytesAt a n := rfl
@[simp] theorem State.set_bytesAt (s : State) (r : Reg) (v a : Word) (n : Nat) : (s.set r v).bytesAt a n = s.bytesAt a n := rfl
@[simp] theorem State.set_wordAt (s : State) (r : Reg) (v a : Word) : (s.set r v).wordAt a = s.wordAt a := rfl
/-- A word read answers a value or NotMapped, and only the free index can have moved. -/
theorem readWord_cases (a : Word) (s : State) :
    ∃ k, (∃ v, readWord a s = .ok v (s.useFree k)) ∨ (∃ x, readWord a s = .notMapped x (s.useFree k)) := by
  obtain ⟨k, ⟨v, h⟩ | ⟨x, h⟩⟩ := readBytes_state 4 a s
  · exact ⟨k, .inl ⟨leWord v, by rw [readWord, h]; rfl⟩⟩
  · exact ⟨k, .inr ⟨x, by rw [readWord, h]; rfl⟩⟩

theorem byteOf_leWord (b0 b1 b2 b3 : Byte) {k : Nat} (hk : k < 4) :
    [b0, b1, b2, b3][k]? = some (byteOf (leWord [b0, b1, b2, b3]) k) := by
  have h0 := b0.isLt
  have h1 := b1.isLt
  have h2 := b2.isLt
  have h3 := b3.isLt
  have : k = 0 ∨ k = 1 ∨ k = 2 ∨ k = 3 := by omega
  rcases this with rfl | rfl | rfl | rfl <;>
    simp only [List.getElem?_cons_zero, List.getElem?_cons_succ, Option.some.injEq] <;> apply BitVec.eq_of_toNat_eq <;>
    simp only [byteOf, leWord, leNat, BitVec.extractLsb'_toNat, BitVec.toNat_ofNat, Nat.shiftRight_eq_div_pow] <;> omega

/-- A word read of mapped addresses answers a value, with the RAM bytes that arrive in it. -/
theorem readWord_mapped {a : Word} {s : State} (h : MappedRange s.cfg a 4) :
    ∃ v k, readWord a s = .ok v (s.useFree k) ∧ ReadFrom s a v := by
  obtain ⟨v, k, e, hl, j, hj, h1, h2⟩ := readFrom_mapped 0 h
  refine ⟨leWord v, k, by rw [readWord, readBytes, e]; rfl, j, hj, fun i hi hr => ?_, h2⟩
  match v, hl with
  | [b0, b1, b2, b3], _ =>
    have := h1 i hi (Nat.zero_le i) hr
    rw [byteOf_leWord b0 b1 b2 b3 (by omega)] at this
    exact Option.some.inj this

/-- A word write answers or raises NotMapped; registers, latches, the queue and the output bit are kept either way. -/
theorem writeWord_cases (a v : Word) (s : State) :
    ∃ t, (writeWord a v s = .ok () t ∨ ∃ x, writeWord a v s = .notMapped x t) ∧ WriteKeeps s t :=
  writeBytes_state (leBytes 4 v.toNat) a s

/-- Only the configuration and memory, the queue's length, the latches and the device record matter to the invariant. -/
theorem State.Inv.congr {s t : State} (h : s.Inv) (hc : t.cfg = s.cfg) (hm : t.mem = s.mem) (hq : t.queue.length ≤ s.queue.length)
    (hf : t.fatal = s.fatal) (hh : s.halted = true → t.halted = true) (hd : t.devWrites = s.devWrites) : t.Inv where
  memWf := by rw [hm]; exact h.memWf
  memRam := by rw [hm, hc]; exact h.memRam
  queueDepth := fun d e => Nat.le_trans hq (h.queueDepth d (by rw [← hc]; exact e))
  fatalHalted := fun e => ⟨hh (h.fatalHalted (by rw [← hf]; exact e)).1, by rw [hc]; exact (h.fatalHalted (by rw [← hf]; exact e)).2⟩
  devices := by rw [hd, hc]; exact h.devices

/-- A byte stored where RAM is keeps the invariant. -/
theorem State.Inv.storeByte {s : State} (h : s.Inv) {a : Word} (b : Byte) (ha : RamAt s.cfg a) : (s.storeByte a b).Inv where
  memWf := State.storeByte_wf a b h.memWf
  memRam := fun cell hc => by
    rcases Memory.mem_write hc with rfl | hc
    · simpa using ha
    · exact h.memRam cell hc
  queueDepth := h.queueDepth
  fatalHalted := h.fatalHalted
  devices := h.devices

theorem ownerOf_mem {c : Config} {a : Word} {r : Region} (h : ownerOf c a = some r) : r ∈ c.map := by
  unfold ownerOf at h
  split at h
  · exact List.mem_of_find?_eq_some h
  · cases h

/-- A call of a device keeps the invariant. -/
theorem State.Inv.offer {s : State} (h : s.Inv) {a : Word} {r : Region} (bs : List Byte) (ho : ownerOf s.cfg a = some r)
    (hk : r.kind = .device) : (s.offer r a bs).Inv where
  memWf := h.memWf
  memRam := h.memRam
  queueDepth := h.queueDepth
  fatalHalted := h.fatalHalted
  devices := fun w hw => by
    rcases List.mem_append.1 hw with hw | hw
    · exact h.devices w hw
    · obtain rfl := List.mem_singleton.1 hw
      exact ⟨hk, ownerOf_mem ho, Nat.min_le_right _ _⟩

/-- Every write keeps the invariant, the part of it that stands below an unmapped byte too. -/
theorem writeBytes_inv {bs : List Byte} {a : Word} {s t : State} (hi : s.Inv)
    (h : writeBytes bs a s = .ok () t ∨ ∃ x, writeBytes bs a s = .notMapped x t) : t.Inv :=
  writeBytes_left (writeFrom_keeps State.Inv (fun _ _ b h ha => h.storeByte b ha) (fun _ _ _ bs h ho hk => h.offer bs ho hk)
    bs 0 a s hi) h

/-! ### A write to mapped addresses, RAM and devices mixed -/

/-- Runs that stand `m` bytes further on. -/
def shiftSpans (m : Nat) (spans : List (Nat × Nat)) : List (Nat × Nat) := spans.map fun p => (m + p.1, p.2)

/-- A call of the tail of a write is the same call of the whole. -/
theorem RunCall.shift {c : Config} {f : Nat → Byte} {n m : Nat} {a : Word} {k q : Nat} {w : DeviceWrite}
    (h : RunCall c (fun i => f (m + i)) n (a + BitVec.ofNat 32 m) k q w) : RunCall c f (m + n) a (m + k) q w where
  fits := ⟨h.fits.1, by have := h.fits.2; omega⟩
  device := h.device
  owner := fun i hi => by have := h.owner i hi; rwa [addr_add, addr_add, ← Nat.add_assoc] at this
  ends := by
    have := h.ends
    rw [addr_add, ← Nat.add_assoc] at this
    rcases this with h | h
    · exact .inl (by omega)
    · exact .inr h
  offset := by rw [← addr_add]; exact h.offset
  bytes := by rw [h.bytes]; simp only [Nat.add_assoc]

/-- The calls of the tail of a write, seen from its start. -/
theorem RunCalls.shift {c : Config} {f : Nat → Byte} {n m j : Nat} {a : Word} {spans : List (Nat × Nat)} {ws : List DeviceWrite}
    (h : RunCalls c (fun i => f (m + i)) n (a + BitVec.ofNat 32 m) j spans ws) :
    List.Forall₂ (fun p w => RunCall c f (m + n) a p.1 p.2 w ∧ CallOutcome (m + j) p w) (shiftSpans m spans) ws ∧
    ((shiftSpans m spans).Pairwise fun p q => p.1 + p.2 ≤ q.1) ∧
    ∀ k, m ≤ k → k < m + n → k ≤ m + j → DeviceAt c (a + BitVec.ofNat 32 k) →
      ∃ p, p ∈ shiftSpans m spans ∧ p.1 ≤ k ∧ k < p.1 + p.2 := by
  refine ⟨?_, ?_, ?_⟩
  · rw [shiftSpans, List.forall₂_map_left_iff]
    refine h.each.imp fun p w hp => ⟨hp.1.shift, ?_⟩
    rcases hp.2 with ⟨h1, h2⟩ | ⟨h1, h2⟩
    · exact .inl ⟨h1, by show m + p.1 + p.2 ≤ m + j; omega⟩
    · exact .inr ⟨h1, by show m + p.1 + w.accepted = m + j; omega⟩
  · rw [shiftSpans, List.pairwise_map]
    exact h.order.imp fun {p q} hpq => by show m + p.1 + p.2 ≤ m + q.1; omega
  · intro k hmk hkn hkj hd
    obtain ⟨p, hp, h1, h2⟩ := h.reached (k - m) (by omega) (by omega) (by
      rw [addr_add, show m + (k - m) = k by omega]; exact hd)
    exact ⟨(m + p.1, p.2), List.mem_map.2 ⟨p, hp, rfl⟩, by show m + p.1 ≤ k; omega, by show k < m + p.1 + p.2; omega⟩

/-- A byte stored in RAM, then the rest. -/
theorem Offered.cons_ram {f : Nat → Byte} {n j : Nat} {a : Word} {s t : State} (hn : n + 1 < 2 ^ 32) (hr : RamAt s.cfg a)
    (o : Offered (fun k => f (1 + k)) n (a + 1#32) j (s.storeByte a (f 0)) t) : Offered f (1 + n) a (1 + j) s t := by
  obtain ⟨ws, spans, hws, hc⟩ := o.calls
  obtain ⟨h1, h2, h3⟩ := hc.shift (f := f) (m := 1)
  have hb := o.bound
  refine ⟨by omega, fun hj => ?_, fun k hk hkr => ?_, fun x hx => ?_, ws, _, hws, h1, h2, fun k hk hkj hd => ?_⟩
  · have := o.refused (by omega)
    rwa [addr_succ, Nat.add_comm] at this
  · cases k with
    | zero =>
      rw [addr_zero, o.kept a, State.byteAt_storeByte_self]
      intro i hi _
      rw [addr_succ]
      exact (addr_succ_ne (by omega)).symm
    | succ k =>
      have := o.written k (by omega) (by rw [addr_succ]; exact hkr)
      rwa [addr_succ, Nat.add_comm 1] at this
  · rw [o.kept x, State.byteAt_storeByte, if_neg]
    · simpa using hx 0 (by omega) (by simpa using hr)
    · intro k hk hkr
      rw [addr_succ] at hkr ⊢
      exact hx (k + 1) (by omega) hkr
  · cases k with
    | zero => exact absurd (by simpa using hd) hr.not_device
    | succ k => exact h3 (k + 1) (by omega) hk hkj hd

/-- The call for the run of a device at the head of a write. -/
theorem RunCall.head {c : Config} {f : Nat → Byte} {n : Nat} {a : Word} {r : Region} {x : Nat} (ho : ownerOf c a = some r)
    (hk : r.kind = .device) :
    RunCall c f (n + 1) a 0 (runAfter c r n a + 1)
      ⟨r, deviceOffset r a, (List.range (runAfter c r n a + 1)).map f, x⟩ where
  fits := ⟨by omega, by have := (runAfter_spec c r n a).1; omega⟩
  device := hk
  owner := fun i hi => by simpa using runAfter_owner ho hi
  ends := by
    rw [Nat.zero_add]
    rcases (runAfter_spec c r n a).2.2 with h | h
    · exact .inl (by omega)
    · exact .inr h
  offset := by simp
  bytes := by simp

/-- A run that a device took whole, then the rest. -/
theorem Offered.cons_run {f : Nat → Byte} {n n' j : Nat} {a : Word} {r : Region} {s t : State} (ho : ownerOf s.cfg a = some r)
    (hk : r.kind = .device) (hn : runAfter s.cfg r n a + n' = n) (ht : runAfter s.cfg r n a < Config.deviceTransfers s.freeIndex)
    (o : Offered (fun k => f (runAfter s.cfg r n a + 1 + k)) n' (a + BitVec.ofNat 32 (runAfter s.cfg r n a + 1)) j
      (s.offer r a ((List.range (runAfter s.cfg r n a + 1)).map f)) t) :
    Offered f (n + 1) a (runAfter s.cfg r n a + 1 + j) s t := by
  obtain ⟨ws, spans, hws, hc⟩ := o.calls
  obtain ⟨h1, h2, h3⟩ := hc.shift (f := f)
  have hb := o.bound
  have hd : ∀ i, i < runAfter s.cfg r n a + 1 → DeviceAt s.cfg (a + BitVec.ofNat 32 i) := fun i hi => by
    simp [DeviceAt, (runAfter_owner ho hi).1, hk]
  have hhead := RunCall.head (f := f) (n := n) (x := runAfter s.cfg r n a + 1) ho hk
  simp only [State.offer_cfg] at h1 h3
  rw [show runAfter s.cfg r n a + 1 + n' = n + 1 by omega] at h1 h3
  refine ⟨by omega, fun hj => ?_, fun k hkj hkr => ?_, fun x hx => ?_,
    ⟨r, deviceOffset r a, (List.range (runAfter s.cfg r n a + 1)).map f, runAfter s.cfg r n a + 1⟩ :: ws,
    (0, runAfter s.cfg r n a + 1) :: shiftSpans (runAfter s.cfg r n a + 1) spans, ?_, ?_, ?_, fun k hkn hkj hkd => ?_⟩
  · have := o.refused (by omega)
    rwa [addr_add] at this
  · by_cases hlt : k < runAfter s.cfg r n a + 1
    · exact absurd (hd k hlt) hkr.not_device
    · have e : runAfter s.cfg r n a + 1 + (k - (runAfter s.cfg r n a + 1)) = k := by omega
      have := o.written (k - (runAfter s.cfg r n a + 1)) (by omega) (by rw [addr_add, e]; exact hkr)
      rwa [addr_add, e] at this
  · rw [o.kept x, State.offer_byteAt]
    intro k hkj hkr
    rw [addr_add] at hkr ⊢
    exact hx _ (by omega) hkr
  · rw [hws]
    simp only [State.offer_devWrites, List.length_map, List.length_range, List.append_assoc, List.singleton_append]
    rw [Nat.min_eq_right (by omega)]
  · exact .cons ⟨hhead, .inl ⟨rfl, by show 0 + (runAfter s.cfg r n a + 1) ≤ _; omega⟩⟩ h1
  · refine List.pairwise_cons.2 ⟨fun q hq => ?_, h2⟩
    obtain ⟨p, -, rfl⟩ := List.mem_map.1 hq
    show 0 + (runAfter s.cfg r n a + 1) ≤ runAfter s.cfg r n a + 1 + p.1
    omega
  · by_cases hlt : k < runAfter s.cfg r n a + 1
    · exact ⟨_, List.mem_cons_self, Nat.zero_le _, by show k < 0 + (runAfter s.cfg r n a + 1); omega⟩
    · obtain ⟨p, hp, h4⟩ := h3 k (by omega) hkn hkj hkd
      exact ⟨p, List.mem_cons_of_mem _ hp, h4⟩

/-- A run that a device did not take whole: the write ends there. -/
theorem Offered.short {f : Nat → Byte} {n : Nat} {a : Word} {r : Region} {s : State} (ho : ownerOf s.cfg a = some r)
    (hk : r.kind = .device) (ht : ¬runAfter s.cfg r n a < Config.deviceTransfers s.freeIndex) :
    Offered f (n + 1) a (Config.deviceTransfers s.freeIndex) s (s.offer r a ((List.range (runAfter s.cfg r n a + 1)).map f)) := by
  have hd : ∀ i, i < runAfter s.cfg r n a + 1 → DeviceAt s.cfg (a + BitVec.ofNat 32 i) := fun i hi => by
    simp [DeviceAt, (runAfter_owner ho hi).1, hk]
  have hle := (runAfter_spec s.cfg r n a).1
  refine ⟨by omega, fun _ => hd (Config.deviceTransfers s.freeIndex) (by omega), fun k hkj hkr => absurd (hd k (by omega)) hkr.not_device, fun x _ => rfl,
    _, [(0, runAfter s.cfg r n a + 1)], State.offer_devWrites .., .cons ⟨RunCall.head ho hk, ?_⟩ .nil, List.pairwise_singleton _ _,
    fun k hkn hkj _ => ⟨_, List.mem_singleton.2 rfl, Nat.zero_le _, by show k < 0 + (runAfter s.cfg r n a + 1); omega⟩⟩
  have hm : min (Config.deviceTransfers s.freeIndex) ((List.range (runAfter s.cfg r n a + 1)).map f).length =
      Config.deviceTransfers s.freeIndex := by simp only [List.length_map, List.length_range]; omega
  simp only [CallOutcome, hm]
  omega

/-- The bytes of a call are taken with it. -/
theorem writeFrom_skip (bs : List Byte) (left : Nat) (a : Word) (s : State) :
    writeFrom bs left a s = writeFrom (bs.drop left) 0 (a + BitVec.ofNat 32 left) s := by
  induction bs generalizing left a with
  | nil => simp [writeFrom]
  | cons b rest ih =>
    cases left with
    | zero => simp
    | succ left => simp only [writeFrom, ih, List.drop_succ_cons, addr_succ]

/-- The first bytes of a list, by their numbers. -/
theorem take_eq_range_map {bs : List Byte} {f : Nat → Byte} (hf : ∀ k (h : k < bs.length), bs[k] = f k) {m : Nat}
    (hm : m ≤ bs.length) : bs.take m = (List.range m).map f := by
  apply List.ext_getElem
  · simp [hm]
  · intro i h1 h2
    simp only [List.length_take] at h1
    simp [hf i (by omega)]

theorem writeFrom_offered (N : Nat) : ∀ (bs : List Byte) (f : Nat → Byte), bs.length ≤ N →
    (∀ k (h : k < bs.length), bs[k] = f k) → ∀ (a : Word) (s : State), bs.length < 2 ^ 32 → MappedRange s.cfg a bs.length →
    ∃ t j, writeFrom bs 0 a s = .ok () t ∧ Offered f bs.length a j s t ∧ WriteKeeps s t := by
  induction N with
  | zero =>
    intro bs f hN _ a s _ _
    obtain rfl := List.length_eq_zero_iff.1 (Nat.le_zero.1 hN)
    exact ⟨s, 0, rfl, ⟨Nat.le_refl _, by simp, by simp, fun _ _ => rfl, [], [], by simp, .nil, .nil, by simp⟩, .refl s⟩
  | succ N ih =>
    intro bs f hN hf a s hl h
    cases bs with
    | nil => exact ⟨s, 0, rfl, ⟨Nat.le_refl _, by simp, by simp, fun _ _ => rfl, [], [], by simp, .nil, .nil, by simp⟩, .refl s⟩
    | cons b rest =>
      simp only [List.length_cons] at hN hl h ⊢
      obtain ⟨r, ho⟩ := h.head
      simp only [writeFrom, ho]
      cases hk : r.kind with
      | ram =>
        obtain rfl : b = f 0 := hf 0 (by simp)
        obtain ⟨t, j, e, o, k⟩ := ih rest (fun k => f (1 + k)) (by omega)
          (fun k hk => by rw [Nat.add_comm]; exact hf (k + 1) (by simpa using hk)) (a + 1#32) (s.storeByte a (f 0)) (by omega) h.tail
        exact ⟨t, 1 + j, e, by rw [Nat.add_comm]; exact o.cons_ram hl (by simp [RamAt, ho, hk]), WriteKeeps.trans (.storeByte ..) k⟩
      | device =>
        have hle := (runAfter_spec s.cfg r rest.length a).1
        have hrun : b :: rest.take (runAfter s.cfg r rest.length a) =
            (List.range (runAfter s.cfg r rest.length a + 1)).map f := by
          rw [← List.take_succ_cons]
          exact take_eq_range_map hf (by simpa using hle)
        rw [hrun]
        by_cases ht : runAfter s.cfg r rest.length a < Config.deviceTransfers s.freeIndex
        · simp only [ht, if_true]
          rw [writeFrom_skip, addr_succ]
          obtain ⟨t, j, e, o, k⟩ := ih (rest.drop (runAfter s.cfg r rest.length a))
            (fun k => f (runAfter s.cfg r rest.length a + 1 + k)) (by simp; omega)
            (fun k hk => by
              rw [List.getElem_drop, show runAfter s.cfg r rest.length a + 1 + k =
                runAfter s.cfg r rest.length a + k + 1 by omega]
              exact hf (runAfter s.cfg r rest.length a + k + 1) (by simp at hk ⊢; omega))
            (a + BitVec.ofNat 32 (runAfter s.cfg r rest.length a + 1))
            (s.offer r a ((List.range (runAfter s.cfg r rest.length a + 1)).map f)) (by simp; omega)
            (fun k hk => by
              rw [addr_add]
              exact h _ (by simp at hk; omega))
          exact ⟨t, _, e, o.cons_run ho hk (by simp; omega) ht, WriteKeeps.trans (.offer ..) k⟩
        · simp only [ht, if_false]
          exact ⟨_, _, rfl, .short ho hk ht, .offer ..⟩

/-- A word written to mapped addresses. -/
theorem writeWord_mapped {a v : Word} {s : State} (h : MappedRange s.cfg a 4) :
    ∃ t, writeWord a v s = .ok () t ∧ OfferedWord a v s t ∧ WriteKeeps s t := by
  have hl : (leBytes 4 v.toNat).length = 4 := leBytes_length 4 _
  obtain ⟨t, j, e, o, k⟩ := writeFrom_offered 4 (leBytes 4 v.toNat) (byteOf v) (by omega) (fun k hk => by
    rw [hl] at hk
    simp only [leBytes_four]
    have : k = 0 ∨ k = 1 ∨ k = 2 ∨ k = 3 := by omega
    rcases this with rfl | rfl | rfl | rfl <;> rfl) a s (by omega) (by rw [hl]; exact h)
  rw [hl] at o
  exact ⟨t, e, ⟨k.cfg, k.halted, k.fatal, k.queue, k.report, j, o⟩, k⟩

end Sys2Proof.Machine
end

