-- ==== Sys2Proof/Laws/Decode.lean ====
section
/-! SUPPORT. The fields of a packed opcode word, the register fields, and the byte order of words. -/

namespace Sys2Proof

theorem getLsbD_packOp (g f1 f2 f3 : BitVec 4) (i : Nat) :
    (packOp g f1 f2 f3).getLsbD i =
      if i < 4 then g.getLsbD i else if i - 4 < 4 then f1.getLsbD (i - 4)
      else if i - 4 - 4 < 4 then f2.getLsbD (i - 4 - 4) else f3.getLsbD (i - 4 - 4 - 4) := by
  show (f3 ++ f2 ++ f1 ++ g : BitVec (4 + 4 + 4 + 4)).getLsbD i = _
  rw [BitVec.getLsbD_append, BitVec.getLsbD_append, BitVec.getLsbD_append]

@[simp] theorem opGrp_packOp (g f1 f2 f3 : BitVec 4) : opGrp (packOp g f1 f2 f3) = g := by
  apply BitVec.eq_of_getLsbD_eq
  intro i hi
  simp [opGrp, getLsbD_packOp, hi]

@[simp] theorem opF1_packOp (g f1 f2 f3 : BitVec 4) : opF1 (packOp g f1 f2 f3) = f1 := by
  apply BitVec.eq_of_getLsbD_eq
  intro i hi
  simp [opF1, getLsbD_packOp, hi]

@[simp] theorem opF2_packOp (g f1 f2 f3 : BitVec 4) : opF2 (packOp g f1 f2 f3) = f2 := by
  apply BitVec.eq_of_getLsbD_eq
  intro i hi
  have h1 : ¬ 8 + i < 4 := by omega
  have h2 : 8 + i - 4 - 4 = i := by omega
  have h3 : ¬ 8 + i - 4 < 4 := by omega
  simp only [opF2, BitVec.getLsbD_extractLsb', getLsbD_packOp, h1, h2, h3, hi, if_true, if_false, decide_true, Bool.true_and]

@[simp] theorem opF3_packOp (g f1 f2 f3 : BitVec 4) : opF3 (packOp g f1 f2 f3) = f3 := by
  apply BitVec.eq_of_getLsbD_eq
  intro i hi
  have h1 : ¬ 12 + i < 4 := by omega
  have h2 : ¬ 12 + i - 4 < 4 := by omega
  have h3 : ¬ 12 + i - 4 - 4 < 4 := by omega
  have h4 : 12 + i - 4 - 4 - 4 = i := by omega
  simp only [opF3, BitVec.getLsbD_extractLsb', getLsbD_packOp, h1, h2, h3, h4, hi, if_false, decide_true, Bool.true_and]

/-- A word is its four fields. -/
theorem packOp_fields (w : OpWord) : packOp (opGrp w) (opF1 w) (opF2 w) (opF3 w) = w := by
  apply BitVec.eq_of_getLsbD_eq
  intro i hi
  simp only [getLsbD_packOp, opGrp, opF1, opF2, opF3, BitVec.getLsbD_extractLsb']
  by_cases h1 : i < 4
  · simp [h1]
  · by_cases h2 : i - 4 < 4
    · have : 4 + (i - 4) = i := by omega
      simp [h1, h2, this]
    · by_cases h3 : i - 4 - 4 < 4
      · have : 8 + (i - 4 - 4) = i := by omega
        simp [h1, h2, h3, this]
      · have h4 : i - 4 - 4 - 4 < 4 := by omega
        have : 12 + (i - 4 - 4 - 4) = i := by omega
        simp [h1, h2, h3, h4, this]

@[simp] theorem Reg.ofField_field (r : Reg) : Reg.ofField r.field = r := by cases r <;> rfl

@[simp] theorem Reg.field_ofField (k : BitVec 4) : (Reg.ofField k).field = k := by revert k; decide

theorem leNat_leBytes (n v : Nat) : leNat (leBytes n v) = v % 256 ^ n := by
  induction n generalizing v with
  | zero => simp [leBytes, leNat, Nat.mod_one]
  | succ n ih =>
    have h := Nat.mod_mul (x := v) (a := 256) (b := 256 ^ n)
    rw [leBytes, leNat, ih, BitVec.toNat_ofNat, show 256 ^ (n + 1) = 256 * 256 ^ n by ring]
    exact h.symm

@[simp] theorem leOpWord_leBytes (w : OpWord) : leOpWord (leBytes 2 w.toNat) = w := by
  have h := w.isLt
  rw [leOpWord, leNat_leBytes, Nat.mod_eq_of_lt (by omega)]
  simp

@[simp] theorem leWord_leBytes (w : Word) : leWord (leBytes 4 w.toNat) = w := by
  have h := w.isLt
  rw [leWord, leNat_leBytes, Nat.mod_eq_of_lt (by omega)]
  simp

end Sys2Proof
end

