-- ==== Sys2Proof/Laws/Ops.lean ====
section
/-! SUPPORT. One lemma for each shared operation, saying once what it can do: the interrupt gate, the stack, the delivery of an
interrupt and the return from one. -/

namespace Sys2Proof.Machine

/-! ### The interrupt gate -/

/-- What a request can do: it is appended, or the state is untouched. -/
theorem State.raiseIrq_cases (s : State) (n : IrqNum) :
    ((s.gateOpen && s.queueHasRoom) = true ∧ s.raiseIrq n = { s with queue := s.queue ++ [n] }) ∨
    ((s.gateOpen && s.queueHasRoom) = false ∧ s.raiseIrq n = s) := by
  unfold State.raiseIrq
  cases h : s.gateOpen && s.queueHasRoom
  · exact .inr ⟨rfl, by simp⟩
  · exact .inl ⟨rfl, by simp⟩

@[simp] theorem State.raiseIrq_regs (s : State) (n : IrqNum) : (s.raiseIrq n).regs = s.regs := by
  obtain ⟨-, h⟩ | ⟨-, h⟩ := s.raiseIrq_cases n <;> rw [h]
@[simp] theorem State.raiseIrq_get (s : State) (n : IrqNum) (r : Reg) : (s.raiseIrq n).get r = s.get r := by
  simp [State.get]
@[simp] theorem State.raiseIrq_cfg (s : State) (n : IrqNum) : (s.raiseIrq n).cfg = s.cfg := by
  obtain ⟨-, h⟩ | ⟨-, h⟩ := s.raiseIrq_cases n <;> rw [h]
@[simp] theorem State.raiseIrq_halted (s : State) (n : IrqNum) : (s.raiseIrq n).halted = s.halted := by
  obtain ⟨-, h⟩ | ⟨-, h⟩ := s.raiseIrq_cases n <;> rw [h]
@[simp] theorem State.raiseIrq_fatal (s : State) (n : IrqNum) : (s.raiseIrq n).fatal = s.fatal := by
  obtain ⟨-, h⟩ | ⟨-, h⟩ := s.raiseIrq_cases n <;> rw [h]
@[simp] theorem State.raiseIrq_mem (s : State) (n : IrqNum) : (s.raiseIrq n).mem = s.mem := by
  obtain ⟨-, h⟩ | ⟨-, h⟩ := s.raiseIrq_cases n <;> rw [h]
@[simp] theorem State.raiseIrq_byteAt (s : State) (n : IrqNum) (a : Word) : (s.raiseIrq n).byteAt a = s.byteAt a := by
  simp [State.byteAt]
@[simp] theorem State.raiseIrq_devWrites (s : State) (n : IrqNum) : (s.raiseIrq n).devWrites = s.devWrites := by
  obtain ⟨-, h⟩ | ⟨-, h⟩ := s.raiseIrq_cases n <;> rw [h]
@[simp] theorem State.raiseIrq_freeIndex (s : State) (n : IrqNum) : (s.raiseIrq n).freeIndex = s.freeIndex := by
  obtain ⟨-, h⟩ | ⟨-, h⟩ := s.raiseIrq_cases n <;> rw [h]
@[simp] theorem State.raiseIrq_report (s : State) (n : IrqNum) : (s.raiseIrq n).report = s.report := by
  obtain ⟨-, h⟩ | ⟨-, h⟩ := s.raiseIrq_cases n <;> rw [h]

/-- The gate looks only at STATUS, the depth and the queue. -/
theorem State.raiseIrq_queue_congr {s t : State} (n : IrqNum) (hs : t.get .status = s.get .status) (hc : t.cfg = s.cfg)
    (hq : t.queue = s.queue) : (t.raiseIrq n).queue = (s.raiseIrq n).queue := by
  have hg : (t.gateOpen && t.queueHasRoom) = (s.gateOpen && s.queueHasRoom) := by
    simp only [State.gateOpen, State.queueHasRoom, State.flag, hs, hc, hq]
  unfold State.raiseIrq
  rw [hg]
  split <;> simp [hq]

/-- An abandoned access: the request is all that is added. -/
theorem MemFaulted.of_raise {s t : State} (hr : t.regs = s.regs) (h : KeepsRest s t) : MemFaulted s (t.raiseIrq irqMemFault) where
  cfg := by simp [h.cfg]
  halted := by simp [h.halted]
  fatal := by simp [h.fatal]
  devWrites := by simp [h.devWrites]
  freeIndex := by simp [h.freeIndex]
  regs := by intro r _; simp [State.get, hr]
  report := by simp [h.report]
  queue := State.raiseIrq_queue_congr _ (by simp [State.get, hr]) h.cfg h.queue

theorem KeepsRest.refl (s : State) : KeepsRest s s := ⟨⟨rfl, rfl, rfl, rfl, rfl⟩, rfl, rfl⟩

/-! ### The stack -/

theorem State.pushThen_ram {s : State} {v : Word} {k : State → State} (h : RamRange s.cfg s.pushSlot 4) :
    ∃ t, writeWord s.pushSlot v s = .ok () t ∧ s.pushThen v k = k (t.set .sp s.pushSlot) := by
  obtain ⟨t, ht, -⟩ := writeWord_ram (v := v) h
  exact ⟨t, ht, by simp [State.pushThen, ht, Bus.orFault]⟩

theorem State.pushThen_unmapped {s : State} {v : Word} {k : State → State} {j : Nat} (h : FirstUnmapped s.cfg s.pushSlot 4 j) :
    MemFaulted s (s.pushThen v k) ∧ Stored s.pushSlot v j s (s.pushThen v k) := by
  obtain ⟨t, ht, hs, hr, hk⟩ := writeWord_unmapped (v := v) h
  have e : s.pushThen v k = t.raiseIrq irqMemFault := by simp [State.pushThen, ht, Bus.orFault]
  rw [e]
  exact ⟨MemFaulted.of_raise hr hk, by simpa [Stored, KeepsMemOutside] using hs⟩

theorem State.popThen_ram {s : State} {k : Word → State → State} (h : RamRange s.cfg (s.get .sp) 4) :
    s.popThen k = k (s.wordAt (s.get .sp)) (s.set .sp (s.get .sp + 4#32)) := by
  simp [State.popThen, readWord_ram h, Bus.orFault]

theorem State.popThen_unmapped {s : State} {k : Word → State → State} {j : Nat}
    (h : FirstUnmapped s.cfg (s.get .sp) 4 j) : s.popThen k = s.raiseIrq irqMemFault := by
  simp [State.popThen, readWord_unmapped h, Bus.orFault]

/-! ### The return from an interrupt -/

theorem State.returnFromInterrupt_ram {s : State} (h : RamRange s.cfg (s.get .sp) 8) :
    s.returnFromInterrupt =
      ((s.set .sp (s.get .sp + 8#32)).set .status (rtiStatus (s.wordAt (s.get .sp)) (s.get .status))).set .ip
        (s.wordAt (s.get .sp + 4#32)) := by
  obtain ⟨h1, h2⟩ := RamRange.split (m := 4) (n := 4) h
  have h2' : RamRange s.cfg (s.get .sp + 4#32) 4 := h2
  simp [State.returnFromInterrupt, readWord_ram h1, readWord_ram h2', Bus.orFault]

theorem State.returnFromInterrupt_unmapped {s : State} {j : Nat} (h : FirstUnmapped s.cfg (s.get .sp) 8 j) :
    s.returnFromInterrupt = s.raiseIrq irqMemFault := by
  obtain ⟨hj, hr, hu⟩ := h
  by_cases hlt : j < 4
  · simp [State.returnFromInterrupt, readWord_unmapped (j := j) ⟨hlt, hr, hu⟩, Bus.orFault]
  · have h1 : RamRange s.cfg (s.get .sp) 4 := fun k hk => hr k (by omega)
    have h2 : FirstUnmapped s.cfg (s.get .sp + 4#32) 4 (j - 4) := by
      refine ⟨by omega, fun k hk => ?_, ?_⟩
      · have := hr (4 + k) (by omega)
        rwa [← addr_add] at this
      · have e : (s.get .sp + 4#32) + BitVec.ofNat 32 (j - 4) = s.get .sp + BitVec.ofNat 32 j := by
          rw [show (4#32 : Word) = BitVec.ofNat 32 4 from rfl, addr_add]; congr 2; omega
        rw [Unmapped, e]; exact hu
    simp [State.returnFromInterrupt, readWord_ram h1, readWord_unmapped h2, Bus.orFault]

/-- SLEEP after RTI is the stacked bit and the live one; every other bit is the stacked one. -/
theorem rtiStatus_bit (stacked live : Word) (k : Nat) :
    (rtiStatus stacked live).getLsbD k = (stacked.getLsbD k && (live.getLsbD 5 || decide (k ≠ 5))) := by
  by_cases h : flagOf live .sleep = true
  · have h5 : live.getLsbD 5 = true := h
    simp [rtiStatus, h, h5]
  · have h5 : live.getLsbD 5 = false := by simpa [flagOf, Flag.bit] using h
    rw [h5, rtiStatus, if_neg h, getLsbD_withoutFlag, show Flag.sleep.bit = 5 from rfl]
    by_cases hk : k = 5 <;> simp [hk]

/-! ### The delivery of an interrupt -/

/-- A delivery onto a RAM stack: both words are written, then SP, STATUS, the queue and IP. -/
theorem State.deliver_ram {s : State} {n : IrqNum} {rest : List IrqNum}
    (h1 : RamRange s.cfg (s.get .sp - 4#32) 4) (h2 : RamRange s.cfg (s.get .sp - 8#32) 4) :
    ∃ t u, writeWord (s.get .sp - 4#32) (s.get .ip) s = .ok () t ∧ writeWord (s.get .sp - 8#32) (s.get .status) t = .ok () u ∧
      s.deliver n rest =
        { (u.set .sp (s.get .sp - 8#32)).set .status (withoutFlag (withFlag (s.get .status) .intFlag) .intEnabled) with
          queue := rest }.set .ip (s.vectorOf n) := by
  obtain ⟨t, ht, -, -, -, hk⟩ := writeWord_ram (v := s.get .ip) h1
  obtain ⟨u, hu, -⟩ := writeWord_ram (s := t) (v := s.get .status) (a := s.get .sp - 8#32) (by rw [hk.cfg]; exact h2)
  exact ⟨t, u, ht, hu, by simp [State.deliver, ht, hu, Bus.orFault]⟩

/-! ### Everything the stack operations can do -/

/-- A push and what follows: a fault after the bytes below the unmapped one, or the rest with SP moved. -/
theorem State.pushThen_cases (s : State) (v : Word) (k : State → State) :
    ∃ t, (writeWord s.pushSlot v s = .ok () t ∨ ∃ x, writeWord s.pushSlot v s = .notMapped x t) ∧ WriteKeeps s t ∧
      (s.pushThen v k = t.raiseIrq irqMemFault ∨ s.pushThen v k = k (t.set .sp s.pushSlot)) := by
  obtain ⟨t, h, hk⟩ := writeWord_cases s.pushSlot v s
  refine ⟨t, h, hk, ?_⟩
  rcases h with h | ⟨x, h⟩
  · exact .inr (by simp [State.pushThen, h, Bus.orFault])
  · exact .inl (by simp [State.pushThen, h, Bus.orFault])

/-- A pop and what follows: a fault, or the rest with the value and SP moved. -/
theorem State.popThen_cases (s : State) (k : Word → State → State) :
    ∃ n, s.popThen k = (s.useFree n).raiseIrq irqMemFault ∨
      ∃ v, s.popThen k = k v ((s.useFree n).set .sp (s.get .sp + 4#32)) := by
  obtain ⟨n, ⟨v, h⟩ | ⟨x, h⟩⟩ := readWord_cases (s.get .sp) s
  · exact ⟨n, .inr ⟨v, by simp [State.popThen, h, Bus.orFault]⟩⟩
  · exact ⟨n, .inl (by simp [State.popThen, h, Bus.orFault])⟩

/-- A return from an interrupt: a fault, or the three registers written. -/
theorem State.returnFromInterrupt_cases (s : State) :
    ∃ n, s.returnFromInterrupt = (s.useFree n).raiseIrq irqMemFault ∨
      ∃ st p, s.returnFromInterrupt =
        (((s.useFree n).set .sp (s.get .sp + 8#32)).set .status (rtiStatus st (s.get .status))).set .ip p := by
  obtain ⟨m, ⟨v, h⟩ | ⟨x, h⟩⟩ := readWord_cases (s.get .sp) s
  · obtain ⟨n, ⟨p, h'⟩ | ⟨x, h'⟩⟩ := readWord_cases (s.get .sp + 4#32) (s.useFree m)
    · exact ⟨m + n, .inr ⟨v, p, by simp [State.returnFromInterrupt, h, h', Bus.orFault, State.useFree_useFree]⟩⟩
    · exact ⟨m + n, .inl (by simp [State.returnFromInterrupt, h, h', Bus.orFault, State.useFree_useFree])⟩
  · exact ⟨m, .inl (by simp [State.returnFromInterrupt, h, Bus.orFault])⟩

/-- A delivery: a fault of the first push, of the second, or the whole of it. -/
theorem State.deliver_cases (s : State) (n : IrqNum) (rest : List IrqNum) :
    ∃ t, (writeWord (s.get .sp - 4#32) (s.get .ip) s = .ok () t ∨
        ∃ x, writeWord (s.get .sp - 4#32) (s.get .ip) s = .notMapped x t) ∧ WriteKeeps s t ∧
      (s.deliver n rest = t.raiseIrq irqMemFault ∨
       ∃ u, (writeWord (s.get .sp - 8#32) (s.get .status) t = .ok () u ∨
          ∃ x, writeWord (s.get .sp - 8#32) (s.get .status) t = .notMapped x u) ∧ WriteKeeps t u ∧
        (s.deliver n rest = u.raiseIrq irqMemFault ∨
         s.deliver n rest =
          { (u.set .sp (s.get .sp - 8#32)).set .status (withoutFlag (withFlag (s.get .status) .intFlag) .intEnabled) with
            queue := rest }.set .ip (s.vectorOf n))) := by
  obtain ⟨t, h, hk⟩ := writeWord_cases (s.get .sp - 4#32) (s.get .ip) s
  refine ⟨t, h, hk, ?_⟩
  rcases h with h | ⟨x, h⟩
  · obtain ⟨u, h', hk'⟩ := writeWord_cases (s.get .sp - 8#32) (s.get .status) t
    refine .inr ⟨u, h', hk', ?_⟩
    rcases h' with h' | ⟨x, h'⟩
    · exact .inr (by simp [State.deliver, h, h', Bus.orFault])
    · exact .inl (by simp [State.deliver, h, h', Bus.orFault])
  · exact .inl (by simp [State.deliver, h, Bus.orFault])

/-- A request keeps the invariant. -/
theorem State.Inv.raiseIrq {s : State} (h : s.Inv) (n : IrqNum) : (s.raiseIrq n).Inv := by
  obtain ⟨hg, e⟩ | ⟨-, e⟩ := s.raiseIrq_cases n
  · rw [e]
    refine ⟨h.memWf, h.memRam, fun d hd => ?_, h.fatalHalted, h.devices⟩
    have hd' : s.cfg.irqDepth = some d := hd
    rw [Bool.and_eq_true, State.queueHasRoom, hd'] at hg
    have := of_decide_eq_true hg.2
    simpa using this
  · rw [e]; exact h

end Sys2Proof.Machine
end

