-- ==== Sys2Proof/Laws/Exec.lean ====
section
/-! SUPPORT. What the shared shapes of the instruction meanings do: an ALU result, a compare, a register write, a false condition,
the fetch of an instruction and the cases of a step. -/

namespace Sys2Proof.Machine

/-- An ALU result has the result, the flags and the frame of one. -/
theorem AluResult.of_setAccum (s : State) (r : Word) (f : Nums) :
    AluResult s (s.setAccum r f) r (f.z = true) (f.n = true) (f.c = true) (f.e = true) := by
  obtain ⟨hz, hn, hc, he⟩ := s.setAccum_flags r f
  refine ⟨s.setAccum_accum r f, ⟨by rw [hz], by rw [hn], by rw [hc], by rw [he]⟩, ?_, ?_, fun a => rfl, ⟨⟨rfl, rfl, rfl, rfl, rfl⟩, rfl, rfl⟩⟩
  · intro q hq
    simp only [List.mem_cons, List.not_mem_nil, or_false, not_or] at hq
    exact s.setAccum_get_ne r f hq.1 hq.2
  · intro k hk
    rw [s.setAccum_status]
    exact getLsbD_setNumWord_high _ _ hk

/-- A compare has the flags and the frame of one. -/
theorem FlagFrame.of_setNum (s : State) (f : Nums) :
    NumsAre (s.setNum f) (f.z = true) (f.n = true) (f.c = true) (f.e = true) ∧ FlagFrame s (s.setNum f) := by
  obtain ⟨hz, hn, hc, he⟩ := s.setNum_flags f
  refine ⟨⟨by rw [hz], by rw [hn], by rw [hc], by rw [he]⟩, ?_, ?_, fun a => rfl, ⟨⟨rfl, rfl, rfl, rfl, rfl⟩, rfl, rfl⟩⟩
  · intro q hq
    exact s.setNum_get_ne f (by simpa using hq)
  · intro k hk
    rw [s.setNum_status]
    exact getLsbD_setNumWord_high _ _ hk

/-- A register write has the frame of one. -/
theorem RegFrame.of_set (s : State) (r : Reg) (v : Word) : RegFrame [r] s (s.set r v) :=
  ⟨fun q hq => s.get_set_ne v (by simpa using hq), fun _ => rfl, ⟨⟨rfl, rfl, rfl, rfl, rfl⟩, rfl, rfl⟩⟩

theorem State.whenCond_true {s : State} {cc : Cond} (h : s.cond cc = true) (k : State → State) : s.whenCond cc k = k s := by
  simp [State.whenCond, h]

theorem State.whenCond_false {s : State} {cc : Cond} (h : s.cond cc = false) (k : State → State) : s.whenCond cc k = s := by
  simp [State.whenCond, h]

/-! ### The cases of a step -/

theorem step_rest {s : State} (hw : s.cfg.wf = true) (h : s.nextCase = .rest) : step s = .next (s.reporting .idle) := by
  simp [step, hw, h]

theorem step_deliver {s : State} {n : IrqNum} {rest : List IrqNum} (hw : s.cfg.wf = true)
    (h : s.nextCase = .deliver n rest) : step s = .next ((s.reporting .progress).deliver n rest) := by
  simp [step, hw, h]

theorem step_fetch {s : State} (hw : s.cfg.wf = true) (h : s.nextCase = .fetch) :
    step s = (s.reporting .progress).fetchExecute := by
  simp [step, hw, h]

/-- The fetch of a 2-byte instruction from RAM. -/
theorem fetch_short {s : State} {i : Instr} (hr : RamRange s.cfg (s.get .ip) 2)
    (hd : decodeWord (leOpWord (s.bytesAt (s.get .ip) 2)) = .ok i) (hl : i.hasLiteral = false) :
    fetch s = .run i (s.opcodeFetched (leOpWord (s.bytesAt (s.get .ip) 2))) := by
  simp [fetch, readOpWord_ram hr, hd, hl]

/-- The fetch of a 6-byte instruction whose opcode word is in RAM. -/
theorem fetch_long {s : State} {i : Instr} (hr : RamRange s.cfg (s.get .ip) 2)
    (hd : decodeWord (leOpWord (s.bytesAt (s.get .ip) 2)) = .ok i) (hl : i.hasLiteral = true) :
    fetch s = fetchLiteral i (s.opcodeFetched (leOpWord (s.bytesAt (s.get .ip) 2))) := by
  simp [fetch, readOpWord_ram hr, hd, hl]

/-- The fetch of an unknown word. -/
theorem fetch_unknown {s : State} {e : DecodeReject} (hr : RamRange s.cfg (s.get .ip) 2)
    (hd : decodeWord (leOpWord (s.bytesAt (s.get .ip) 2)) = .error e) :
    fetch s = .over (s.opcodeFetched (leOpWord (s.bytesAt (s.get .ip) 2))).unknownOp := by
  simp [fetch, readOpWord_ram hr, hd]

/-- The fetch from an unmapped address. -/
theorem fetch_unmapped {s : State} {j : Nat} (h : FirstUnmapped s.cfg (s.get .ip) 2 j) :
    fetch s = .over (s.raiseIrq irqMemFault) := by
  simp [fetch, readOpWord_unmapped h]

end Sys2Proof.Machine
end

