-- ==== Sys2Proof/Laws/PerInstr.lean ====
section
/-! SUPPORT. The family EncodeLength: every instruction encodes to as many bytes as it is long (30_encoding.md R100). -/

namespace Sys2Proof.Laws.EncodeLength

/-- The encoding of an instruction is 2 bytes long, or 6 with a literal. -/
def Statement (i : Instr) : Prop := (encode i).length = i.length

theorem nop : Statement .nop := rfl
theorem not (ra : Reg) : Statement (.not ra) := rfl
theorem or (ra : Reg) : Statement (.or ra) := rfl
theorem xor (ra : Reg) : Statement (.xor ra) := rfl
theorem and (ra : Reg) : Statement (.and ra) := rfl
theorem bsl (rn rk : Reg) : Statement (.bsl rn rk) := rfl
theorem bsr (rn rk : Reg) : Statement (.bsr rn rk) := rfl
theorem int (n8 : IrqNum) : Statement (.int n8) := rfl
theorem halt : Statement .halt := rfl
theorem sleep : Statement .sleep := rfl
theorem sie : Statement .sie := rfl
theorem cie : Statement .cie := rfl
theorem ret : Statement .ret := rfl
theorem rti : Statement .rti := rfl
theorem inc (rd : Reg) (cc : Cond) (ro : Reg) (lit : Word) : Statement (.inc rd cc ro lit) := rfl
theorem cmpi (ra rb : Reg) : Statement (.cmpi ra rb) := rfl
theorem addi (ra : Reg) : Statement (.addi ra) := rfl
theorem subi (ra : Reg) : Statement (.subi ra) := rfl
theorem muli (ra : Reg) : Statement (.muli ra) := rfl
theorem divi (ra : Reg) : Statement (.divi ra) := rfl
theorem modi (ra : Reg) : Statement (.modi ra) := rfl
theorem cmpu (ra rb : Reg) : Statement (.cmpu ra rb) := rfl
theorem addu (ra : Reg) : Statement (.addu ra) := rfl
theorem subu (ra : Reg) : Statement (.subu ra) := rfl
theorem mulu (ra : Reg) : Statement (.mulu ra) := rfl
theorem divu (ra : Reg) : Statement (.divu ra) := rfl
theorem modu (ra : Reg) : Statement (.modu ra) := rfl
theorem cmpf (ra rb : Reg) : Statement (.cmpf ra rb) := rfl
theorem addf (ra : Reg) : Statement (.addf ra) := rfl
theorem subf (ra : Reg) : Statement (.subf ra) := rfl
theorem mulf (ra : Reg) : Statement (.mulf ra) := rfl
theorem divf (ra : Reg) : Statement (.divf ra) := rfl
theorem modf (ra : Reg) : Statement (.modf ra) := rfl
theorem load (rd : Reg) (cc : Cond) (ro : Reg) (lit : Word) : Statement (.load rd cc ro lit) := rfl
theorem pop (rd : Reg) : Statement (.pop rd) := rfl
theorem call (cc : Cond) (ro : Reg) (lit : Word) : Statement (.call cc ro lit) := rfl
theorem mov (rd rs : Reg) : Statement (.mov rd rs) := rfl
theorem dec (rd : Reg) (cc : Cond) (ro : Reg) (lit : Word) : Statement (.dec rd cc ro lit) := rfl
theorem loadl (rd : Reg) (cc : Cond) (ro : Reg) (lit : Word) : Statement (.loadl rd cc ro lit) := rfl
theorem store (rd : Reg) (cc : Cond) (ro : Reg) (lit : Word) : Statement (.store rd cc ro lit) := rfl
theorem push (rs : Reg) : Statement (.push rs) := rfl

end Sys2Proof.Laws.EncodeLength
end

