-- ==== Sys2Proof/Tests/Slice0.lean ====
section
/-! SUPPORT. Tests: the checks of WellFormed, a word of the spec for every constructor, the worked examples of the instruction rules,
and for every statement with hypotheses a state that meets them. Expected values come from the spec. -/

namespace Sys2Proof.Tests

open Sys2Proof Sys2Proof.Machine

/-! ### WellFormed: each check refuses an ill-formed configuration -/

theorem test_wf_suggested : Config.suggested.wf = true := by decide

/-- PAGE_SIZE must be a power of two (00_scope.md R5). -/
theorem test_wf_pageSize_power : ({ Config.suggested with pageSize := 3000 } : Config).pageSizeOk = false := by decide

/-- PAGE_SIZE must be at least 2. -/
theorem test_wf_pageSize_least : ({ Config.suggested with pageSize := 1 } : Config).pageSizeOk = false := by decide

/-- PAGE_SIZE * PAGE_COUNT must fit the address space. -/
theorem test_wf_pageCount : ({ Config.suggested with pageCount := 1048577 } : Config).pageCountOk = false := by decide

/-- A region must be page-aligned (20_memory.md R70). -/
theorem test_wf_base : ({ Config.suggested with map := [⟨0, 0x800, 0x1000, .ram⟩] } : Config).regionsOk = false := by decide

/-- A region must be a whole number of pages. -/
theorem test_wf_size : ({ Config.suggested with map := [⟨0, 0, 0x1001, .ram⟩] } : Config).regionsOk = false := by decide

/-- A region must end below PAGE_COUNT (20_memory.md R68). -/
theorem test_wf_end : ({ Config.suggested with map := [⟨0, 0x3FF000, 0x2000, .ram⟩] } : Config).regionsOk = false := by decide

/-- Two regions must share no page. -/
theorem test_wf_overlap :
    mapDisjoint 4096 [⟨0, 0, 0x2000, .ram⟩, ⟨1, 0x1000, 0x1000, .device⟩] = false := by decide

/-- A region of no bytes claims no page: it shares none, wherever it lies, and the map takes it (20_memory.md R68). -/
theorem test_wf_empty_region :
    ({ Config.suggested with map := [⟨0, 0, 0x2000, .ram⟩, ⟨1, 0x1000, 0, .device⟩, ⟨2, 0x500000, 0, .device⟩] } : Config).wf = true ∧
    (match addRegion Config.suggested ⟨1, 0x1000, 0, .device⟩ with
     | .ok c => c.wf
     | .error _ => false) = true := by decide

/-- A region on an occupied page is refused, one beside it is added, and an unmapped address cannot be removed (20_memory.md R68). -/
theorem test_map_add_remove :
    (match addRegion Config.suggested ⟨1, 0x1000, 0x2000, .device⟩ with
     | .error (.alreadyMapped _) => true
     | _ => false) = true ∧
    (match addRegion Config.suggested ⟨1, 0x2000, 0x1000, .device⟩ with
     | .ok c => decide (ownerOf c 0x2FFF = some ⟨1, 0x2000, 0x1000, .device⟩) && c.wf
     | .error _ => false) = true ∧
    (match removeRegion Config.suggested 0x2000 with
     | .error (.notMapped _) => true
     | _ => false) = true := by decide

/-- A queue must have room for one request. -/
theorem test_wf_depth : ({ Config.suggested with irqDepth := some 0 } : Config).irqDepthOk = false := by decide

/-- CANON_NAN must be a NaN: an infinity is not (41_arith_float.md R171). -/
theorem test_wf_canonNan : ({ Config.suggested with canonNan := 0x7F800000#32 } : Config).canonNanOk = false := by decide

/-! ### Decoding: words written out from 30_encoding.md R110 and R128 -/

/-- What a word decodes to. -/
def dec (w : OpWord) : Option Instr :=
  match decodeWord w with
  | .ok i => some i
  | .error _ => none

theorem test_decode_group0 :
    dec 0x0000 = some .nop ∧ dec 0x0210 = some (.not .r2) ∧ dec 0x0220 = some (.or .r2) ∧ dec 0x0230 = some (.xor .r2) ∧
    dec 0x0240 = some (.and .r2) ∧ dec 0x1250 = some (.bsl .r2 .r1) ∧ dec 0x1260 = some (.bsr .r2 .r1) ∧
    dec 0x0970 = some (.int 9) ∧ dec 0x0080 = some .halt ∧ dec 0x0090 = some .sleep ∧ dec 0x00A0 = some .sie ∧
    dec 0x00B0 = some .cie ∧ dec 0x00C0 = some .ret ∧ dec 0x00D0 = some .rti := by decide

theorem test_decode_arithmetic :
    dec 0x3202 = some (.cmpi .r2 .r3) ∧ dec 0x0212 = some (.addi .r2) ∧ dec 0x0222 = some (.subi .r2) ∧
    dec 0x0232 = some (.muli .r2) ∧ dec 0x0242 = some (.divi .r2) ∧ dec 0x0252 = some (.modi .r2) ∧
    dec 0xF203 = some (.cmpu .r2 .ins) ∧ dec 0x0213 = some (.addu .r2) ∧ dec 0x0223 = some (.subu .r2) ∧
    dec 0x0233 = some (.mulu .r2) ∧ dec 0x0243 = some (.divu .r2) ∧ dec 0x0253 = some (.modu .r2) ∧
    dec 0x3204 = some (.cmpf .r2 .r3) ∧ dec 0x0214 = some (.addf .r2) ∧ dec 0x0224 = some (.subf .r2) ∧
    dec 0x0234 = some (.mulf .r2) ∧ dec 0x0244 = some (.divf .r2) ∧ dec 0x0254 = some (.modf .r2) := by decide

theorem test_decode_one_level :
    dec 0xF1C1 = some (.inc .ip 1 .ins 0) ∧ dec 0x2015 = some (.load .r1 0 .r2 0) ∧ dec 0x00C6 = some (.pop .ip) ∧
    dec 0xF007 = some (.call 0 .ins 0) ∧ dec 0x0028 = some (.mov .r2 .r0) ∧ dec 0xF029 = some (.dec .r2 0 .ins 0) ∧
    dec 0xF00A = some (.loadl .r0 0 .ins 0) ∧ dec 0xF00D = some (.store .r0 0 .ins 0) ∧
    dec 0x001E = some (.push .r1) := by decide

/-- The literal follows the opcode word, least significant byte first: `LOADL IP, 0x200` and `STORE R0, [0x0FFE]`. -/
theorem test_decode_literal :
    decode [0xCA, 0xF0, 0x00, 0x02, 0x00, 0x00] = .ok (.loadl .ip 0 .ins 0x200, []) ∧
    decode [0x0D, 0xF0, 0xFE, 0x0F, 0x00, 0x00, 0x80] = .ok (.store .r0 0 .ins 0xFFE, [0x80]) := by decide

/-- 0xFFFF, group 0 keys 0xE and 0xF, group 4 key 6, and groups 0xB and 0xC select nothing (30_encoding.md R108). -/
theorem test_decode_unknown :
    dec 0xFFFF = none ∧ dec 0x00E0 = none ∧ dec 0x00F0 = none ∧ dec 0x0064 = none ∧ dec 0x000B = none ∧ dec 0x000C = none := by
  decide

/-- The host's reading: the literal of `LOADL R0, 5` in the bits above the opcode word, and a table word with no literal bits. -/
theorem test_decodeTableWord :
    decodeTableWord 48 0x5F00A = some (.loadl .r0 0 .ins 5) ∧ decodeTableWord 16 0xF00A = some (.loadl .r0 0 .ins 0) ∧
    decodeTableWord 16 0x0212 = some (.addi .r2) ∧ decodeTableWord 16 0x000F = none := by decide

/-! ### Small states -/

/-- The reset state with some registers and RAM cells set. -/
def st (regs : List (Reg × Word)) (cells : List Host.Cell := []) : State :=
  regs.foldl (fun s p => s.set p.1 p.2) { State.reset with mem := cells }

/-- The next state of an outcome. -/
def nextOf : Host.Outcome State Fault Refusal → Option State
  | .next t => some t
  | .fault _ => none
  | .refused _ => none

/-- Registers of the next state of an instruction. -/
def regsOf (i : Instr) (s : State) (rs : List Reg) : Option (List Word) := (nextOf (exec i s)).map fun t => rs.map t.get

/-- ACCUM and STATUS of the next state. -/
def alu (i : Instr) (regs : List (Reg × Word)) : Option (List Word) := regsOf i (st regs) [.accum, .status]

/-- Four bytes of memory of the next state. -/
def bytesOf (i : Instr) (s : State) (a : Word) : Option (List Byte) := (nextOf (exec i s)).map fun t => t.bytesAt a 4

/-! ### The worked examples and corner cases of the instruction rules -/

theorem test_cmpi : alu (.cmpi .r2 .r3) [(.r2, 0xFFFFFFFF), (.r3, 1)] = some [0, 2] ∧
    alu (.cmpi .ins .ins) [(.ins, 7)] = some [0, 1] := by decide
theorem test_cmpu : alu (.cmpu .r3 .r2) [(.r2, 0xFFFFFFFF), (.r3, 1)] = some [0, 4] ∧
    alu (.cmpu .ins .r2) [(.r2, 5), (.ins, 9)] = some [0, 4] := by decide
theorem test_addi : alu (.addi .r2) [(.r0, 0x7FFFFFFF), (.r2, 1), (.status, 0xF5)] = some [0x80000000, 0xFA] ∧
    alu (.addi .r2) [(.r0, 0xFFFFFFFF), (.r2, 0xFFFFFFFF)] = some [0xFFFFFFFE, 2] := by decide
theorem test_addu : alu (.addu .r2) [(.r0, 0xFFFFFFFF), (.r2, 2)] = some [1, 4] ∧
    alu (.addu .r2) [(.r0, 0x80000000), (.r2, 0x80000000)] = some [0, 13] := by decide
theorem test_subi : alu (.subi .r2) [(.r0, 2), (.r2, 5)] = some [0xFFFFFFFD, 6] ∧
    alu (.subi .r2) [(.r0, 0x80000000), (.r2, 1)] = some [0x7FFFFFFF, 8] := by decide
theorem test_subu : alu (.subu .r2) [(.r0, 0), (.r2, 0xFFFFFFFF)] = some [1, 0] ∧
    alu (.subu .r0) [(.r0, 5)] = some [0, 1] := by decide
theorem test_muli : alu (.muli .r2) [(.r0, 0x10000), (.r2, 0xFFFF0000)] = some [0, 11] ∧
    alu (.muli .r2) [(.r0, 0x8000), (.r2, 0x10000)] = some [0x80000000, 8] := by decide
theorem test_mulu : alu (.mulu .r2) [(.r0, 0xFFFFFFFF), (.r2, 2)] = some [0xFFFFFFFE, 10] ∧
    alu (.mulu .r2) [(.r0, 6), (.r2, 7)] = some [42, 0] := by decide
theorem test_divi : alu (.divi .r2) [(.r0, 0xFFFFFFF9), (.r2, 2)] = some [0xFFFFFFFD, 2] ∧
    alu (.divi .r2) [(.r0, 0x80000000), (.r2, 0xFFFFFFFF)] = some [0x80000000, 10] := by decide
theorem test_modi : alu (.modi .r2) [(.r0, 0xFFFFFFF9), (.r2, 2)] = some [0xFFFFFFFF, 2] ∧
    alu (.modi .r2) [(.r0, 7), (.r2, 0), (.status, 0x17)] = some [7, 0x18] := by decide
theorem test_divu : alu (.divu .r2) [(.r0, 0xFFFFFFF9), (.r2, 2)] = some [0x7FFFFFFC, 0] ∧
    alu (.divu .r2) [(.r0, 9), (.status, 7)] = some [9, 8] := by decide
theorem test_modu : alu (.modu .r2) [(.r0, 0xFFFFFFFF), (.r2, 0x80000000)] = some [0x7FFFFFFF, 0] ∧
    alu (.modu .r2) [(.r0, 0xFFFFFFFF), (.r2, 0xFFFFFFFF)] = some [0, 1] := by decide
theorem test_cmpf : alu (.cmpf .r2 .r3) [(.r2, 0x3F800000), (.r3, 0x40000000)] = some [0, 2] ∧
    alu (.cmpf .r2 .r3) [(.r2, 0x7FC00000), (.r3, 0xFFC00001)] = some [0, 9] := by decide +kernel
theorem test_addf : alu (.addf .r2) [(.r0, 0x3FC00000), (.r2, 0x40100000)] = some [0x40700000, 0] ∧
    alu (.addf .r2) [(.r0, 0x7F7FFFFF), (.r2, 0x7F7FFFFF)] = some [0x7F800000, 0] := by decide +kernel
theorem test_subf : alu (.subf .r2) [(.r0, 0x3FC00000), (.r2, 0x40100000)] = some [0xBF400000, 2] ∧
    alu (.subf .r2) [(.r0, 0x7F800000), (.r2, 0x7F800000)] = some [0x7FC00000, 0] := by decide +kernel
theorem test_mulf : alu (.mulf .r2) [(.r0, 0x40400000), (.r2, 0xC0000000)] = some [0xC0C00000, 2] ∧
    alu (.mulf .r2) [(.r0, 0xBF800000), (.r2, 0)] = some [0x80000000, 1] := by decide +kernel
theorem test_divf : alu (.divf .r2) [(.r0, 0xBF800000), (.r2, 0)] = some [0xFF800000, 2] ∧
    alu (.divf .r2) [(.r0, 0x7FC00001), (.r2, 0)] = some [0x7FC00000, 8] := by decide +kernel
theorem test_modf : alu (.modf .r2) [(.r0, 0xC0B00000), (.r2, 0x40000000)] = some [0xBFC00000, 2] ∧
    alu (.modf .r2) [(.r0, 0xC0800000), (.r2, 0x40000000)] = some [0x80000000, 1] := by decide +kernel
theorem test_not : alu (.not .r2) [(.r0, 5), (.r2, 0x0000FFFF)] = some [0xFFFF0000, 2] := by decide
theorem test_or : alu (.or .r2) [(.r0, 0xF0), (.r2, 0x0F), (.status, 0x1F)] = some [0xFF, 0x10] := by decide
theorem test_xor : alu (.xor .r0) [(.r0, 0xFF)] = some [0, 1] := by decide
theorem test_and : alu (.and .r2) [(.r0, 0xFF), (.r2, 0xF0F)] = some [0x0F, 0] := by decide
theorem test_bsl : regsOf (.bsl .r2 .r1) (st [(.r0, 0x80000001), (.r2, 1)]) [.r0, .r1, .status] = some [2, 1, 4] ∧
    regsOf (.bsl .r2 .r1) (st [(.r0, 1), (.r2, 36), (.r1, 0xF8)]) [.r0, .r1, .status] = some [0x18, 0, 0] := by decide
theorem test_bsr : regsOf (.bsr .r2 .r1) (st [(.r0, 3), (.r2, 1)]) [.r0, .r1, .status] = some [1, 0x80000000, 4] ∧
    regsOf (.bsr .r2 .r0) (st [(.r0, 0x80000001), (.r2, 0)]) [.r0, .status] = some [0x80000001, 2] := by decide
theorem test_load :
    regsOf (.load .r1 0 .r2 4) (st [(.r2, 0x1000)] [(0x1004, 0x78), (0x1005, 0x56), (0x1006, 0x34), (0x1007, 0x12)]) [.r1] =
      some [0x12345678] := by decide
theorem test_store :
    bytesOf (.store .r0 0 .ins 0xFFE) (st [(.r0, 0x11223344), (.ins, 0xF00D)]) 0xFFE = some [0x44, 0x33, 0x22, 0x11] := by
  decide
theorem test_loadl : regsOf (.loadl .ip 0 .ins 0x200) (st [(.ip, 6)]) [.ip] = some [0x200] := by decide
theorem test_mov : regsOf (.mov .r2 .r0) (st [(.r0, 7)]) [.r2] = some [7] := by decide
theorem test_inc : regsOf (.inc .ip 1 .ins 6) (st [(.ip, 0x1C), (.status, 1)]) [.ip] = some [0x22] ∧
    regsOf (.inc .ip 1 .ins 6) (st [(.ip, 0x1C), (.status, 0x10)]) [.ip] = some [0x1C] := by decide
theorem test_dec : regsOf (.dec .r2 0 .ins 1) (st [(.r2, 5)]) [.r2] = some [4] ∧
    regsOf (.dec .r2 0 .ins 1) (st []) [.r2] = some [0xFFFFFFFF] := by decide
theorem test_push :
    bytesOf (.push .r1) (st [(.r1, 0x11223344)]) 0x1FFC = some [0x44, 0x33, 0x22, 0x11] ∧
    regsOf (.push .sp) (st []) [.sp] = some [0x1FFC] := by decide
theorem test_pop :
    regsOf (.pop .sp) (st [(.sp, 0x1FFC)] [(0x1FFC, 0x44), (0x1FFD, 0x33), (0x1FFE, 0x22), (0x1FFF, 0x11)]) [.sp] =
      some [0x11223344] := by decide
theorem test_call :
    regsOf (.call 0 .ins 0x20) (st [(.ip, 0x12)]) [.sp, .ip] = some [0x1FFC, 0x20] ∧
    bytesOf (.call 0 .ins 0x20) (st [(.ip, 0x12)]) 0x1FFC = some [0x12, 0, 0, 0] := by decide
theorem test_ret : regsOf .ret (st [(.sp, 0x1FFC)] [(0x1FFC, 0x12)]) [.sp, .ip] = some [0x2000, 0x12] := by decide
theorem test_nop : nextOf (exec .nop State.reset) = some State.reset := by decide
theorem test_int : (nextOf (exec (.int 9) (st [(.status, 0x10)]))).map State.queue = some [0, 9] ∧
    (nextOf (exec (.int 9) (st []))).map State.queue = some [0] := by decide
theorem test_halt : (nextOf (exec .halt (st []))).map (fun t => (t.halted, t.report)) = some (true, .idle) := by decide
theorem test_sleep : regsOf .sleep (st [(.status, 0x10)]) [.status] = some [0x30] := by decide
theorem test_sie : regsOf .sie (st []) [.status] = some [0x10] := by decide
theorem test_cie : regsOf .cie (st [(.status, 0x11)]) [.status] = some [0x01] := by decide

/-- The two cases of the example of 46_system.md R257. -/
theorem test_rti :
    regsOf .rti (st [(.sp, 0x1FF8), (.status, 0x60)] [(0x1FF8, 0x31), (0x1FFC, 0x24)]) [.sp, .status, .ip] =
      some [0x2000, 0x31, 0x24] ∧
    regsOf .rti (st [(.sp, 0x1FF8), (.status, 0x40)] [(0x1FF8, 0x31), (0x1FFC, 0x24)]) [.sp, .status, .ip] =
      some [0x2000, 0x11, 0x24] := by decide

/-! ### Steps -/

/-- Registers of the state after one step. -/
def stepRegs (s : State) (rs : List Reg) : Option (List Word) := (nextOf (step s)).map fun t => rs.map t.get

/-- The worked delivery of 60_exceptions.md R296. -/
theorem test_step_delivery :
    stepRegs { st [(.ip, 0xA), (.status, 0x11), (.isr, 0x100)] with queue := [9, 12] } [.sp, .status, .ip] =
      some [0x1FF8, 0x41, 0x148] := by decide

/-- Step 1 of the boot image of 70_reset_and_hazards.md R324. -/
theorem test_step_boot :
    stepRegs (State.reset.loadImage [0xCA, 0xF0, 0x40, 0x00, 0x00, 0x00]) [.ip, .ins] = some [0x40, 0xF0CA] := by decide

/-- An unknown word with the gate closed is a 2-byte no-operation (60_exceptions.md R278). -/
theorem test_step_unknown :
    stepRegs (State.reset.withFetchWord 16 0xFFFF) [.ip, .ins, .status] = some [2, 0xFFFF, 0] := by decide

/-- A table word runs as the first instruction after reset. -/
theorem test_withFetchWord : stepRegs (State.reset.withFetchWord 48 0x5F00A) [.r0, .ip] = some [5, 6] := by decide

/-! ### A state for the hypotheses of every statement that has some -/

/-- A map with a device behind the RAM: RAM 0x0000..0x1FFF, a device 0x2000..0x2FFF. -/
def devCfg : Config := { Config.suggested with map := [⟨0, 0, 0x2000, .ram⟩, ⟨1, 0x2000, 0x1000, .device⟩] }

/-- RAM in page 1 only. -/
def highCfg : Config := { Config.suggested with map := [⟨0, 0x1000, 0x1000, .ram⟩] }

/-- Pages of two bytes, with a hole at 2 and 3. -/
def holeCfg : Config :=
  { Config.suggested with pageSize := 2, pageCount := 16, map := [⟨0, 0, 2, .ram⟩, ⟨1, 4, 8, .ram⟩] }

/-- A state under another configuration. -/
def under (c : Config) (s : State) : State := { s with cfg := c }

/-- A state with another queue. -/
def queued (q : List IrqNum) (s : State) : State := { s with queue := q }

/-- The next state of an outcome, which is one for every outcome used below. -/
def goOn (o : Host.Outcome State Fault Refusal) : State :=
  match o with
  | .next t => t
  | .fault _ => State.reset
  | .refused _ => State.reset

theorem witness_DecodeFollowsOpcodeMap :
    (⟨"ADDI", 0x0012, 0x00FF, 2⟩ : OpcodeRow) ∈ opcodeRows ∧ (0xF212#16 &&& 0x00FF#16) = 0x0012#16 ∧
    decodeWord 0xF212 = .ok (.addi .r2) := by decide

theorem witness_IgnoredBitsDoNotMatter :
    decodeWord 0xF212 = .ok (.addi .r2) ∧
    (0x0212#16 &&& ~~~(Instr.addi .r2).ignoredBits) = (0xF212#16 &&& ~~~(Instr.addi .r2).ignoredBits) := by decide

/-- A 2-byte and a 6-byte instruction at the end of RAM. -/
theorem witness_StepRunsDecodedInstruction :
    (let s := st [(.ip, 0x1FFE)] [(0x1FFE, 0x80)]
     s.cfg.wf = true ∧ s.nextCase = .fetch ∧ RamRange s.cfg (s.get .ip) (Instr.length .halt) ∧
      decode (s.bytesAt (s.get .ip) (Instr.length .halt)) = .ok (.halt, [])) ∧
    (let s := st [(.ip, 0x1FFA)] [(0x1FFA, 0xCA), (0x1FFB, 0xF0), (0x1FFD, 2)]
     s.cfg.wf = true ∧ s.nextCase = .fetch ∧ RamRange s.cfg (s.get .ip) (Instr.length (.loadl .ip 0 .ins 0x200)) ∧
      decode (s.bytesAt (s.get .ip) (Instr.length (.loadl .ip 0 .ins 0x200))) = .ok (.loadl .ip 0 .ins 0x200, [])) := by
  decide

/-- A halted core and one asleep with a request it cannot take. -/
theorem witness_StepCases :
    (let s := { st [] with halted := true }
     s.cfg.wf = true ∧ s.nextCase = .rest) ∧
    (let s := st [(.status, 0x20)]
     s.cfg.wf = true ∧ s.nextCase = .rest ∧ s.queue = [0]) ∧
    (st [(.status, 0x30)]).nextCase = .deliver 0 [] ∧ (queued [] (st [(.status, 0x30)])).nextCase = .rest ∧
    (st [(.status, 0x60)]).nextCase = .fetch := by decide

theorem witness_NothingStopsTheRun :
    State.reset.cfg.wf = true ∧
    (under { Config.suggested with pageSize := 3 } State.reset).cfg.wf = false := by decide

/-- A delivery at the top and at the bottom of RAM, and onto a device. -/
theorem witness_DeliverySavesAndVectors :
    (let s := queued [9, 12] (st [(.ip, 0xA), (.status, 0x11), (.isr, 0x100)])
     s.cfg.wf = true ∧ s.nextCase = .deliver 9 [12] ∧ RamRange s.cfg (s.get .sp - 8#32) 8 ∧
      MappedRange s.cfg (s.get .sp - 8#32) 8) ∧
    (let s := st [(.sp, 8), (.status, 0x30)]
     s.nextCase = .deliver 0 [] ∧ RamRange s.cfg (s.get .sp - 8#32) 8) ∧
    (let s := under devCfg (st [(.sp, 0x3000), (.status, 0x10)])
     s.cfg.wf = true ∧ s.nextCase = .deliver 0 [] ∧ MappedRange s.cfg (s.get .sp - 8#32) 8) := by decide

/-- The first push faults at its first and at its last byte; the second at its first byte and at its third. -/
theorem witness_DeliveryFaultAbandons :
    (let s := st [(.sp, 0), (.status, 0x10)]
     s.cfg.wf = true ∧ s.nextCase = .deliver 0 [] ∧ FirstUnmapped s.cfg (s.get .sp - 4#32) 4 0) ∧
    (let s := st [(.sp, 0x2001), (.status, 0x10)]
     s.nextCase = .deliver 0 [] ∧ FirstUnmapped s.cfg (s.get .sp - 4#32) 4 3) ∧
    (let s := under highCfg (st [(.sp, 0x1004), (.status, 0x10)])
     s.cfg.wf = true ∧ s.nextCase = .deliver 0 [] ∧ RamRange s.cfg (s.get .sp - 4#32) 4 ∧
      FirstUnmapped s.cfg (s.get .sp - 8#32) 4 0) ∧
    (let s := under holeCfg (st [(.sp, 8), (.status, 0x10)])
     s.cfg.wf = true ∧ s.nextCase = .deliver 0 [] ∧ RamRange s.cfg (s.get .sp - 4#32) 4 ∧
      FirstUnmapped s.cfg (s.get .sp - 8#32) 4 2) := by decide

theorem witness_UnknownWordStep :
    (let s := st [] [(0, 0xFF), (1, 0xFF)]
     s.cfg.wf = true ∧ s.cfg.strict = false ∧ s.nextCase = .fetch ∧ RamRange s.cfg (s.get .ip) 2 ∧
      decodeWord (leOpWord (s.bytesAt (s.get .ip) 2)) = .error (.unknownKey 0xFFFF)) ∧
    (let s := under { Config.suggested with strict := true } (st [(.ip, 0x1FFE)] [(0x1FFE, 0x0B)])
     s.cfg.wf = true ∧ s.cfg.strict = true ∧ s.nextCase = .fetch ∧ RamRange s.cfg (s.get .ip) 2 ∧
      decodeWord (leOpWord (s.bytesAt (s.get .ip) 2)) = .error (.unknownKey 0x000B)) := by decide

/-- The opcode word faults at its first and at its second byte, the literal at its first and at its last. -/
theorem witness_FetchFaults :
    (let s := st [(.ip, 0x2000)]
     s.cfg.wf = true ∧ s.nextCase = .fetch ∧ FirstUnmapped s.cfg (s.get .ip) 2 0) ∧
    (let s := st [(.ip, 0x1FFF)]
     s.nextCase = .fetch ∧ FirstUnmapped s.cfg (s.get .ip) 2 1) ∧
    (let s := st [(.ip, 0x1FFE)] [(0x1FFE, 0x0A), (0x1FFF, 0xF0)]
     s.nextCase = .fetch ∧ RamRange s.cfg (s.get .ip) 2 ∧
      decodeWord (leOpWord (s.bytesAt (s.get .ip) 2)) = .ok (.loadl .r0 0 .ins 0) ∧
      (Instr.loadl .r0 0 .ins 0).hasLiteral = true ∧ FirstUnmapped s.cfg (s.get .ip + 2#32) 4 0) ∧
    (let s := st [(.ip, 0x1FFB)] [(0x1FFB, 0x0A), (0x1FFC, 0xF0)]
     s.nextCase = .fetch ∧ RamRange s.cfg (s.get .ip) 2 ∧
      decodeWord (leOpWord (s.bytesAt (s.get .ip) 2)) = .ok (.loadl .r0 0 .ins 0) ∧
      FirstUnmapped s.cfg (s.get .ip + 2#32) 4 3) := by decide

/-- The gate open by each of its bits with room for one more, closed, and open on a full queue. -/
theorem witness_RequestGate :
    (let s := under { Config.suggested with irqDepth := some 2 } (st [(.status, 0x10)])
     s.flag .intEnabled = true ∧ s.cfg.irqDepth = some 2 ∧ s.queue.length = 1) ∧
    (st [(.status, 0x40)]).flag .intFlag = true ∧ (st [(.status, 0x40)]).cfg.irqDepth = none ∧
    (st [(.status, 0xAF)]).flag .intEnabled = false ∧ (st [(.status, 0xAF)]).flag .intFlag = false ∧
    (let s := under { Config.suggested with irqDepth := some 1 } (st [(.status, 0x50)])
     s.flag .intEnabled = true ∧ s.cfg.irqDepth = some 1 ∧ s.queue.length = 1) := by decide

theorem witness_DeadSleepEndsOnlyByReset :
    (let s := st [(.status, 0x0F)]
     s.flag .intEnabled = false ∧ s.flag .intFlag = false ∧ nextOf (exec .sleep s) = some (goOn (exec .sleep s))) ∧
    (let s := st [(.status, 0x20)]
     s.cfg.wf = true ∧ s.deadSleep = true) ∧
    Event.reset ∉ [Event.step, Event.irq 5, Event.stop] := by decide

theorem witness_HaltedUntilReset :
    (let s := { st [(.status, 0x10)] with halted := true }
     s.cfg.wf = true ∧ s.halted = true) ∧
    Event.reset ∉ [Event.irq 9, Event.step, Event.stop] := by decide

/-- IP unmapped at its first and at its second byte, with INT_FLAG clear and set, with and without a depth. -/
theorem witness_FetchFaultLivelock :
    (let s := st [(.ip, 0x2000)]
     s.cfg.wf = true ∧ s.nextCase = .fetch ∧ s.flag .intEnabled = false ∧ s.flag .intFlag = false ∧
      FirstUnmapped s.cfg (s.get .ip) 2 0) ∧
    (let s := st [(.ip, 0x1FFF), (.status, 0x60)]
     s.nextCase = .fetch ∧ s.flag .intEnabled = false ∧ s.flag .intFlag = true ∧ s.cfg.irqDepth = none ∧
      FirstUnmapped s.cfg (s.get .ip) 2 1) ∧
    (let s := under { Config.suggested with irqDepth := some 1 } (st [(.ip, 0x2000), (.status, 0x40)])
     s.cfg.wf = true ∧ s.nextCase = .fetch ∧ s.flag .intFlag = true ∧ s.cfg.irqDepth = some 1 ∧
      FirstUnmapped s.cfg (s.get .ip) 2 0) := by decide

/-- A frame at the top of RAM; one that faults at its first byte, and one at its last. -/
theorem witness_RtiRestoresStatusAndIp :
    RamRange (st [(.sp, 0x1FF8)]).cfg ((st [(.sp, 0x1FF8)]).get .sp) 8 ∧
    FirstUnmapped (st []).cfg ((st []).get .sp) 8 0 ∧
    FirstUnmapped (st [(.sp, 0x1FF9)]).cfg ((st [(.sp, 0x1FF9)]).get .sp) 8 7 := by decide

/-- The delivery of R296, and RTI run two instruction bytes later with INS written. -/
theorem witness_RtiUndoesDelivery :
    let s := queued [9, 12] (st [(.ip, 0xA), (.status, 0x11), (.isr, 0x100)])
    let t := goOn (step s)
    let u := (t.set .ins 0xD0).set .ip 0x14A
    s.cfg.wf = true ∧ s.nextCase = .deliver 9 [12] ∧ RamRange s.cfg (s.get .sp - 8#32) 8 ∧
    nextOf (step s) = some t ∧ u.regs.set 12 (t.get .ip) = t.regs.set 15 (u.get .ins) ∧ u.mem = t.mem ∧ u.cfg = t.cfg ∧
    u.queue = t.queue ∧ nextOf (exec .rti u) = some (goOn (exec .rti u)) := by decide

theorem witness_PendingResetInterrupt :
    (let s := st [(.r2, 5)]
     nextOf (s.event .reset) = some s.resetInput) ∧
    (let s := st []
     s.queue = [0] ∧ nextOf (exec .sie s) = some (goOn (exec .sie s)) ∧ (goOn (exec .sie s)).halted = false ∧
      (goOn (exec .sie s)).flag .intEnabled = true) := by decide

/-- A state with RAM, a full queue, and a device write on record. -/
def busy : State :=
  { under { devCfg with irqDepth := some 1 } (st [(.status, 0x50)] [(0, 0x80)]) with
    devWrites := [⟨⟨1, 0x2000, 0x1000, .device⟩, 4, [7, 8], 1⟩] }

theorem busy_inv : busy.Inv where
  memWf := by decide
  memRam := by
    intro cell h
    have h' : cell ∈ ([(0, 0x80)] : Memory) := h
    obtain rfl := List.mem_singleton.1 h'
    decide
  queueDepth := by
    intro d h
    obtain rfl : 1 = d := by simpa [busy, under, devCfg] using h
    decide
  fatalHalted := by intro h; exact absurd h (by decide)
  devices := by
    intro w h
    obtain rfl : w = ⟨⟨1, 0x2000, 0x1000, .device⟩, 4, [7, 8], 1⟩ := by simpa [busy] using h
    decide

/-- A delivery, which writes memory, from a state that meets the invariant. -/
theorem witness_StepKeepsInvariant : busy.Inv ∧ nextOf (step busy) = some (goOn (step busy)) := ⟨busy_inv, by decide⟩

theorem witness_InputsKeepInvariant :
    busy.cfg.wf = true ∧ busy.Inv ∧ Event.reset ≠ .step ∧ nextOf (busy.event .reset) = some busy.resetInput ∧
    nextOf (busy.event (.irq 3)) = some (busy.irq 3) :=
  ⟨by decide, busy_inv, by decide, by decide, by decide⟩

/-- An image byte at the last RAM address, and one at the first address behind it, which is not RAM. -/
theorem witness_InputsKeepInvariant_load :
    ([7] : List Byte)[0]? = some 7 ∧ RamAt busy.cfg (BitVec.ofNat 32 0) ∧ ([7] : List Byte).length ≤ 2 ^ 32 ∧
    RamAt busy.cfg 0x1FFF ∧ ¬RamAt busy.cfg 0x2000 ∧ ([7] : List Byte).length ≤ (1#32 : Word).toNat ∧
    (State.reset.loadImage [7, 9]).byteAt 1 = 9 := by decide

theorem witness_ConfigurationIsFixed :
    nextOf (State.reset.events [.irq 1, .step, .stop]) = some (goOn (State.reset.events [.irq 1, .step, .stop])) := by decide

theorem witness_OnlyHaltHalts :
    nextOf (exec .halt State.reset) = some (goOn (exec .halt State.reset)) ∧
    nextOf (exec .sie State.reset) = some (goOn (exec .sie State.reset)) ∧ Instr.sie ≠ .halt ∧ Instr.sie ≠ .sleep := by
  decide

/-- One instruction for each clause. -/
theorem witness_StatusWriters :
    (let i := Instr.bsl .r2 .r1
     i.fieldDest ≠ some .status ∧ i.isAlu = true ∧ nextOf (exec i State.reset) = some (goOn (exec i State.reset))) ∧
    Instr.sie.fieldDest ≠ some .status ∧ Instr.cie.fieldDest ≠ some .status ∧ Instr.sleep.fieldDest ≠ some .status ∧
    (let i := Instr.pop .r3
     i.fieldDest ≠ some .status ∧ i.isAlu = false ∧ i ∉ [.sie, .cie, .sleep, .rti] ∧
      nextOf (exec i State.reset) = some (goOn (exec i State.reset))) := by decide

theorem witness_InstructionRequestsAtMostOne :
    let s := st [(.status, 0x10)]
    nextOf (exec .ret s) = some (goOn (exec .ret s)) ∧ (goOn (exec .ret s)).queue = [0, 5] := by decide

theorem witness_UnnamedRegistersDoNotMatter :
    let i := Instr.bsl .r2 .r1
    Reg.r3 ∈ plainRegs ∧ Reg.r3 ∉ i.regsNamed ∧ nextOf (exec i State.reset) = some (goOn (exec i State.reset)) := by decide

/-- A word across the boundary of two pages, and one at the end of RAM. -/
theorem witness_StoredWordReadsBack :
    RamRange State.reset.cfg 0xFFE 4 ∧ RamRange State.reset.cfg 0x1FFC 4 := by decide

/-- An owned address at each end of its region, an address above it, and the first one past the page slots. -/
theorem witness_OwnerContainsAddress :
    devCfg.wf = true ∧ ownerOf devCfg 0x2000 = some ⟨1, 0x2000, 0x1000, .device⟩ ∧
    ownerOf devCfg 0x2FFF = some ⟨1, 0x2000, 0x1000, .device⟩ ∧ Unmapped devCfg 0x3000 ∧
    devCfg.pageSize * devCfg.pageCount ≤ (0x400000#32 : Word).toNat ∧ Unmapped devCfg 0x400000 := by decide

/-- Accesses across the end of RAM into the device, and to the end of the device. -/
theorem witness_MappedReadsComplete :
    let s := under devCfg (st [(.sp, 0x1FFE)])
    s.cond 0 = true ∧ MappedRange s.cfg (s.operandV 0x2FFC .ins) 4 ∧ MappedRange s.cfg (s.get .sp) 4 ∧
    MappedRange s.cfg (s.get .sp) 8 := by decide

theorem witness_MappedWritesComplete :
    let s := under devCfg (st [(.sp, 0x2002), (.status, 8)])
    s.cond 8 = true ∧ MappedRange s.cfg (s.operandV 0x1FFE .ins) 4 ∧ MappedRange s.cfg (s.get .sp - 4#32) 4 := by decide

/-- The split of an access into calls: four bytes of one device are one call, a call ends with its region, and at the wrap of the
addresses (20_memory.md R72, R63). -/
theorem test_runs :
    runAfter devCfg ⟨1, 0x2000, 0x1000, .device⟩ 3 0x2000 = 3 ∧ runAfter devCfg ⟨1, 0x2000, 0x1000, .device⟩ 3 0x2FFE = 1 ∧
    (let whole : Region := ⟨0, 0, 0x100000000, .device⟩
     runAfter { Config.suggested with pageCount := 0x100000, map := [whole] } whole 3 0xFFFFFFFE = 1) := by decide

/-- A word written to a device is one call with its four bytes in order, however many the device takes (20_memory.md R71, R72). -/
theorem test_device_call :
    (match writeWord 0x2004 0x11223344 (under devCfg (st [])) with
     | .ok _ t => t.devWrites.map fun w => (w.offset, w.bytes)
     | .notMapped _ _ => []) = [(4, [0x44, 0x33, 0x22, 0x11])] := by
  have e : writeWord 0x2004 0x11223344 (under devCfg (st [])) =
      if 3 < Config.deviceTransfers 0 then
        .ok () ((under devCfg (st [])).offer ⟨1, 0x2000, 0x1000, .device⟩ 0x2004 [0x44, 0x33, 0x22, 0x11])
      else .ok () ((under devCfg (st [])).offer ⟨1, 0x2000, 0x1000, .device⟩ 0x2004 [0x44, 0x33, 0x22, 0x11]) := rfl
  rw [e, ite_self]
  rfl

theorem witness_OperandValueAndFalseCondition :
    let s := st [(.status, 0x17), (.r2, 4)]
    Reg.r2 ≠ .ins ∧ s.cond 8 = false := by decide

theorem witness_SignedDivision :
    (st []).get .r2 = 0#32 ∧ (st [(.r0, 0x80000000), (.r2, 0xFFFFFFFF)]).get .r2 ≠ 0#32 := by decide

theorem witness_UnsignedDivision :
    (st [(.r0, 7)]).get .r2 = 0#32 ∧ (st [(.r0, 3), (.r2, 5)]).get .r2 ≠ 0#32 := by decide

theorem witness_RoundingIsNearestEven : 0 < 3 := by decide

/-- Every kind of operand the float statements speak of, by its pattern: the NaNs, the infinities, the zeros, the least subnormal and the
largest finite number. -/
theorem witness_FloatOperands :
    f32OfBits 0x7FC00000 = .nan ∧ f32OfBits 0xFF800001 = .nan ∧ f32OfBits 0x7F800000 = .inf false ∧
    f32OfBits 0xFF800000 = .inf true ∧ f32OfBits 0 = .fin false 0 ∧ f32OfBits 0x80000000 = .fin true 0 ∧
    f32OfBits 1 = .fin false 1 ∧ f32OfBits 0xFF7FFFFF = .fin true ((2 ^ 24 - 1) * 2 ^ 253) := by decide +kernel

/-- ADDF: a NaN, infinities of opposite and of one sign, an infinity second, a zero sum and a sum that is not. -/
theorem witness_FloatAdd :
    (let s := st [(.r0, 0x7F800000), (.r2, 0xFF800000)]
     f32OfBits (s.get .accum) = .inf false ∧ f32OfBits (s.get .r2) = .inf true) ∧
    (let s := st [(.r0, 0x7F800000), (.r2, 1)]
     f32OfBits (s.get .accum) = .inf false ∧ f32OfBits (s.get .r2) = .fin false 1 ∧ f32OfBits (s.get .accum) = .inf false) ∧
    (let s := st [(.r0, 0x80000000), (.r2, 0xFF800000)]
     f32OfBits (s.get .accum) = .fin true 0 ∧ f32OfBits (s.get .r2) = .inf true) ∧
    (let s := st [(.r0, 1), (.r2, 0x80000001)]
     f32OfBits (s.get .accum) = .fin false 1 ∧ f32OfBits (s.get .r2) = .fin true 1) := by decide +kernel

theorem witness_FloatSub :
    (let s := st [(.r0, 0x7F800000), (.r2, 0x7F800000)]
     f32OfBits (s.get .accum) = .inf false ∧ f32OfBits (s.get .r2) = .inf false) ∧
    (let s := st [(.r0, 0x7F800000), (.r2, 0xFF800000)]
     f32OfBits (s.get .accum) = .inf false ∧ f32OfBits (s.get .r2) = .inf (!false)) ∧
    (let s := st [(.r0, 1), (.r2, 0x7F800000)]
     f32OfBits (s.get .accum) = .fin false 1 ∧ f32OfBits (s.get .r2) = .inf false) ∧
    (let s := st [(.r0, 0x80000000), (.r2, 0x80000000)]
     f32OfBits (s.get .accum) = .fin true 0 ∧ f32OfBits (s.get .r2) = .fin true 0) := by decide +kernel

theorem witness_FloatMul :
    (let s := st [(.r0, 0x80000000), (.r2, 0x7F800000)]
     f32OfBits (s.get .accum) = .fin true 0 ∧ f32OfBits (s.get .r2) = .inf false) ∧
    (let s := st [(.r0, 0x7F800000), (.r2, 0)]
     f32OfBits (s.get .accum) = .inf false ∧ f32OfBits (s.get .r2) = .fin false 0) ∧
    (let s := st [(.r0, 0xFF800000), (.r2, 1)]
     f32OfBits (s.get .accum) = .inf true ∧ f32OfBits (s.get .r2) = .fin false 1 ∧ 1 ≠ 0) ∧
    (let s := st [(.r0, 1), (.r2, 0xFF800000)]
     f32OfBits (s.get .accum) = .fin false 1 ∧ f32OfBits (s.get .r2) = .inf true) ∧
    (let s := st [(.r0, 1), (.r2, 0x80000001)]
     f32OfBits (s.get .accum) = .fin false 1 ∧ f32OfBits (s.get .r2) = .fin true 1) := by decide +kernel

theorem witness_FloatDiv :
    (let s := st [(.r0, 0), (.r2, 0x80000000)]
     f32OfBits (s.get .accum) = .fin false 0 ∧ f32OfBits (s.get .r2) = .fin true 0) ∧
    (let s := st [(.r0, 0x7F800000), (.r2, 0xFF800000)]
     f32OfBits (s.get .accum) = .inf false ∧ f32OfBits (s.get .r2) = .inf true) ∧
    (let s := st [(.r0, 0x7F800000), (.r2, 0x80000000)]
     f32OfBits (s.get .accum) = .inf false ∧ f32OfBits (s.get .r2) = .fin true 0) ∧
    (let s := st [(.r0, 0x80000001), (.r2, 0)]
     f32OfBits (s.get .accum) = .fin true 1 ∧ 1 ≠ 0 ∧ f32OfBits (s.get .r2) = .fin false 0) ∧
    (let s := st [(.r0, 0), (.r2, 0xFF800000)]
     f32OfBits (s.get .accum) = .fin false 0 ∧ f32OfBits (s.get .r2) = .inf true) ∧
    (let s := st [(.r0, 0), (.r2, 0x80000001)]
     f32OfBits (s.get .accum) = .fin false 0 ∧ f32OfBits (s.get .r2) = .fin true 1 ∧ 1 ≠ 0) := by decide +kernel

theorem witness_FloatRemainder :
    (let s := st [(.r0, 0x7F800000), (.r2, 1)]
     f32OfBits (s.get .accum) = .inf false) ∧
    (let s := st [(.r0, 1), (.r2, 0x80000000)]
     f32OfBits (s.get .r2) = .fin true 0) ∧
    (let s := st [(.r0, 0x80000000), (.r2, 0x7F800000)]
     f32OfBits (s.get .accum) = .fin true 0 ∧ f32OfBits (s.get .r2) = .inf false) ∧
    (let s := st [(.r0, 0x80000000), (.r2, 1)]
     f32OfBits (s.get .accum) = .fin true 0 ∧ f32OfBits (s.get .r2) = .fin false 1 ∧ 1 ≠ 0) := by decide +kernel

/-- An amount of 0, and one of 31 with the carry register in each of its special places. -/
theorem witness_Shifts :
    0 = ((st []).get .r2).toNat % 32 ∧ 31 = ((st [(.r2, 0xFFFFFFFF)]).get .r2).toNat % 32 ∧
    Reg.ins ≠ .status ∧ Reg.ins ≠ .accum ∧ Reg.accum ≠ .status ∧ Reg.status ≠ .accum ∧ 4 ≤ 31 := by decide

/-- The worked chain of 42_bitwise_shift.md R197, to the left and to the right. -/
theorem witness_ShiftsChain :
    (let s := st [(.r0, 0x80000000), (.r2, 4)]
     let t := goOn (exec (.bsl .r2 .r1) s)
     let u := st [(.r0, 1), (.r2, 4), (.r1, 8)]
     Reg.r1 ∉ [.accum, .status, .ins] ∧ s.get .r1 = 0#32 ∧ u.get .r1 = t.get .r1 ∧ u.get .r2 = s.get .r2 ∧
      nextOf (exec (.bsl .r2 .r1) s) = some t ∧
      nextOf (exec (.bsl .r2 .r1) u) = some (goOn (exec (.bsl .r2 .r1) u))) ∧
    (let s := st [(.r0, 0x18), (.r2, 4)]
     let t := goOn (exec (.bsr .r2 .r1) s)
     let u := st [(.r0, 0), (.r2, 4), (.r1, 0x80000000)]
     s.get .r1 = 0#32 ∧ u.get .r1 = t.get .r1 ∧ u.get .r2 = s.get .r2 ∧ nextOf (exec (.bsr .r2 .r1) s) = some t ∧
      nextOf (exec (.bsr .r2 .r1) u) = some (goOn (exec (.bsr .r2 .r1) u))) := by decide

theorem witness_RegisterTransfers :
    (st []).cond 0 = true ∧ (st [(.status, 8)]).cond 8 = true ∧ (st [(.status, 0xF7)]).cond 8 = false := by decide

/-- An operand value at the end of RAM, and one faulting at its first and at its last byte, for LOAD and STORE alike. -/
theorem witness_LoadResult :
    (st []).cond 0 = true ∧ RamRange (st []).cfg ((st []).operandV 0x1FFC .ins) 4 ∧
    FirstUnmapped (st []).cfg ((st []).operandV 0x2000 .ins) 4 0 ∧
    FirstUnmapped (st []).cfg ((st []).operandV 0x1FFD .ins) 4 3 := by decide

theorem witness_StoreResult :
    (st [(.status, 1)]).cond 1 = true ∧ RamRange (st [(.r2, 0xFFE)]).cfg ((st [(.r2, 0xFFE)]).operandV 0 .r2) 4 ∧
    FirstUnmapped (st []).cfg ((st []).operandV 0xFFFFFFFF .ins) 4 0 ∧
    FirstUnmapped (st []).cfg ((st []).operandV 0x1FFD .ins) 4 3 := by decide

/-- A slot at each end of RAM, and pushes that fault at their first and at their last byte. -/
theorem witness_PushResult :
    RamRange (st []).cfg ((st []).get .sp - 4#32) 4 ∧ RamRange (st [(.sp, 4)]).cfg ((st [(.sp, 4)]).get .sp - 4#32) 4 ∧
    FirstUnmapped (st [(.sp, 0)]).cfg ((st [(.sp, 0)]).get .sp - 4#32) 4 0 ∧
    FirstUnmapped (st [(.sp, 0x2001)]).cfg ((st [(.sp, 0x2001)]).get .sp - 4#32) 4 3 := by decide

theorem witness_PopAndRetResult :
    RamRange (st [(.sp, 0x1FFC)]).cfg ((st [(.sp, 0x1FFC)]).get .sp) 4 ∧ Reg.r2 ≠ .sp ∧
    FirstUnmapped (st []).cfg ((st []).get .sp) 4 0 ∧
    FirstUnmapped (st [(.sp, 0x1FFD)]).cfg ((st [(.sp, 0x1FFD)]).get .sp) 4 3 := by decide

theorem witness_CallResult :
    (st []).cond 0 = true ∧ RamRange (st []).cfg ((st []).get .sp - 4#32) 4 ∧
    FirstUnmapped (st [(.sp, 0)]).cfg ((st [(.sp, 0)]).get .sp - 4#32) 4 0 ∧
    FirstUnmapped (st [(.sp, 0x2001)]).cfg ((st [(.sp, 0x2001)]).get .sp - 4#32) 4 3 := by decide

/-- The first step after reset, on zero memory, and a NOP with its ignored bits set. -/
theorem witness_NopDoesNothing :
    (let s := State.reset
     s.cfg.wf = true ∧ s.nextCase = .fetch ∧ RamRange s.cfg (s.get .ip) 2 ∧
      0x0000#16 = leOpWord (s.bytesAt (s.get .ip) 2)) ∧
    (let s := st [(.ip, 0x1FFE)] [(0x1FFF, 0xFF)]
     s.cfg.wf = true ∧ s.nextCase = .fetch ∧ RamRange s.cfg (s.get .ip) 2 ∧
      0xFF00#16 = leOpWord (s.bytesAt (s.get .ip) 2) ∧ (0xFF00#16 &&& 0x00FF#16) = 0x0000#16) := by decide

end Sys2Proof.Tests
end

namespace Sys2Proof

/-! ### The decoder read backwards (30_encoding.md R100, R101) -/

@[simp] theorem Instr.hasLiteral_withLiteral (i : Instr) (lit : Word) : (i.withLiteral lit).hasLiteral = i.hasLiteral := by
  cases i <;> rfl

theorem Instr.length_of_hasLiteral {i : Instr} (h : i.hasLiteral = true) : i.length = 6 := by simp [Instr.length, h]

theorem Instr.length_of_not_hasLiteral {i : Instr} (h : i.hasLiteral = false) : i.length = 2 := by simp [Instr.length, h]

/-- What a decoded list of bytes looks like: the two bytes of an opcode word, then the four of a literal if the word asks for one. -/
theorem decode_ok_cases {bs rest : List Byte} {i : Instr} (h : decode bs = .ok (i, rest)) :
    ∃ (ws : List Byte) (j : Instr), ws.length = 2 ∧ decodeWord (leOpWord ws) = .ok j ∧
      ((j.hasLiteral = false ∧ i = j ∧ bs = ws ++ rest) ∨
       (j.hasLiteral = true ∧ ∃ ls : List Byte, ls.length = 4 ∧ i = j.withLiteral (leWord ls) ∧ bs = ws ++ (ls ++ rest))) := by
  match bs with
  | [] => cases h
  | [_] => cases h
  | b0 :: b1 :: tail =>
    cases hj : decodeWord (leOpWord [b0, b1]) with
    | error e => simp [decode, hj] at h
    | ok j =>
      refine ⟨[b0, b1], j, rfl, hj, ?_⟩
      cases hl : j.hasLiteral with
      | false =>
        obtain ⟨rfl, rfl⟩ : j = i ∧ tail = rest := by simpa [decode, hj, hl] using h
        exact .inl ⟨rfl, rfl, rfl⟩
      | true =>
        match tail with
        | [] | [_] | [_, _] | [_, _, _] => simp [decode, hj, hl] at h
        | l0 :: l1 :: l2 :: l3 :: after =>
          obtain ⟨rfl, rfl⟩ : j.withLiteral (leWord [l0, l1, l2, l3]) = i ∧ after = rest := by
            simpa [decode, hj, hl] using h
          exact .inr ⟨rfl, [l0, l1, l2, l3], rfl, rfl, rfl⟩

end Sys2Proof

namespace Sys2Proof.Machine

/-! ### The fetch of a whole instruction from RAM (30_encoding.md R101) -/

@[simp] theorem State.bytesAt_length (s : State) (a : Word) (n : Nat) : (s.bytesAt a n).length = n := by
  simp [State.bytesAt]

theorem State.bytesAt_add (s : State) (a : Word) (m n : Nat) :
    s.bytesAt a (m + n) = s.bytesAt a m ++ s.bytesAt (a + BitVec.ofNat 32 m) n := by
  simp [State.bytesAt, List.range_add, Function.comp_def, addr_add]

@[simp] theorem State.opcodeFetched_ip (s : State) (w : OpWord) : (s.opcodeFetched w).get .ip = s.get .ip + 2#32 :=
  State.get_set_self _ _ _
@[simp] theorem State.opcodeFetched_cfg (s : State) (w : OpWord) : (s.opcodeFetched w).cfg = s.cfg := rfl
@[simp] theorem State.opcodeFetched_wordAt (s : State) (w : OpWord) (a : Word) :
    (s.opcodeFetched w).wordAt a = s.wordAt a := rfl

/-- A literal in RAM is taken as it stands there, and IP moves past it. -/
theorem fetchLiteral_ram {s : State} (i : Instr) (h : RamRange s.cfg (s.get .ip) 4) :
    fetchLiteral i s = .run (i.withLiteral (s.wordAt (s.get .ip))) (s.set .ip (s.get .ip + 4#32)) := by
  simp [fetchLiteral, readWord_ram h]

/-- The state in which an instruction runs: INS holds its opcode word and IP points `n` bytes past its start
(00_scope.md R9). -/
def State.fetched (s : State) (n : Nat) : State :=
  (s.set .ins ((leOpWord (s.bytesAt (s.get .ip) 2)).setWidth 32)).set .ip (s.get .ip + BitVec.ofNat 32 n)

theorem State.opcodeFetched_eq_fetched (s : State) :
    s.opcodeFetched (leOpWord (s.bytesAt (s.get .ip) 2)) = s.fetched 2 := rfl

theorem State.opcodeFetched_set_ip (s : State) :
    (s.opcodeFetched (leOpWord (s.bytesAt (s.get .ip) 2))).set .ip (s.get .ip + 2#32 + 4#32) = s.fetched 6 := by
  rw [State.opcodeFetched, State.set_set, State.fetched, BitVec.add_assoc]
  rfl

/-- The fetch of an instruction whose bytes are RAM agrees with the decoder on those bytes, at either length. -/
theorem fetch_of_decode {s : State} {i : Instr} (hr : RamRange s.cfg (s.get .ip) i.length)
    (hd : decode (s.bytesAt (s.get .ip) i.length) = .ok (i, [])) : fetch s = .run i (s.fetched i.length) := by
  obtain ⟨ws, j, hws, hw, ⟨hl, rfl, hb⟩ | ⟨hl, ls, hls, rfl, hb⟩⟩ := decode_ok_cases hd
  · rw [Instr.length_of_not_hasLiteral hl] at hr hb ⊢
    obtain rfl : s.bytesAt (s.get .ip) 2 = ws := by rw [hb, List.append_nil]
    rw [fetch_short hr hw hl, s.opcodeFetched_eq_fetched]
  · have hlen : (j.withLiteral (leWord ls)).length = 2 + 4 := Instr.length_of_hasLiteral (by simpa using hl)
    rw [hlen] at hr hb ⊢
    obtain ⟨hrWord, hrLit⟩ := hr.split
    rw [s.bytesAt_add, List.append_nil] at hb
    obtain ⟨rfl, rfl⟩ := List.append_inj hb (by simp [hws])
    rw [fetch_long hrWord hw hl, fetchLiteral_ram _ (by simpa using hrLit)]
    simp only [State.opcodeFetched_ip, State.opcodeFetched_wordAt, s.opcodeFetched_set_ip]
    rfl

/-- Settles O6: a step in its fetch case is `fetch`, then `exec`, and the fetch from RAM gives the decoded instruction. -/
theorem stepRunsDecodedInstruction : Obligations.StepRunsDecodedInstruction := by
  intro s i hwf hcase hram hdec
  have hfetch : fetch (s.reporting .progress) = .run i ((s.reporting .progress).fetched i.length) :=
    fetch_of_decode hram hdec
  rw [step_fetch hwf hcase, State.fetchExecute, hfetch]
  rfl

end Sys2Proof.Machine

namespace Sys2Proof

/-! ### The registers an instruction writes (10_state.md R35, R41) -/

/-- The registers an instruction writes, but for the numeric flags that an ALU instruction assigns last. -/
def Instr.destRegs : Instr → List Reg
  | .nop | .int _ | .halt | .store .. => []
  | .cmpi _ _ | .cmpu _ _ | .cmpf _ _ => []
  | .not _ | .or _ | .xor _ | .and _ => [.accum]
  | .addi _ | .subi _ | .muli _ | .divi _ | .modi _ => [.accum]
  | .addu _ | .subu _ | .mulu _ | .divu _ | .modu _ => [.accum]
  | .addf _ | .subf _ | .mulf _ | .divf _ | .modf _ => [.accum]
  | .bsl _ rk | .bsr _ rk => [rk, .accum]
  | .sleep | .sie | .cie => [.status]
  | .inc rd .. | .load rd .. | .dec rd .. | .loadl rd .. | .mov rd _ => [rd]
  | .pop rd => [.sp, rd]
  | .push _ => [.sp]
  | .call .. | .ret => [.sp, .ip]
  | .rti => [.sp, .status, .ip]

/-- Every register an instruction writes. -/
def Instr.regsWritten (i : Instr) : List Reg := if i.isAlu then .status :: i.destRegs else i.destRegs

/-- STATUS is a destination of SIE, CIE, SLEEP and RTI, and otherwise only where a field names it. -/
theorem Instr.status_mem_destRegs {i : Instr} (hf : i.fieldDest ≠ some .status) (h : Reg.status ∈ i.destRegs) :
    i ∈ [.sie, .cie, .sleep, .rti] := by
  cases i <;> simp_all [Instr.destRegs, Instr.fieldDest]

/-- The registers with a role of their own, which instructions use without naming them (10_state.md R22, R41). -/
def specialRegs : List Reg := [.accum, .sp, .ip, .isr, .status, .ins]

theorem not_mem_specialRegs_of_plain {r : Reg} (h : r ∈ Machine.plainRegs) : r ∉ specialRegs := by
  have disjoint : ∀ q ∈ Machine.plainRegs, q ∉ specialRegs := by decide
  exact disjoint r h

/-- What an instruction writes is a register it names or a special one. -/
theorem Instr.mem_regsWritten {i : Instr} {r : Reg} (h : r ∈ i.regsWritten) : r ∈ specialRegs ∨ r ∈ i.regsNamed := by
  by_cases hs : r ∈ specialRegs
  · exact .inl hs
  · simp only [specialRegs, List.mem_cons, List.not_mem_nil, or_false, not_or] at hs
    cases i <;> simp_all [Instr.regsWritten, Instr.isAlu, Instr.destRegs, Instr.regsNamed]

end Sys2Proof

namespace Sys2Proof.Machine

/-! ### What a bus access and a register write leave -/

/-- `t` is `s` but for what a bus access can move: memory, the device record and the free index, in keeping with the invariant. -/
structure AfterBus (s t : State) : Prop extends WriteKeeps s t where
  inv : s.Inv → t.Inv

theorem AfterBus.refl (s : State) : AfterBus s s := ⟨.refl s, id⟩

theorem State.Inv.useFree {s : State} (h : s.Inv) (n : Nat) : (s.useFree n).Inv :=
  h.congr rfl rfl (Nat.le_refl _) rfl id rfl

theorem AfterBus.useFree (s : State) (n : Nat) : AfterBus s (s.useFree n) :=
  ⟨⟨rfl, rfl, rfl, rfl, rfl, rfl⟩, (·.useFree n)⟩

theorem AfterBus.of_writeWord {a v : Word} {s t : State}
    (h : writeWord a v s = .ok () t ∨ ∃ x, writeWord a v s = .notMapped x t) (hk : WriteKeeps s t) : AfterBus s t :=
  ⟨hk, fun hi => writeBytes_inv hi h⟩

/-- `t` is `s` but for registers of the list. -/
structure WritesRegs (changed : List Reg) (s t : State) : Prop where
  rest : t = { s with regs := t.regs }
  regs : KeepsRegs changed s t

theorem WritesRegs.refl (l : List Reg) (s : State) : WritesRegs l s s := ⟨rfl, fun _ _ => rfl⟩

theorem WritesRegs.set {l : List Reg} {s t : State} (h : WritesRegs l s t) {r : Reg} (hr : r ∈ l) (v : Word) :
    WritesRegs l s (t.set r v) where
  rest := by rw [h.rest]; rfl
  regs := fun q hq => by rw [t.get_set_ne v (ne_of_mem_of_not_mem hr hq).symm, h.regs q hq]

theorem WritesRegs.of_set (s : State) {l : List Reg} {r : Reg} (hr : r ∈ l) (v : Word) : WritesRegs l s (s.set r v) :=
  (refl l s).set hr v

theorem WritesRegs.set_sp_ip (s : State) (p v : Word) : WritesRegs [.sp, .ip] s ((s.set .sp p).set .ip v) :=
  (of_set s (by decide) p).set (by decide) v

theorem WritesRegs.mono {l l' : List Reg} {s t : State} (h : WritesRegs l s t) (hl : l ⊆ l') : WritesRegs l' s t :=
  ⟨h.rest, fun r hr => h.regs r fun hm => hr (hl hm)⟩

theorem WritesRegs.latches {l : List Reg} {s t : State} (h : WritesRegs l s t) :
    t.cfg = s.cfg ∧ t.halted = s.halted ∧ t.fatal = s.fatal ∧ t.queue = s.queue ∧ t.report = s.report := by
  rw [h.rest]; exact ⟨rfl, rfl, rfl, rfl, rfl⟩

/-- Registers do not matter to the invariant. -/
theorem WritesRegs.inv {l : List Reg} {s t : State} (h : WritesRegs l s t) (hi : s.Inv) : t.Inv := by
  rw [h.rest]
  exact hi.congr rfl rfl (Nat.le_refl _) rfl id rfl

/-! ### ALU instructions: the destinations, then the flags (10_state.md R36) -/

/-- What an ALU instruction does: registers of the list are written, then the numeric flags are assigned. -/
def AluWrite (dest : List Reg) (s t : State) : Prop := ∃ u f, WritesRegs dest s u ∧ t = u.setNum f

theorem AluWrite.setNum (dest : List Reg) (s : State) (f : Nums) : AluWrite dest s (s.setNum f) := ⟨s, f, .refl _ s, rfl⟩

theorem AluWrite.setAccum {dest : List Reg} {s u : State} (h : WritesRegs dest s u) (ha : .accum ∈ dest) (v : Word) (f : Nums) :
    AluWrite dest s (u.setAccum v f) := ⟨u.set .accum v, f, h.set ha v, rfl⟩

theorem AluWrite.of_setAccum (s : State) (v : Word) (f : Nums) : AluWrite [.accum] s (s.setAccum v f) :=
  setAccum (.refl _ s) List.mem_cons_self v f

theorem AluWrite.arithDiv (s : State) (ra : Reg) (op : AluOp) : AluWrite [.accum] s (s.arithDiv ra op) := by
  unfold State.arithDiv
  split
  · exact setNum _ s _
  · exact of_setAccum s _ _

theorem AluWrite.setShifted (s : State) (rk : Reg) (x : Shifted) : AluWrite [rk, .accum] s (s.setShifted rk x) :=
  setAccum (.of_set s List.mem_cons_self x.out) (List.mem_cons_of_mem _ List.mem_cons_self) x.r _

theorem AluWrite.writesRegs {dest : List Reg} {s t : State} (h : AluWrite dest s t) : WritesRegs (.status :: dest) s t := by
  obtain ⟨u, f, hu, rfl⟩ := h
  exact (hu.mono (List.subset_cons_self _ _)).set List.mem_cons_self _

/-- The flag write leaves bits 31:4 of STATUS, so they change only where a destination names STATUS. -/
theorem AluWrite.keepsStatusHigh {dest : List Reg} {s t : State} (h : AluWrite dest s t) (hd : .status ∉ dest) :
    KeepsStatusHigh s t := by
  obtain ⟨u, f, hu, rfl⟩ := h
  intro k hk
  rw [u.setNum_status, getLsbD_setNumWord_high _ _ hk, hu.regs _ hd]

theorem exec_alu {i : Instr} {s t : State} (hi : i.isAlu = true) (h : exec i s = .next t) : AluWrite i.destRegs s t := by
  cases i with
  | cmpi ra rb | cmpu ra rb | cmpf ra rb => cases h; exact .setNum _ s _
  | not ra | or ra | xor ra | and ra => cases h; exact .of_setAccum s _ _
  | addi ra | subi ra | muli ra | addu ra | subu ra | mulu ra => cases h; exact .of_setAccum s _ _
  | addf ra | subf ra | mulf ra | divf ra | modf ra => cases h; exact .of_setAccum s _ _
  | divi ra | modi ra | divu ra | modu ra => cases h; exact .arithDiv s ra _
  | bsl rn rk | bsr rn rk => cases h; exact .setShifted s rk _
  | nop | int | halt | sleep | sie | cie | ret | rti | inc | load | pop | call | mov | dec | loadl | store | push => cases hi

/-! ### Everything an instruction can do -/

/-- The outcomes of an instruction: after its bus accesses it writes its registers, or a fault of one of these ends it with a
request of `mem_fault` (60_exceptions.md R277); INT requests its number, HALT sets its latch, and HALT and SLEEP report idle
(R287). -/
inductive InstrEffect (i : Instr) (s t : State) : Prop
  | wrote (u : State) (bus : AfterBus s u) (regs : WritesRegs i.regsWritten u t)
  | faulted (u : State) (bus : AfterBus s u) (request : t = u.raiseIrq irqMemFault)
  | requested (n : IrqNum) (int : i = .int n) (request : t = s.raiseIrq n)
  | halted (halt : i = .halt) (latch : t = { s with halted := true }.reporting .idle)
  | slept (sleep : i = .sleep) (flag : t = (s.set .status (withFlag (s.get .status) .sleep)).reporting .idle)

theorem InstrEffect.of_regs {i : Instr} {s t : State} (h : WritesRegs i.regsWritten s t) : InstrEffect i s t :=
  .wrote s (.refl s) h

theorem InstrEffect.whenCond {i : Instr} {s : State} {k : State → State} (cc : Cond) (h : InstrEffect i s (k s)) :
    InstrEffect i s (s.whenCond cc k) := by
  unfold State.whenCond
  split
  · exact h
  · exact .of_regs (.refl _ s)

theorem InstrEffect.readWord {i : Instr} {s : State} {k : Word → State → State} (a : Word)
    (h : ∀ v u, WritesRegs i.regsWritten u (k v u)) : InstrEffect i s ((readWord a s).orFault k) := by
  obtain ⟨n, ⟨v, e⟩ | ⟨x, e⟩⟩ := readWord_cases a s
  · exact .wrote _ (.useFree s n) (by rw [e]; exact h v _)
  · exact .faulted _ (.useFree s n) (by rw [e]; rfl)

theorem InstrEffect.writeWord {i : Instr} {s : State} (a v : Word) :
    InstrEffect i s ((writeWord a v s).orFault fun _ u => u) := by
  obtain ⟨u, e, hk⟩ := writeWord_cases a v s
  have bus : AfterBus s u := .of_writeWord e hk
  rcases e with e | ⟨x, e⟩
  · exact .wrote u bus (by rw [e]; exact .refl _ u)
  · exact .faulted u bus (by rw [e]; rfl)

theorem InstrEffect.pushThen {i : Instr} {s : State} {k : State → State} (v : Word)
    (h : ∀ u p, WritesRegs i.regsWritten u (k (u.set .sp p))) : InstrEffect i s (s.pushThen v k) := by
  obtain ⟨u, e, hk, ht | ht⟩ := s.pushThen_cases v k
  · exact .faulted u (.of_writeWord e hk) ht
  · exact .wrote u (.of_writeWord e hk) (ht ▸ h u _)

theorem InstrEffect.popThen {i : Instr} {s : State} {k : Word → State → State}
    (h : ∀ v u p, WritesRegs i.regsWritten u (k v (u.set .sp p))) : InstrEffect i s (s.popThen k) := by
  obtain ⟨n, ht | ⟨v, ht⟩⟩ := s.popThen_cases k
  · exact .faulted _ (.useFree s n) ht
  · exact .wrote _ (.useFree s n) (ht ▸ h v _ _)

theorem InstrEffect.returnFromInterrupt (s : State) : InstrEffect .rti s s.returnFromInterrupt := by
  obtain ⟨n, ht | ⟨st, p, ht⟩⟩ := s.returnFromInterrupt_cases
  · exact .faulted _ (.useFree s n) ht
  · refine .wrote _ (.useFree s n) (ht ▸ ?_)
    exact ((WritesRegs.of_set _ (by decide) _).set (by decide) _).set (by decide) _

/-- The inversion of `exec`: whatever an instruction does is one of these outcomes. -/
theorem exec_effect {i : Instr} {s t : State} (h : exec i s = .next t) : InstrEffect i s t := by
  by_cases hi : i.isAlu = true
  · exact .of_regs (by simpa [Instr.regsWritten, hi] using (exec_alu hi h).writesRegs)
  cases i with
  | nop => cases h; exact .of_regs (.refl _ s)
  | int n => cases h; exact .requested n rfl rfl
  | halt => cases h; exact .halted rfl rfl
  | sleep => cases h; exact .slept rfl rfl
  | sie | cie => cases h; exact .of_regs (.of_set s (by decide) _)
  | mov rd rs => cases h; exact .of_regs (.of_set s List.mem_cons_self _)
  | inc rd cc | dec rd cc | loadl rd cc => cases h; exact .whenCond cc (.of_regs (.of_set s List.mem_cons_self _))
  | load rd cc => cases h; exact .whenCond cc (.readWord _ fun v u => .of_set u List.mem_cons_self v)
  | store rd cc => cases h; exact .whenCond cc (.writeWord _ _)
  | push rs => cases h; exact .pushThen _ fun u p => .of_set u List.mem_cons_self p
  | pop rd =>
    cases h
    exact .popThen fun v u p => (WritesRegs.of_set u List.mem_cons_self p).set (List.mem_cons_of_mem _ List.mem_cons_self) v
  | call cc => cases h; exact .whenCond cc (.pushThen _ fun u p => .set_sp_ip u p _)
  | ret => cases h; exact .popThen fun v u p => .set_sp_ip u p v
  | rti => cases h; exact .returnFromInterrupt s
  | not | or | xor | and | bsl | bsr | cmpi | addi | subi | muli | divi | modi | cmpu | addu | subu | mulu | divu | modu | cmpf
  | addf | subf | mulf | divf | modf => exact absurd rfl hi

/-- No instruction breaks the invariant. -/
theorem InstrEffect.inv {i : Instr} {s t : State} (h : InstrEffect i s t) (hs : s.Inv) : t.Inv := by
  cases h with
  | wrote u bus regs => exact regs.inv (bus.inv hs)
  | faulted u bus request => subst request; exact (bus.inv hs).raiseIrq _
  | requested n int request => subst request; exact hs.raiseIrq n
  | halted halt latch => subst latch; exact hs.congr rfl rfl (Nat.le_refl _) rfl (fun _ => rfl) rfl
  | slept sleep flag => subst flag; exact hs.congr rfl rfl (Nat.le_refl _) rfl id rfl

/-! ### The invariant along a step -/

theorem State.Inv.opcodeFetched {s : State} (h : s.Inv) (w : OpWord) : (s.opcodeFetched w).Inv :=
  h.congr rfl rfl (Nat.le_refl _) rfl id rfl

theorem State.Inv.unknownOp {s : State} (h : s.Inv) : s.unknownOp.Inv := by
  unfold State.unknownOp
  split
  · next strict => exact ⟨h.memWf, h.memRam, h.queueDepth, fun _ => ⟨rfl, strict⟩, h.devices⟩
  · exact h.raiseIrq _

theorem State.nextCase_deliver {s : State} {n : IrqNum} {rest : List IrqNum} (h : s.nextCase = .deliver n rest) :
    s.queue = n :: rest := by
  unfold State.nextCase at h
  split at h
  · cases h
  · split at h
    · split at h
      · next m q e => cases h; exact e
      · cases h
    · cases h

/-- A delivery takes the head of the queue, so what stays is no longer than before. -/
theorem State.Inv.deliver {s : State} {n : IrqNum} {rest : List IrqNum} (h : s.Inv) (hq : s.queue = n :: rest) :
    (s.deliver n rest).Inv := by
  obtain ⟨t, ht, hkt, e | ⟨u, hu, hku, e | e⟩⟩ := s.deliver_cases n rest
  · exact e ▸ ((AfterBus.of_writeWord ht hkt).inv h).raiseIrq _
  · exact e ▸ ((AfterBus.of_writeWord hu hku).inv ((AfterBus.of_writeWord ht hkt).inv h)).raiseIrq _
  · have hi : u.Inv := (AfterBus.of_writeWord hu hku).inv ((AfterBus.of_writeWord ht hkt).inv h)
    have hlen : rest.length ≤ u.queue.length := by rw [hku.queue, hkt.queue, hq]; exact Nat.le_succ _
    exact e ▸ hi.congr rfl rfl hlen rfl id rfl

/-- The state a fetch leaves, with the instruction to run if there is one. -/
def Fetched.state : Fetched → State
  | .over s => s
  | .run _ s => s

/-- A literal fetch: a fault, or the instruction with its literal and IP past it. -/
theorem fetchLiteral_cases (i : Instr) (s : State) :
    ∃ k, fetchLiteral i s = .over ((s.useFree k).raiseIrq irqMemFault) ∨
      ∃ lit, fetchLiteral i s = .run (i.withLiteral lit) ((s.useFree k).set .ip (s.get .ip + 4#32)) := by
  obtain ⟨k, ⟨lit, e⟩ | ⟨x, e⟩⟩ := readWord_cases (s.get .ip) s
  · exact ⟨k, .inr ⟨lit, by simp [fetchLiteral, e]⟩⟩
  · exact ⟨k, .inl (by simp [fetchLiteral, e])⟩

theorem readOpWord_cases (a : Word) (s : State) :
    ∃ k, (∃ w, readOpWord a s = .ok w (s.useFree k)) ∨ (∃ x, readOpWord a s = .notMapped x (s.useFree k)) := by
  obtain ⟨k, ⟨v, h⟩ | ⟨x, h⟩⟩ := readBytes_state 2 a s
  · exact ⟨k, .inl ⟨leOpWord v, by rw [readOpWord, h]; rfl⟩⟩
  · exact ⟨k, .inr ⟨x, by rw [readOpWord, h]; rfl⟩⟩

/-- A fetch: a fault of the opcode word, or, with INS and IP set, an unknown word, an instruction, or the fetch of its literal. -/
theorem fetch_cases (s : State) :
    ∃ k, fetch s = .over ((s.useFree k).raiseIrq irqMemFault) ∨
      ∃ w, fetch s = .over ((s.useFree k).opcodeFetched w).unknownOp ∨
        ∃ i, fetch s = .run i ((s.useFree k).opcodeFetched w) ∨ fetch s = fetchLiteral i ((s.useFree k).opcodeFetched w) := by
  obtain ⟨k, ⟨w, e⟩ | ⟨x, e⟩⟩ := readOpWord_cases (s.get .ip) s
  · refine ⟨k, .inr ⟨w, ?_⟩⟩
    cases hd : decodeWord w with
    | error _ => exact .inl (by simp [fetch, e, hd])
    | ok i =>
      refine .inr ⟨i, ?_⟩
      cases hl : i.hasLiteral with
      | false => exact .inl (by simp [fetch, e, hd, hl])
      | true => exact .inr (by simp [fetch, e, hd, hl])
  · exact ⟨k, .inl (by simp [fetch, e])⟩

theorem State.Inv.fetchLiteral {s : State} (h : s.Inv) (i : Instr) : (fetchLiteral i s).state.Inv := by
  obtain ⟨k, e | ⟨lit, e⟩⟩ := fetchLiteral_cases i s <;> rw [e]
  · exact (h.useFree k).raiseIrq _
  · exact (h.useFree k).congr rfl rfl (Nat.le_refl _) rfl id rfl

theorem State.Inv.fetch {s : State} (h : s.Inv) : (fetch s).state.Inv := by
  obtain ⟨k, e | ⟨w, e | ⟨i, e | e⟩⟩⟩ := fetch_cases s <;> rw [e]
  · exact (h.useFree k).raiseIrq _
  · exact ((h.useFree k).opcodeFetched w).unknownOp
  · exact (h.useFree k).opcodeFetched w
  · exact ((h.useFree k).opcodeFetched w).fetchLiteral i

theorem State.Inv.fetchExecute {s t : State} (h : s.Inv) (ht : s.fetchExecute = .next t) : t.Inv := by
  have hf := h.fetch
  unfold State.fetchExecute at ht
  split at ht
  · next u e => rw [e] at hf; cases ht; exact hf
  · next i u e => rw [e] at hf; exact (exec_effect ht).inv hf

theorem State.Inv.reporting {s : State} (h : s.Inv) (p : StepReport) : (s.reporting p).Inv :=
  h.congr rfl rfl (Nat.le_refl _) rfl id rfl

theorem step_wf {s t : State} (h : step s = .next t) : s.cfg.wf = true := by
  unfold step at h
  split at h
  · assumption
  · cases h

/-- Settles O23, case by case of the step: rest changes the output bit alone, and a delivery, a fetch and an instruction
each keep the invariant. -/
theorem stepKeepsInvariant : Obligations.StepKeepsInvariant := by
  intro s t hi h
  have hwf := step_wf h
  cases hc : s.nextCase with
  | rest => rw [step_rest hwf hc] at h; cases h; exact hi.reporting _
  | deliver n rest =>
    rw [step_deliver hwf hc] at h
    cases h
    exact (hi.reporting _).deliver (State.nextCase_deliver hc)
  | fetch => rw [step_fetch hwf hc] at h; exact (hi.reporting _).fetchExecute h

end Sys2Proof.Machine

namespace Sys2Proof.Machine

/-! ### What an instruction can change of the latches, the queue and STATUS -/

/-- Settles O26: of the outcomes of an instruction only those of HALT and SLEEP touch a latch or the output bit. -/
theorem onlyHaltHalts : Obligations.OnlyHaltHalts := by
  intro i s t h
  cases exec_effect h with
  | wrote u bus regs =>
    obtain ⟨-, halted, fatal, -, report⟩ := regs.latches
    exact ⟨fatal.trans bus.fatal, fun _ => halted.trans bus.halted, fun _ _ => report.trans bus.report⟩
  | faulted u bus request => subst request; simp [bus.fatal, bus.halted, bus.report]
  | requested n int request => subst request; simp
  | halted halt latch => subst latch; exact ⟨rfl, fun hi => absurd halt hi, fun hi => absurd halt hi⟩
  | slept sleep flag => subst flag; exact ⟨rfl, fun _ => rfl, fun _ hi => absurd sleep hi⟩

theorem State.raiseIrq_queue_cases (s : State) (n : IrqNum) :
    (s.raiseIrq n).queue = s.queue ∨ (s.raiseIrq n).queue = s.queue ++ [n] := by
  obtain ⟨-, e⟩ | ⟨-, e⟩ := s.raiseIrq_cases n <;> simp [e]

/-- Settles O28: a request comes from a fault or from INT, and is at most one. -/
theorem instructionRequestsAtMostOne : Obligations.InstructionRequestsAtMostOne := by
  intro i s t h
  cases exec_effect h with
  | wrote u bus regs =>
    obtain ⟨-, -, -, queue, -⟩ := regs.latches
    exact .inl (queue.trans bus.queue)
  | faulted u bus request =>
    subst request
    rw [← bus.queue]
    exact (u.raiseIrq_queue_cases _).imp_right fun e => ⟨_, e, .inl rfl⟩
  | requested n int request =>
    subst request
    exact (s.raiseIrq_queue_cases n).imp_right fun e => ⟨n, e, .inr int⟩
  | halted halt latch => subst latch; exact .inl rfl
  | slept sleep flag => subst flag; exact .inl rfl

/-- The registers an instruction does not write keep their values, whether or not an access faults. -/
theorem exec_keepsRegs {i : Instr} {s t : State} (h : exec i s = .next t) : KeepsRegs i.regsWritten s t := by
  intro r hr
  cases exec_effect h with
  | wrote u bus regs => rw [regs.regs r hr, bus.get]
  | faulted u bus request => rw [request, State.raiseIrq_get, bus.get]
  | requested n int request => rw [request, State.raiseIrq_get]
  | halted halt latch => rw [latch]; rfl
  | slept sleep flag =>
    subst sleep
    have hne : r ≠ .status := by rintro rfl; exact hr (by decide)
    rw [flag, State.reporting_get, s.get_set_ne _ hne]

/-- Settles O27: an ALU instruction assigns the flags last, SIE, CIE and SLEEP write one bit, and STATUS is no destination of the
others. -/
theorem statusWriters : Obligations.StatusWriters := by
  intro i s t h hf
  refine ⟨fun alu => ?_, fun hi => ?_, fun hi => ?_, fun alu hi => ?_⟩
  · refine (exec_alu alu h).keepsStatusHigh fun hd => ?_
    have writer := Instr.status_mem_destRegs hf hd
    simp only [List.mem_cons, List.not_mem_nil, or_false] at writer
    obtain rfl | rfl | rfl | rfl := writer <;> cases alu
  · intro k hk
    obtain rfl | rfl := hi <;> cases h
    · simp [getLsbD_withFlag, Flag.bit, hk]
    · simp [getLsbD_withoutFlag, Flag.bit, hk]
  · intro k hk
    subst hi
    cases h
    simp [getLsbD_withFlag, Flag.bit, hk]
  · refine exec_keepsRegs h .status fun hw => hi (Instr.status_mem_destRegs hf ?_)
    simpa [Instr.regsWritten, alu] using hw

/-! ### A halted core -/

/-- What a halted core keeps: registers, memory, HALTED and FATAL; the queue can grow at its tail. -/
structure HaltedKeeps (s t : State) : Prop where
  cfg : t.cfg = s.cfg
  regs : t.regs = s.regs
  mem : t.mem = s.mem
  halted : t.halted = s.halted
  fatal : t.fatal = s.fatal
  queue : ∃ q, t.queue = s.queue ++ q

theorem HaltedKeeps.refl (s : State) : HaltedKeeps s s := ⟨rfl, rfl, rfl, rfl, rfl, [], by simp⟩

theorem HaltedKeeps.trans {s t u : State} (h : HaltedKeeps s t) (h' : HaltedKeeps t u) : HaltedKeeps s u := by
  obtain ⟨q, hq⟩ := h.queue
  obtain ⟨q', hq'⟩ := h'.queue
  exact ⟨h'.cfg.trans h.cfg, h'.regs.trans h.regs, h'.mem.trans h.mem, h'.halted.trans h.halted, h'.fatal.trans h.fatal,
    q ++ q', by rw [hq', hq, List.append_assoc]⟩

theorem HaltedKeeps.raiseIrq (s : State) (n : IrqNum) : HaltedKeeps s (s.raiseIrq n) := by
  refine ⟨by simp, by simp, by simp, by simp, by simp, ?_⟩
  obtain e | e := s.raiseIrq_queue_cases n <;> simp [e]

theorem State.nextCase_of_halted {s : State} (h : s.halted = true) : s.nextCase = .rest := by simp [State.nextCase, h]

theorem event_halted {s : State} {e : Event} (hw : s.cfg.wf = true) (hh : s.halted = true) (he : e ≠ .reset) :
    ∃ t, s.event e = .next t ∧ HaltedKeeps s t := by
  cases e with
  | step =>
    exact ⟨s.reporting .idle, step_rest hw (State.nextCase_of_halted hh), rfl, rfl, rfl, rfl, rfl, [], by simp⟩
  | irq n => exact ⟨s.raiseIrq n, rfl, .raiseIrq s n⟩
  | reset => exact absurd rfl he
  | stop => exact ⟨s.stopInput, rfl, rfl, rfl, rfl, hh.symm, rfl, [], by simp [State.stopInput]⟩

theorem events_halted {s : State} {es : List Event} (hw : s.cfg.wf = true) (hh : s.halted = true)
    (hes : Event.reset ∉ es) : ∃ t, s.events es = .next t ∧ HaltedKeeps s t := by
  induction es generalizing s with
  | nil => exact ⟨s, rfl, .refl s⟩
  | cons e es ih =>
    obtain ⟨he, hes⟩ := List.ne_and_not_mem_of_not_mem_cons hes
    obtain ⟨t, ht, first⟩ := event_halted hw hh he.symm
    obtain ⟨u, hu, rest⟩ := ih (by rw [first.cfg, hw]) (by rw [first.halted, hh]) hes
    exact ⟨u, by simp [State.events, ht, hu], first.trans rest⟩

/-- Settles O15, by induction on the inputs. -/
theorem haltedUntilReset : Obligations.HaltedUntilReset := by
  refine ⟨fun s => rfl, fun s es hw hh hes => ?_⟩
  obtain ⟨t, ht, keeps⟩ := events_halted hw hh hes
  exact ⟨t, ht, by rw [keeps.halted, hh], keeps.fatal, fun r _ => by simp [State.get, keeps.regs],
    fun a => by simp [State.byteAt, keeps.mem], keeps.queue⟩

/-! ### The state after reset -/

/-- Settles O20. -/
theorem resetState : Obligations.ResetState := by
  refine ⟨fun r => ?_, rfl, rfl, rfl, fun a => rfl, rfl, rfl, by decide, by decide⟩
  cases r <;> rfl

/-- Settles O21: memory and the device record are empty and FATAL is clear, and the suggested queue has no depth. -/
theorem resetMeetsInvariant : Obligations.ResetMeetsInvariant where
  memWf := State.reset_mem_wf
  memRam := fun _ h => nomatch h
  queueDepth := fun _ h => nomatch h
  fatalHalted := fun h => nomatch h
  devices := fun _ h => nomatch h

/-! ### The condition -/

theorem ne_zero_iff_getLsbD {n : Nat} (w : BitVec n) : w ≠ 0#n ↔ ∃ k, w.getLsbD k = true := by
  constructor
  · intro h
    by_contra clear
    simp only [not_exists, Bool.not_eq_true] at clear
    exact h (BitVec.eq_of_getLsbD_eq fun k _ => by simp [clear k])
  · rintro ⟨k, hk⟩ rfl
    simp at hk

/-- Settles O34: the four bits of the field each select the flag of their number. -/
theorem conditionIsAnySelectedFlag : Obligations.ConditionIsAnySelectedFlag := by
  intro s cc
  have selected : (∃ k, (s.get .status &&& cc.setWidth 32).getLsbD k = true) ↔
      ∃ k, k < 4 ∧ cc.getLsbD k = true ∧ (s.get .status).getLsbD k = true := by
    refine exists_congr fun k => ?_
    have bound : cc.getLsbD k = true → k < 4 := BitVec.lt_of_getLsbD
    simp only [BitVec.getLsbD_and, BitVec.getLsbD_setWidth, Bool.and_eq_true, decide_eq_true_eq]
    constructor
    · rintro ⟨hs, -, hc⟩
      exact ⟨bound hc, hc, hs⟩
    · rintro ⟨hk, hc, hs⟩
      exact ⟨hs, by omega, hc⟩
  rw [State.cond, Bool.or_eq_true, beq_iff_eq, bne_iff_ne, ne_zero_iff_getLsbD, selected]
  simp only [Nat.exists_lt_succ_left, Nat.not_lt_zero, false_and, exists_false, or_false, State.flag, flagOf, Flag.bit]

end Sys2Proof.Machine

namespace Sys2Proof.Machine

/-! ### A register that an access does not read (10_state.md R41) -/

/-- A bus answer with its state mapped. -/
def Bus.mapState {α : Type} (f : State → State) : Bus α → Bus α
  | .ok v s => .ok v (f s)
  | .notMapped a s => .notMapped a (f s)

theorem Bus.map_mapState {α β : Type} (g : α → β) (f : State → State) (b : Bus α) :
    (b.mapState f).map g = (b.map g).mapState f := by
  cases b <;> rfl

/-- No read looks at a register. -/
theorem readFrom_set (r : Reg) (v : Word) (n left : Nat) (a : Word) (s : State) :
    readFrom n left a (s.set r v) = (readFrom n left a s).mapState (·.set r v) := by
  induction n generalizing left a s with
  | zero => rfl
  | succ n ih =>
    have free (k : Nat) : (s.set r v).useFree k = (s.useFree k).set r v := rfl
    cases left with
    | succ left => simp only [readFrom, free, ih, Bus.map_mapState, State.set_freeIndex]
    | zero =>
      simp only [readFrom, State.set_cfg, State.set_freeIndex, State.set_byteAt, free, ih, Bus.map_mapState]
      split
      · rfl
      · split
        · rfl
        · split <;> rfl

/-- No write looks at a register. -/
theorem writeFrom_set (r : Reg) (v : Word) (bs : List Byte) (left : Nat) (a : Word) (s : State) :
    writeFrom bs left a (s.set r v) = (writeFrom bs left a s).mapState (·.set r v) := by
  induction bs generalizing left a s with
  | nil => rfl
  | cons b rest ih =>
    have store : (s.set r v).storeByte a b = (s.storeByte a b).set r v := rfl
    have offer (g : Region) (bs : List Byte) : (s.set r v).offer g a bs = (s.offer g a bs).set r v := rfl
    cases left with
    | succ left => simp only [writeFrom, ih]
    | zero =>
      simp only [writeFrom, State.set_cfg, State.set_freeIndex, store, offer, ih]
      split
      · rfl
      · split
        · rfl
        · split <;> rfl

theorem readWord_set (r : Reg) (v a : Word) (s : State) :
    readWord a (s.set r v) = (readWord a s).mapState (·.set r v) := by
  simp only [readWord, readBytes, readFrom_set, Bus.map_mapState]

theorem writeWord_set (r : Reg) (v a w : Word) (s : State) :
    writeWord a w (s.set r v) = (writeWord a w s).mapState (·.set r v) :=
  writeFrom_set r v _ 0 a s

/-! ### Operations that do not see a register

Each commutes with a write to a register that it neither reads nor writes. -/

section Unseen

variable {r : Reg} (s : State) (v : Word)

theorem State.flag_set (hr : r ≠ .status) (f : Flag) : (s.set r v).flag f = s.flag f := by
  rw [State.flag, s.get_set_ne v hr.symm, ← State.flag]

theorem State.raiseIrq_set (hr : r ≠ .status) (n : IrqNum) : (s.set r v).raiseIrq n = (s.raiseIrq n).set r v := by
  have gate : (s.set r v).gateOpen = s.gateOpen := by simp only [State.gateOpen, s.flag_set v hr]
  have room : (s.set r v).queueHasRoom = s.queueHasRoom := rfl
  unfold State.raiseIrq
  rw [gate, room]
  split <;> rfl

theorem Bus.orFault_set {α : Type} (hr : r ≠ .status) (b : Bus α) {k k' : α → State → State}
    (hk : ∀ x t, k' x (t.set r v) = (k x t).set r v) : (b.mapState (·.set r v)).orFault k' = (b.orFault k).set r v := by
  cases b with
  | ok x t => exact hk x t
  | notMapped a t => exact t.raiseIrq_set v hr _

theorem State.setNum_set (hr : r ≠ .status) (f : Nums) : (s.set r v).setNum f = (s.setNum f).set r v := by
  rw [State.setNum, s.get_set_ne v hr.symm, s.set_comm _ _ hr, ← State.setNum]

theorem State.setAccum_set (ha : r ≠ .accum) (hr : r ≠ .status) (w : Word) (f : Nums) :
    (s.set r v).setAccum w f = (s.setAccum w f).set r v := by
  rw [State.setAccum, s.set_comm _ _ ha, State.setNum_set _ _ hr, ← State.setAccum]

theorem State.arith_set {ra : Reg} (ha : r ≠ .accum) (hr : r ≠ .status) (hn : r ≠ ra) (op : AluOp) :
    (s.set r v).arith ra op = (s.arith ra op).set r v := by
  rw [State.arith, s.get_set_ne v ha.symm, s.get_set_ne v hn.symm, s.setAccum_set v ha hr, ← State.arith]

theorem State.arithDiv_set {ra : Reg} (ha : r ≠ .accum) (hr : r ≠ .status) (hn : r ≠ ra) (op : AluOp) :
    (s.set r v).arithDiv ra op = (s.arithDiv ra op).set r v := by
  rw [State.arithDiv, State.arithDiv, s.get_set_ne v hn.symm, s.setNum_set v hr, s.arith_set v ha hr hn]
  split <;> rfl

theorem State.floatArith_set {ra : Reg} (ha : r ≠ .accum) (hr : r ≠ .status) (hn : r ≠ ra)
    (op : Word → Word → Word → Word) : (s.set r v).floatArith ra op = (s.floatArith ra op).set r v := by
  simp only [State.floatArith, s.get_set_ne v ha.symm, s.get_set_ne v hn.symm, s.setAccum_set v ha hr, State.set_cfg]

theorem State.setShifted_set {rk : Reg} (ha : r ≠ .accum) (hr : r ≠ .status) (hk : r ≠ rk) (x : Shifted) :
    (s.set r v).setShifted rk x = (s.setShifted rk x).set r v := by
  rw [State.setShifted, s.set_comm _ _ hk, State.setAccum_set _ _ ha hr, ← State.setShifted]

theorem State.regz_set {q : Reg} (hq : r ≠ q) : (s.set r v).regz q = s.regz q := by
  rw [State.regz, s.get_set_ne v hq.symm, ← State.regz]

theorem State.operandV_set {ro : Reg} (ho : r ≠ ro) (lit : Word) : (s.set r v).operandV lit ro = s.operandV lit ro := by
  rw [State.operandV, s.regz_set v ho, ← State.operandV]

theorem State.cond_set (hr : r ≠ .status) (cc : Cond) : (s.set r v).cond cc = s.cond cc := by
  rw [State.cond, s.get_set_ne v hr.symm, ← State.cond]

theorem State.whenCond_set (hr : r ≠ .status) (cc : Cond) {k : State → State} (hk : k (s.set r v) = (k s).set r v) :
    (s.set r v).whenCond cc k = (s.whenCond cc k).set r v := by
  rw [State.whenCond, State.whenCond, s.cond_set v hr, hk]
  split <;> rfl

theorem State.pushThen_set (hp : r ≠ .sp) (hr : r ≠ .status) (w : Word) {k k' : State → State}
    (hk : ∀ t, k' (t.set r v) = (k t).set r v) : (s.set r v).pushThen w k' = (s.pushThen w k).set r v := by
  have slot : (s.set r v).pushSlot = s.pushSlot := by rw [State.pushSlot, s.get_set_ne v hp.symm, ← State.pushSlot]
  rw [State.pushThen, slot, writeWord_set]
  exact Bus.orFault_set v hr _ fun _ t => by rw [t.set_comm _ _ hp, hk]

theorem State.popThen_set (hp : r ≠ .sp) (hr : r ≠ .status) {k : Word → State → State}
    (hk : ∀ x t, k x (t.set r v) = (k x t).set r v) : (s.set r v).popThen k = (s.popThen k).set r v := by
  rw [State.popThen, s.get_set_ne v hp.symm, readWord_set]
  exact Bus.orFault_set v hr _ fun x t => by rw [t.set_comm _ _ hp, hk]

theorem State.returnFromInterrupt_set (hp : r ≠ .sp) (hi : r ≠ .ip) (hr : r ≠ .status) :
    (s.set r v).returnFromInterrupt = s.returnFromInterrupt.set r v := by
  rw [State.returnFromInterrupt, s.get_set_ne v hp.symm, s.get_set_ne v hr.symm, readWord_set]
  refine Bus.orFault_set v hr _ fun st t => ?_
  rw [readWord_set]
  refine Bus.orFault_set v hr _ fun p u => ?_
  rw [u.set_comm _ _ hp, State.set_comm _ _ _ hr, State.set_comm _ _ _ hi]

end Unseen

/-! ### An instruction does not see a plain register that it does not name (45_control.md R244) -/

/-- An ALU instruction reads ACCUM, STATUS and the registers its fields name. -/
theorem exec_alu_set {i : Instr} {s t : State} {r : Reg} (v : Word) (hi : i.isAlu = true) (ha : r ≠ .accum) (hs : r ≠ .status)
    (hn : r ∉ i.regsNamed) (h : exec i s = .next t) : exec i (s.set r v) = .next (t.set r v) := by
  cases i with
  | cmpi ra rb | cmpu ra rb | cmpf ra rb =>
    obtain ⟨hra, hrb⟩ : r ≠ ra ∧ r ≠ rb := by simpa [Instr.regsNamed] using hn
    cases h
    simp only [exec, execCmpi, execCmpu, execCmpf, s.regz_set v hra, s.regz_set v hrb, s.setNum_set v hs]
  | not ra | or ra | xor ra | and ra =>
    have hra : r ≠ ra := by simpa [Instr.regsNamed] using hn
    cases h
    simp only [exec, execNot, execOr, execXor, execAnd, State.setLogic, s.get_set_ne v ha.symm, s.get_set_ne v hra.symm,
      s.setAccum_set v ha hs]
  | addi ra | subi ra | muli ra | addu ra | subu ra | mulu ra =>
    have hra : r ≠ ra := by simpa [Instr.regsNamed] using hn
    cases h
    exact congrArg _ (s.arith_set v ha hs hra _)
  | divi ra | modi ra | divu ra | modu ra =>
    have hra : r ≠ ra := by simpa [Instr.regsNamed] using hn
    cases h
    exact congrArg _ (s.arithDiv_set v ha hs hra _)
  | addf ra | subf ra | mulf ra | divf ra | modf ra =>
    have hra : r ≠ ra := by simpa [Instr.regsNamed] using hn
    cases h
    exact congrArg _ (s.floatArith_set v ha hs hra _)
  | bsl rn rk | bsr rn rk =>
    obtain ⟨hrn, hrk⟩ : r ≠ rn ∧ r ≠ rk := by simpa [Instr.regsNamed] using hn
    cases h
    simp only [exec, execBsl, execBsr, s.get_set_ne v ha.symm, s.get_set_ne v hrn.symm, s.regz_set v hrk,
      s.setShifted_set v ha hs hrk]
  | nop | int | halt | sleep | sie | cie | ret | rti | inc | load | pop | call | mov | dec | loadl | store | push => cases hi

/-- Every other instruction reads the registers its fields name, and SP, IP and STATUS. -/
theorem exec_other_set {i : Instr} {s t : State} {r : Reg} (v : Word) (hi : i.isAlu = false) (hp : r ≠ .sp) (hip : r ≠ .ip)
    (hs : r ≠ .status) (hn : r ∉ i.regsNamed) (h : exec i s = .next t) : exec i (s.set r v) = .next (t.set r v) := by
  cases i with
  | nop | halt => cases h; rfl
  | int n => cases h; exact congrArg _ (s.raiseIrq_set v hs n)
  | sie | cie => cases h; simp only [exec, execSie, execCie, s.get_set_ne v hs.symm, s.set_comm _ _ hs]
  | sleep =>
    cases h
    simp only [exec, execSleep, s.get_set_ne v hs.symm, s.set_comm _ _ hs]
    rfl
  | ret => cases h; exact congrArg _ (s.popThen_set v hp hs fun x u => u.set_comm _ _ hip)
  | rti => cases h; exact congrArg _ (s.returnFromInterrupt_set v hp hip hs)
  | mov rd rs =>
    obtain ⟨hrd, hrs⟩ : r ≠ rd ∧ r ≠ rs := by simpa [Instr.regsNamed] using hn
    cases h
    simp only [exec, execMov, s.get_set_ne v hrs.symm, s.set_comm _ _ hrd]
  | inc rd cc ro lit | dec rd cc ro lit | loadl rd cc ro lit =>
    obtain ⟨hrd, hro⟩ : r ≠ rd ∧ r ≠ ro := by simpa [Instr.regsNamed] using hn
    cases h
    refine congrArg _ (s.whenCond_set v hs cc ?_)
    simp only [s.operandV_set v hro, s.get_set_ne v hrd.symm, s.set_comm _ _ hrd]
  | load rd cc ro lit =>
    obtain ⟨hrd, hro⟩ : r ≠ rd ∧ r ≠ ro := by simpa [Instr.regsNamed] using hn
    cases h
    refine congrArg _ (s.whenCond_set v hs cc ?_)
    rw [s.operandV_set v hro, readWord_set]
    exact Bus.orFault_set v hs _ fun x u => u.set_comm _ _ hrd
  | store rd cc ro lit =>
    obtain ⟨hrd, hro⟩ : r ≠ rd ∧ r ≠ ro := by simpa [Instr.regsNamed] using hn
    cases h
    refine congrArg _ (s.whenCond_set v hs cc ?_)
    rw [s.operandV_set v hro, s.get_set_ne v hrd.symm, writeWord_set]
    exact Bus.orFault_set v hs _ fun _ _ => rfl
  | push rs =>
    have hrs : r ≠ rs := by simpa [Instr.regsNamed] using hn
    cases h
    rw [exec, execPush, s.get_set_ne v hrs.symm]
    exact congrArg _ (s.pushThen_set v hp hs _ fun _ => rfl)
  | pop rd =>
    have hrd : r ≠ rd := by simpa [Instr.regsNamed] using hn
    cases h
    exact congrArg _ (s.popThen_set v hp hs fun x u => u.set_comm _ _ hrd)
  | call cc ro lit =>
    have hro : r ≠ ro := by simpa [Instr.regsNamed] using hn
    cases h
    refine congrArg _ (s.whenCond_set v hs cc ?_)
    rw [s.get_set_ne v hip.symm]
    exact s.pushThen_set v hp hs _ fun u => by rw [s.operandV_set v hro, u.set_comm _ _ hip]
  | not | or | xor | and | bsl | bsr | cmpi | addi | subi | muli | divi | modi | cmpu | addu | subu | mulu | divu | modu | cmpf
  | addf | subf | mulf | divf | modf => cases hi

/-- Settles O29: the register is written by no instruction that does not name it, and each operation commutes with a write
to it. -/
theorem unnamedRegistersDoNotMatter : Obligations.UnnamedRegistersDoNotMatter := by
  intro i s t r v hr hn h
  have plain : r ∉ specialRegs := not_mem_specialRegs_of_plain hr
  have special {q : Reg} (hq : q ∈ specialRegs) : r ≠ q := (ne_of_mem_of_not_mem hq plain).symm
  refine ⟨exec_keepsRegs h r fun hw => (Instr.mem_regsWritten hw).elim plain hn, ?_⟩
  cases hi : i.isAlu with
  | true => exact exec_alu_set v hi (special (by decide)) (special (by decide)) hn h
  | false => exact exec_other_set v hi (special (by decide)) (special (by decide)) (special (by decide)) hn h

end Sys2Proof.Machine

namespace Sys2Proof

/-! ### A well-formed map (20_memory.md R68, R70) -/

theorem mapDisjoint_iff (ps : Nat) (l : List Region) :
    mapDisjoint ps l = true ↔ l.Pairwise fun r q => r.disjoint ps q = true := by
  induction l with
  | nil => simp [mapDisjoint]
  | cons r rest ih => simp [mapDisjoint, ih]

/-- What a well-formed configuration says of one region of its map. -/
structure Region.FitsIn (c : Config) (r : Region) : Prop where
  base : c.pageSize ∣ r.base
  size : c.pageSize ∣ r.size
  within : r.pages c.pageSize = 0 ∨ r.endPage c.pageSize ≤ c.pageCount

theorem Config.pageSize_pos_of_wf {c : Config} (h : c.wf = true) : 0 < c.pageSize := by
  simp only [Config.wf, Config.pageSizeOk, Bool.and_eq_true, decide_eq_true_eq] at h
  omega

theorem Config.fitsIn_of_wf {c : Config} (h : c.wf = true) {r : Region} (hr : r ∈ c.map) : r.FitsIn c := by
  simp only [Config.wf, Bool.and_eq_true] at h
  obtain ⟨⟨⟨⟨-, regions⟩, -⟩, -⟩, -⟩ := h
  have ok := List.all_eq_true.1 regions r hr
  simp only [Region.aligned, Region.withinPages, Bool.and_eq_true, Bool.or_eq_true, beq_iff_eq, decide_eq_true_eq] at ok
  obtain ⟨⟨hb, hs⟩, hw⟩ := ok
  exact ⟨Nat.dvd_of_mod_eq_zero hb, Nat.dvd_of_mod_eq_zero hs, hw⟩

theorem Config.pairwise_disjoint_of_wf {c : Config} (h : c.wf = true) :
    c.map.Pairwise fun r q => r.disjoint c.pageSize q = true := by
  simp only [Config.wf, Bool.and_eq_true] at h
  obtain ⟨⟨⟨-, disjoint⟩, -⟩, -⟩ := h
  exact (mapDisjoint_iff _ _).1 disjoint

/-- A region of whole pages ends where its last page does: nothing is rounded up. -/
theorem Region.FitsIn.endPage_eq {c : Config} {r : Region} (h : r.FitsIn c) (hp : 0 < c.pageSize) :
    r.endPage c.pageSize = (r.base + r.size) / c.pageSize := by
  obtain ⟨n, hn⟩ := Nat.dvd_add h.base h.size
  rw [Region.endPage, hn, Nat.mul_add_div hp, Nat.mul_div_cancel_left n hp, Nat.div_eq_of_lt (by omega), Nat.add_zero]

/-- Where at most one element of a list passes a test, the first to pass is the one that does. -/
theorem find?_eq_some_iff_of_pairwise {α : Type} {p : α → Bool} {l : List α} {x : α}
    (h : l.Pairwise fun y z => p y = true → p z = true → False) : l.find? p = some x ↔ x ∈ l ∧ p x = true := by
  constructor
  · exact fun hx => ⟨List.mem_of_find?_eq_some hx, List.find?_some hx⟩
  · rintro ⟨hm, hx⟩
    induction l with
    | nil => cases hm
    | cons y rest ih =>
      obtain ⟨hy, hrest⟩ := List.pairwise_cons.1 h
      rcases List.mem_cons.1 hm with rfl | hm
      · exact List.find?_cons_of_pos hx
      · rw [List.find?_cons_of_neg fun py => hy x hm py hx]
        exact ih hrest hm

end Sys2Proof

namespace Sys2Proof.Machine

/-! ### The owner of an address (20_memory.md R68 to R70) -/

theorem regionClaims_iff (ps page : Nat) (r : Region) :
    regionClaims ps page r = true ↔ r.firstPage ps ≤ page ∧ page < r.endPage ps := by
  simp [regionClaims]

/-- A region of a well-formed map claims the page of an address exactly when it contains the address. -/
theorem regionClaims_iff_contains {c : Config} {r : Region} (h : r.FitsIn c) (hp : 0 < c.pageSize) (x : Nat) :
    regionClaims c.pageSize (x / c.pageSize) r = true ↔ r.base ≤ x ∧ x < r.base + r.size := by
  rw [regionClaims_iff, Region.firstPage, h.endPage_eq hp, Nat.le_div_iff_mul_le hp, Nat.div_lt_iff_lt_mul hp,
    Nat.div_mul_cancel h.base, Nat.div_mul_cancel (Nat.dvd_add h.base h.size)]

/-- Two regions that claim one page are not disjoint. -/
theorem not_disjoint_of_regionClaims {ps page : Nat} {r q : Region} (hr : regionClaims ps page r = true)
    (hq : regionClaims ps page q = true) : ¬ r.disjoint ps q = true := by
  rw [regionClaims_iff] at hr hq
  rw [Region.disjoint, decide_eq_true_eq]
  omega

theorem page_lt_of_regionClaims {c : Config} {r : Region} (h : r.FitsIn c) {page : Nat}
    (hc : regionClaims c.pageSize page r = true) : page < c.pageCount := by
  rw [regionClaims_iff] at hc
  have within := h.within
  rw [Region.pages] at within
  omega

theorem ownerOf_eq_some_iff {c : Config} (h : c.wf = true) (a : Word) (r : Region) :
    ownerOf c a = some r ↔ r ∈ c.map ∧ regionClaims c.pageSize (a.toNat / c.pageSize) r = true := by
  have one := find?_eq_some_iff_of_pairwise (x := r) <| (Config.pairwise_disjoint_of_wf h).imp
    fun hd (hr : regionClaims c.pageSize (a.toNat / c.pageSize) _ = true) hq => not_disjoint_of_regionClaims hr hq hd
  rw [ownerOf]
  split
  · exact one
  · next beyond =>
    exact ⟨(nomatch ·), fun ⟨hm, hc⟩ => absurd (page_lt_of_regionClaims (Config.fitsIn_of_wf h hm) hc) beyond⟩

/-- Settles O31: on page-aligned regions a claim of the page is containment, and disjoint regions leave one claimant. -/
theorem ownerContainsAddress : Obligations.OwnerContainsAddress := by
  intro c a h
  have hp := Config.pageSize_pos_of_wf h
  refine ⟨fun r => ?_, fun beyond => ?_⟩
  · rw [ownerOf_eq_some_iff h]
    exact and_congr_right fun hr => regionClaims_iff_contains (Config.fitsIn_of_wf h hr) hp a.toNat
  · have : ¬ a.toNat / c.pageSize < c.pageCount := by
      rwa [Nat.div_lt_iff_lt_mul hp, Nat.mul_comm, Nat.not_lt]
    exact if_neg this

end Sys2Proof.Machine

namespace Sys2Proof.Machine

/-! ### A word read back (20_memory.md R62, R64, R65) -/

/-- Two neighbouring bytes of a word, read as an opcode word. -/
theorem leOpWord_byteOf (v : Word) (k : Nat) : leOpWord [byteOf v k, byteOf v (k + 1)] = v.extractLsb' (8 * k) 16 := by
  apply BitVec.eq_of_toNat_eq
  have split : v.toNat / 2 ^ (8 * (k + 1)) = v.toNat / 2 ^ (8 * k) / 256 := by
    rw [Nat.div_div_eq_div_mul, Nat.mul_succ, Nat.pow_add]
  simp only [leOpWord, leNat, byteOf, BitVec.extractLsb'_toNat, BitVec.toNat_ofNat, Nat.shiftRight_eq_div_pow, split]
  omega

/-- The opcode word inside a stored word, from its byte `k` on. -/
theorem readOpWord_stored {a v : Word} {s t : State} (hr : RamRange t.cfg a 4) (hs : Stored a v 4 s t) {k : Nat} (hk : k ≤ 2) :
    readOpWord (a + BitVec.ofNat 32 k) t = .ok (v.extractLsb' (8 * k) 16) t := by
  have range : RamRange t.cfg (a + BitVec.ofNat 32 k) 2 := fun i hi => by
    rw [addr_add]
    exact hr (k + i) (by omega)
  have bytes : t.bytesAt (a + BitVec.ofNat 32 k) 2 = [byteOf v k, byteOf v (k + 1)] := by
    rw [State.bytesAt_succ, State.bytesAt_succ, State.bytesAt_zero, add_assoc, ← hs.1 k (by omega), ← hs.1 (k + 1) (by omega),
      BitVec.ofNat_add]
  rw [readOpWord_ram range, bytes, leOpWord_byteOf]

/-- Settles O30: the word is stored byte by byte, and each read gathers the bytes it covers. -/
theorem storedWordReadsBack : Obligations.StoredWordReadsBack := by
  intro s a v h
  obtain ⟨t, ht, stored, word, -, rest⟩ := writeWord_ram (v := v) h
  have range : RamRange t.cfg a 4 := by rwa [rest.cfg]
  have half {k : Nat} (hk : k ≤ 2) := readOpWord_stored range stored hk
  refine ⟨t, ht, by rw [readWord_ram range, word], ?_, half (k := 1) (by omega), half (k := 2) (by omega)⟩
  simpa using half (k := 0) (by omega)

end Sys2Proof.Machine

namespace Sys2Proof.Machine

/-! ### Memory instructions on mapped addresses, devices included (20_memory.md R71 to R76) -/

theorem MappedRange.split {c : Config} {a : Word} {m n : Nat} (h : MappedRange c a (m + n)) :
    MappedRange c a m ∧ MappedRange c (a + BitVec.ofNat 32 m) n :=
  ⟨fun k hk => h k (by omega), fun k hk => by rw [addr_add]; exact h (m + k) (by omega)⟩

theorem exec_load_of_cond {s : State} {cc : Cond} (h : s.cond cc = true) (rd ro : Reg) (lit : Word) :
    exec (.load rd cc ro lit) s = .next ((readWord (s.operandV lit ro) s).orFault fun v t => t.set rd v) :=
  congrArg _ (State.whenCond_true h _)

theorem exec_store_of_cond {s : State} {cc : Cond} (h : s.cond cc = true) (r ro : Reg) (lit : Word) :
    exec (.store r cc ro lit) s = .next ((writeWord (s.operandV lit ro) (s.get r) s).orFault fun _ t => t) :=
  congrArg _ (State.whenCond_true h _)

theorem exec_call_of_cond {s : State} {cc : Cond} (h : s.cond cc = true) (ro : Reg) (lit : Word) :
    exec (.call cc ro lit) s = .next (s.pushThen (s.get .ip) fun t => t.set .ip (s.operandV lit ro)) :=
  congrArg _ (State.whenCond_true h _)

theorem exec_push (r : Reg) (s : State) : exec (.push r) s = .next (s.pushThen (s.get r) id) := rfl

theorem exec_pop (rd : Reg) (s : State) : exec (.pop rd) s = .next (s.popThen fun v t => t.set rd v) := rfl

theorem exec_ret (s : State) : exec .ret s = .next (s.popThen fun v t => t.set .ip v) := rfl

theorem exec_rti (s : State) : exec .rti s = .next s.returnFromInterrupt := rfl

/-- A pop from mapped addresses reads a word, whatever comes after it. -/
theorem State.popThen_mapped {s : State} (h : MappedRange s.cfg (s.get .sp) 4) :
    ∃ v n, (∀ k, s.popThen k = k v ((s.useFree n).set .sp (s.get .sp + 4#32))) ∧ ReadFrom s (s.get .sp) v := by
  obtain ⟨v, n, hread, hv⟩ := readWord_mapped h
  exact ⟨v, n, fun k => by rw [State.popThen, hread, Bus.orFault], hv⟩

/-- A return from an interrupt on a mapped stack reads both words; the first read moves the free index only. -/
theorem State.returnFromInterrupt_mapped {s : State} (h : MappedRange s.cfg (s.get .sp) 8) :
    ∃ v p n, s.returnFromInterrupt =
        (((s.useFree n).set .sp (s.get .sp + 8#32)).set .status (rtiStatus v (s.get .status))).set .ip p ∧
      ReadFrom s (s.get .sp) v ∧ ReadFrom s (s.get .sp + 4#32) p := by
  obtain ⟨low, high⟩ := MappedRange.split (m := 4) (n := 4) h
  obtain ⟨v, m, readStatus, hv⟩ := readWord_mapped low
  obtain ⟨p, n, readIp, hp⟩ := readWord_mapped (s := s.useFree m) (a := s.get .sp + 4#32) high
  refine ⟨v, p, m + n, ?_, hv, hp⟩
  simp only [State.returnFromInterrupt, readStatus, readIp, Bus.orFault, State.useFree_useFree]

/-- Settles O32: each of the four is a word read, or two, of mapped addresses, and register writes. -/
theorem mappedReadsComplete : Obligations.MappedReadsComplete := by
  refine fun s rd ro cc lit => ⟨fun hc h => ?_, fun h => ?_, fun h => ?_, fun h => ?_⟩
  · obtain ⟨v, k, hread, hv⟩ := readWord_mapped h
    exact ⟨v, k, by rw [exec_load_of_cond hc, hread, Bus.orFault], hv⟩
  · obtain ⟨v, k, hpop, hv⟩ := State.popThen_mapped h
    exact ⟨v, k, by rw [exec_pop, hpop], hv⟩
  · obtain ⟨v, k, hpop, hv⟩ := State.popThen_mapped h
    exact ⟨v, k, by rw [exec_ret, hpop], hv⟩
  · obtain ⟨v, p, k, hrti, hv, hp⟩ := State.returnFromInterrupt_mapped h
    exact ⟨v, p, k, by rw [exec_rti, hrti], hv, hp⟩

/-- Registers do not matter to what a write left in memory and on record. -/
theorem OfferedWord.set {a v : Word} {s t : State} (h : OfferedWord a v s t) (r : Reg) (w : Word) :
    OfferedWord a v s (t.set r w) where
  cfg := h.cfg
  halted := h.halted
  fatal := h.fatal
  queue := h.queue
  report := h.report
  offered :=
    have ⟨j, o⟩ := h.offered
    ⟨j, o.bound, o.refused, o.written, o.kept, o.calls⟩

/-- A push to mapped addresses offers the word and moves SP, whatever comes after it. -/
theorem State.pushThen_mapped {s : State} (v : Word) (h : MappedRange s.cfg (s.get .sp - 4#32) 4) :
    ∃ t, (∀ k, s.pushThen v k = k (t.set .sp (s.get .sp - 4#32))) ∧ OfferedWord (s.get .sp - 4#32) v s t ∧ WriteKeeps s t := by
  obtain ⟨t, hwrite, offered, keeps⟩ := writeWord_mapped (v := v) h
  exact ⟨t, fun k => by rw [State.pushThen, State.pushSlot, hwrite, Bus.orFault], offered, keeps⟩

/-- Registers of the list written after a write on the bus. -/
theorem WriteKeeps.keepsRegs {l : List Reg} {s t u : State} (h : WriteKeeps s t) (h' : WritesRegs l t u) : KeepsRegs l s u :=
  fun r hr => (h'.regs r hr).trans (h.get r)

/-- Settles O33: each of the three is a word write to mapped addresses, with the writes of SP and IP after it. -/
theorem mappedWritesComplete : Obligations.MappedWritesComplete := by
  refine fun s r ro cc lit => ⟨fun hc h => ?_, fun h => ?_, fun hc h => ?_⟩
  · obtain ⟨t, hwrite, offered, keeps⟩ := writeWord_mapped (v := s.get r) h
    exact ⟨t, by rw [exec_store_of_cond hc, hwrite, Bus.orFault], offered, fun q _ => keeps.get q⟩
  · obtain ⟨t, hpush, offered, keeps⟩ := State.pushThen_mapped (s.get r) h
    exact ⟨_, by rw [exec_push, hpush, id], offered.set .sp _, State.get_set_self _ _ _, keeps.keepsRegs (.of_set t (by decide) _)⟩
  · obtain ⟨t, hpush, offered, keeps⟩ := State.pushThen_mapped (s.get .ip) h
    exact ⟨_, by rw [exec_call_of_cond hc, hpush], (offered.set .sp _).set .ip _, by simp, State.get_set_self _ _ _,
      keeps.keepsRegs (.set_sp_ip t _ _)⟩

end Sys2Proof.Machine

namespace Sys2Proof

/-! ### Opcode words by their fields (30_encoding.md R103) -/

@[simp] theorem packOp_inj {g f1 f2 f3 g' f1' f2' f3' : BitVec 4} :
    packOp g f1 f2 f3 = packOp g' f1' f2' f3' ↔ g = g' ∧ f1 = f1' ∧ f2 = f2' ∧ f3 = f3' := by
  constructor
  · intro h
    exact ⟨by simpa using congrArg opGrp h, by simpa using congrArg opF1 h, by simpa using congrArg opF2 h,
      by simpa using congrArg opF3 h⟩
  · rintro ⟨rfl, rfl, rfl, rfl⟩
    rfl

/-- A mask acts on the four fields apart. -/
theorem and_packOp (w : OpWord) (m m1 m2 m3 : BitVec 4) :
    w &&& packOp m m1 m2 m3 = packOp (opGrp w &&& m) (opF1 w &&& m1) (opF2 w &&& m2) (opF3 w &&& m3) := by
  conv_lhs => rw [← packOp_fields w]
  refine BitVec.eq_of_getLsbD_eq fun i _ => ?_
  simp only [BitVec.getLsbD_and, getLsbD_packOp]
  split_ifs <;> rfl

@[simp] theorem and_field_ones (f : BitVec 4) : f &&& 0xF#4 = f := BitVec.and_allOnes

@[simp] theorem and_0xFFFF (w : OpWord) : w &&& 0xFFFF#16 = packOp (opGrp w) (opF1 w) (opF2 w) (opF3 w) :=
  (and_packOp w 0xF 0xF 0xF 0xF).trans (by simp)

@[simp] theorem and_0xFF0F (w : OpWord) : w &&& 0xFF0F#16 = packOp (opGrp w) 0#4 (opF2 w) (opF3 w) :=
  (and_packOp w 0xF 0 0xF 0xF).trans (by simp)

@[simp] theorem and_0x0FFF (w : OpWord) : w &&& 0x0FFF#16 = packOp (opGrp w) (opF1 w) (opF2 w) 0#4 :=
  (and_packOp w 0xF 0xF 0xF 0).trans (by simp)

@[simp] theorem and_0x00FF (w : OpWord) : w &&& 0x00FF#16 = packOp (opGrp w) (opF1 w) 0#4 0#4 :=
  (and_packOp w 0xF 0xF 0 0).trans (by simp)

@[simp] theorem and_0x000F (w : OpWord) : w &&& 0x000F#16 = packOp (opGrp w) 0#4 0#4 0#4 :=
  (and_packOp w 0xF 0 0 0).trans (by simp)

/-! The interrupt number of INT is the only operand that two fields share. -/

@[simp] theorem extractLsb'_low_append (hi lo : BitVec 4) : (hi ++ lo).extractLsb' 0 4 = lo :=
  BitVec.extractLsb'_append_eq_right

@[simp] theorem extractLsb'_high_append (hi lo : BitVec 4) : (hi ++ lo).extractLsb' 4 4 = hi :=
  BitVec.extractLsb'_append_eq_left

@[simp] theorem append_extractLsb' (v : BitVec 8) : v.extractLsb' 4 4 ++ v.extractLsb' 0 4 = v := by
  rw [BitVec.extractLsb'_append_extractLsb'_eq_extractLsb' (by rfl)]
  simp

/-! ### The decoder and the encoder on opcode words (30_encoding.md R104 to R110) -/

/-- `w` is the opcode word of `i`, up to the bits that `i` ignores. -/
def Instr.SelectedBy (i : Instr) (w : OpWord) : Prop := w &&& ~~~i.ignoredBits = encodeWord i

/-- The encoder writes the ignored bits as 0. -/
theorem selectedBy_encodeWord (i : Instr) : i.SelectedBy (encodeWord i) := by
  cases i <;> simp only [Instr.SelectedBy, Instr.ignoredBits, encodeWord] <;> simp

/-- The fields of a word that selects an instruction lead the decoder to it, its literal not yet fetched. -/
theorem decodeWord_of_selectedBy {w : OpWord} {i : Instr} (h : i.SelectedBy w) :
    decodeWord w = .ok (i.withLiteral 0#32) := by
  cases i
  all_goals
    simp only [Instr.SelectedBy, Instr.ignoredBits, encodeWord] at h
    simp only [BitVec.reduceNot, and_0xFFFF, and_0xFF0F, and_0x0FFF, and_0x00FF, packOp_inj,
      BitVec.ofNat_eq_ofNat] at h
    simp [decodeWord, decodeT0, decodeT2, decodeT3, decodeT4, Instr.withLiteral, h]

/-- Each leaf of the dispatch tree answers an instruction that the word selects. The first split is on `grp`, the second on `f1`
in the groups that have a table; `cases h` drops the unknown keys. -/
theorem selectedBy_of_decodeWord {w : OpWord} {i : Instr} (h : decodeWord w = .ok i) :
    i.withLiteral 0#32 = i ∧ i.SelectedBy w := by
  unfold decodeWord decodeT0 decodeT2 decodeT3 decodeT4 at h
  split at h
  any_goals split at h
  all_goals cases h
  all_goals
    refine ⟨rfl, ?_⟩
    simp only [Instr.SelectedBy, Instr.ignoredBits, encodeWord]
    simp [*]

theorem decodeWord_encodeWord (i : Instr) : decodeWord (encodeWord i) = .ok (i.withLiteral 0#32) :=
  decodeWord_of_selectedBy (selectedBy_encodeWord i)

/-! ### The decoder on encoded bytes (30_encoding.md R100) -/

theorem decode_short {w : OpWord} {j : Instr} (hw : decodeWord w = .ok j) (hl : j.hasLiteral = false) (rest : List Byte) :
    decode (leBytes 2 w.toNat ++ rest) = .ok (j, rest) := by
  rw [← leOpWord_leBytes w] at hw
  simp only [leBytes] at hw
  simp only [leBytes, List.cons_append, List.nil_append, decode, hw, hl, Bool.false_eq_true, if_false]

theorem decode_long {w : OpWord} {j : Instr} (hw : decodeWord w = .ok j) (hl : j.hasLiteral = true) (lit : Word)
    (rest : List Byte) :
    decode (leBytes 2 w.toNat ++ (leBytes 4 lit.toNat ++ rest)) = .ok (j.withLiteral lit, rest) := by
  rw [← leOpWord_leBytes w] at hw
  have literal := leWord_leBytes lit
  simp only [leBytes] at hw literal
  simp only [leBytes, List.cons_append, List.nil_append, decode, hw, hl, literal, if_true]

theorem Instr.withLiteral_withLiteral (i : Instr) (l l' : Word) : (i.withLiteral l).withLiteral l' = i.withLiteral l' := by
  cases i <;> rfl

theorem Instr.of_literal?_none {i : Instr} (h : i.literal? = none) : i.hasLiteral = false ∧ ∀ l, i.withLiteral l = i := by
  cases i <;> cases h <;> exact ⟨rfl, fun _ => rfl⟩

theorem Instr.of_literal?_some {i : Instr} {lit : Word} (h : i.literal? = some lit) :
    i.hasLiteral = true ∧ i.withLiteral lit = i := by
  cases i <;> cases h <;> exact ⟨rfl, rfl⟩

/-- Settles O1: the opcode word decodes to the instruction without its literal, and the literal, if any, follows it. -/
theorem decodeOfEncode : Obligations.DecodeOfEncode := by
  intro i rest
  have word := decodeWord_encodeWord i
  cases hlit : i.literal? with
  | none =>
    obtain ⟨short, same⟩ := Instr.of_literal?_none hlit
    rw [same] at word
    simpa [encode, hlit] using decode_short word short rest
  | some lit =>
    obtain ⟨long, same⟩ := Instr.of_literal?_some hlit
    have bytes := decode_long word (by simpa using long) lit rest
    rw [Instr.withLiteral_withLiteral, same] at bytes
    simpa [encode, hlit] using bytes

/-- Settles O5: the encoder's bytes are computed, and O1 reads them back. -/
theorem workedEncodings : Obligations.WorkedEncodings := by
  intro p hp
  have written : encode p.1 = p.2 := by
    revert p
    decide
  have read := decodeOfEncode p.1 []
  rw [List.append_nil, written] at read
  exact ⟨written, read⟩

/-- Settles O3: what the decoder answers rests on the bits outside the ignored ones alone. -/
theorem ignoredBitsDoNotMatter : Obligations.IgnoredBitsDoNotMatter := by
  intro w i h
  obtain ⟨noLiteral, selected⟩ := selectedBy_of_decodeWord h
  refine ⟨selected.symm, fun v hv => ?_⟩
  rw [decodeWord_of_selectedBy (hv.trans selected), noLiteral]

/-! ### The opcode map (30_encoding.md R110) -/

/-- The bits by which the decoder selects an instruction: `grp`, and `f1` too in a group that has a table of its own
(30_encoding.md R104, R105, R106). -/
def Instr.keyMask : Instr → OpWord
  | .inc .. | .load .. | .pop _ | .call .. | .mov _ _ | .dec .. | .loadl .. | .store .. | .push _ => 0x000F#16
  | _ => 0x00FF#16

/-- The row of the opcode map for an instruction. -/
def Instr.row (i : Instr) : OpcodeRow := ⟨i.mnemonic, encodeWord i &&& i.keyMask, i.keyMask, i.length⟩

/-- The constructors stand in the order of the map. -/
theorem Instr.row_mem (i : Instr) : i.row ∈ opcodeRows := by
  refine List.mem_of_getElem? (i := i.ctorIdx) ?_
  cases i <;> simp only [Instr.row, Instr.keyMask, encodeWord, and_0x000F, and_0x00FF, opGrp_packOp, opF1_packOp] <;> rfl

theorem mnemonics_nodup : (opcodeRows.map OpcodeRow.mnemonic).Nodup := by decide

theorem Instr.row_eq_of_mnemonic {i : Instr} {row : OpcodeRow} (hrow : row ∈ opcodeRows) (h : i.mnemonic = row.mnemonic) :
    i.row = row :=
  List.inj_on_of_nodup_map mnemonics_nodup i.row_mem hrow h

/-- The map has no row without an instruction: its match is an opcode word of one. -/
theorem exists_row_eq {row : OpcodeRow} (h : row ∈ opcodeRows) : ∃ i : Instr, i.row = row := by
  have decoded : ∀ row ∈ opcodeRows, (decodeWord row.pattern).toOption.map Instr.row = some row := by decide
  obtain ⟨i, -, hi⟩ := Option.map_eq_some_iff.mp (decoded row h)
  exact ⟨i, hi⟩

theorem Instr.used_and_keyMask (i : Instr) : ~~~i.ignoredBits &&& i.keyMask = i.keyMask := by
  cases i <;> simp only [Instr.ignoredBits, Instr.keyMask] <;> rfl

theorem keyMask_eq_of_selectedBy {w : OpWord} {i : Instr} (h : i.SelectedBy w) :
    w &&& i.keyMask = encodeWord i &&& i.keyMask := by
  rw [← h, BitVec.and_assoc, i.used_and_keyMask]

/-- The key of an instruction leads the decoder to an instruction of the same name, whatever the fields hold. -/
theorem decodeWord_of_keyMask_eq {w : OpWord} {j : Instr} (h : w &&& j.keyMask = encodeWord j &&& j.keyMask) :
    ∃ i, decodeWord w = .ok i ∧ i.mnemonic = j.mnemonic ∧ i.length = j.length := by
  cases j
  all_goals
    simp only [Instr.keyMask, encodeWord, and_0x000F, and_0x00FF, opGrp_packOp, opF1_packOp, packOp_inj, and_true,
      BitVec.ofNat_eq_ofNat] at h
    simp [decodeWord, decodeT0, decodeT2, decodeT3, decodeT4, Instr.mnemonic, Instr.length, Instr.hasLiteral, h]

/-- Settles O2: a word matches the row of the instruction it decodes to, and no other row has that mnemonic. -/
theorem decodeFollowsOpcodeMap : Obligations.DecodeFollowsOpcodeMap := by
  intro w row hrow
  constructor
  · intro hmatch
    obtain ⟨j, rfl⟩ := exists_row_eq hrow
    exact decodeWord_of_keyMask_eq hmatch
  · rintro ⟨i, hi, hmnemonic, -⟩
    obtain rfl := Instr.row_eq_of_mnemonic hrow hmnemonic
    exact keyMask_eq_of_selectedBy (selectedBy_of_decodeWord hi).2

/-! ### The words that select nothing (30_encoding.md R108) -/

theorem decodeT0_error_iff (w : OpWord) : (∃ e, decodeT0 w = .error e) ↔ opF1 w = 0xE ∨ opF1 w = 0xF := by
  unfold decodeT0
  split <;> simp [*]
  simp only [imp_false] at *
  bv_omega

/-- The shape that the tables T2, T3 and T4 share (30_encoding.md R106). -/
def arithTable (w : OpWord) (cmp : Reg → Reg → Instr) (add sub mul div mod : Reg → Instr) : Except DecodeReject Instr :=
  match opF1 w with
  | 0x0#4 => .ok (cmp (.ofField (opF2 w)) (.ofField (opF3 w)))
  | 0x1#4 => .ok (add (.ofField (opF2 w)))
  | 0x2#4 => .ok (sub (.ofField (opF2 w)))
  | 0x3#4 => .ok (mul (.ofField (opF2 w)))
  | 0x4#4 => .ok (div (.ofField (opF2 w)))
  | 0x5#4 => .ok (mod (.ofField (opF2 w)))
  | _ => .error (.unknownKey w)

theorem decodeT2_eq (w : OpWord) : decodeT2 w = arithTable w .cmpi .addi .subi .muli .divi .modi := rfl

theorem decodeT3_eq (w : OpWord) : decodeT3 w = arithTable w .cmpu .addu .subu .mulu .divu .modu := rfl

theorem decodeT4_eq (w : OpWord) : decodeT4 w = arithTable w .cmpf .addf .subf .mulf .divf .modf := rfl

theorem arithTable_error_iff (w : OpWord) (cmp : Reg → Reg → Instr) (add sub mul div mod : Reg → Instr) :
    (∃ e, arithTable w cmp add sub mul div mod = .error e) ↔ 6 ≤ (opF1 w).toNat := by
  unfold arithTable
  split <;> simp [*]
  simp only [imp_false] at *
  bv_omega

/-- Settles O4: the root rejects three groups, and each of the four tables rejects the keys it does not list. -/
theorem unknownWords : Obligations.UnknownWords := by
  intro w
  unfold decodeWord
  split <;> simp [*, decodeT0_error_iff, decodeT2_eq, decodeT3_eq, decodeT4_eq, arithTable_error_iff]
  simp only [imp_false] at *
  bv_omega

end Sys2Proof

namespace Sys2Proof.Machine

/-! ### The operand value and a false condition (30_encoding.md R120 to R122) -/

theorem State.operandV_ins (s : State) (lit : Word) : s.operandV lit .ins = lit := by simp [State.operandV]

theorem State.operandV_ne (s : State) (lit : Word) {ro : Reg} (h : ro ≠ .ins) : s.operandV lit ro = lit + s.get ro := by
  simp [State.operandV, h]

/-- Settles O35: INS is the zero sentinel of the offset, and each conditional instruction is a `whenCond`. -/
theorem operandValueAndFalseCondition : Obligations.OperandValueAndFalseCondition := by
  intro s rd ro cc lit
  refine ⟨s.operandV_ins lit, s.operandV_ne lit, fun h => ?_⟩
  have skip (k : State → State) : (.next (s.whenCond cc k) : Host.Outcome State Fault Refusal) = .next s :=
    congrArg _ (State.whenCond_false h k)
  exact ⟨skip _, skip _, skip _, skip _, skip _, skip _⟩

end Sys2Proof.Machine

namespace Sys2Proof

/-! ### Opcode words as the spec writes them (30_encoding.md R110 to R119) -/

/-- An opcode word is its key, with the operand fields at bits 11:8 and 15:12. -/
theorem packOp_eq_or (g f1 f2 f3 : BitVec 4) :
    packOp g f1 f2 f3 = packOp g f1 0 0 ||| (f2.setWidth 16 <<< 8) ||| (f3.setWidth 16 <<< 12) := by
  refine BitVec.eq_of_getLsbD_eq fun i hi => ?_
  simp only [BitVec.getLsbD_or, BitVec.getLsbD_shiftLeft, BitVec.getLsbD_setWidth, getLsbD_packOp]
  grind

theorem wordOf_of_encodeWord {i : Instr} {w : OpWord} (h : encodeWord i = w) : WordOf i w :=
  ⟨h, h ▸ decodeWord_encodeWord i⟩

/-- The opcode word of an instruction with the key `g`, `f1` and two register operands. -/
theorem wordOf_two_regs {i : Instr} {ra rb : Reg} (g f1 : BitVec 4) (h : encodeWord i = packOp g f1 ra.field rb.field) :
    WordOf i (packOp g f1 0 0 ||| (ra.field.setWidth 16 <<< 8) ||| (rb.field.setWidth 16 <<< 12)) :=
  wordOf_of_encodeWord (h.trans (packOp_eq_or ..))

/-- The opcode word of an instruction with the key `g`, `f1` and one register operand. -/
theorem wordOf_one_reg {i : Instr} {ra : Reg} (g f1 : BitVec 4) (h : encodeWord i = packOp g f1 ra.field 0) :
    WordOf i (packOp g f1 0 0 ||| (ra.field.setWidth 16 <<< 8)) :=
  wordOf_of_encodeWord (by simpa using h.trans (packOp_eq_or ..))

end Sys2Proof

namespace Sys2Proof.Machine

/-! ### The integer instructions as their shapes (40_arith_int.md R140, R156) -/

theorem exec_cmpi (ra rb : Reg) (s : State) :
    exec (.cmpi ra rb) s = .next (s.setNum (cmpiNums (s.regz ra) (s.regz rb))) := rfl
theorem exec_cmpu (ra rb : Reg) (s : State) :
    exec (.cmpu ra rb) s = .next (s.setNum (cmpuNums (s.regz ra) (s.regz rb))) := rfl
theorem exec_addi (ra : Reg) (s : State) : exec (.addi ra) s = .next (s.arith ra addOp) := rfl
theorem exec_addu (ra : Reg) (s : State) : exec (.addu ra) s = .next (s.arith ra addOp) := rfl
theorem exec_subi (ra : Reg) (s : State) : exec (.subi ra) s = .next (s.arith ra subOp) := rfl
theorem exec_subu (ra : Reg) (s : State) : exec (.subu ra) s = .next (s.arith ra subOp) := rfl
theorem exec_muli (ra : Reg) (s : State) : exec (.muli ra) s = .next (s.arith ra muliOp) := rfl
theorem exec_mulu (ra : Reg) (s : State) : exec (.mulu ra) s = .next (s.arith ra muluOp) := rfl
theorem exec_divi (ra : Reg) (s : State) : exec (.divi ra) s = .next (s.arithDiv ra diviOp) := rfl
theorem exec_divu (ra : Reg) (s : State) : exec (.divu ra) s = .next (s.arithDiv ra divuOp) := rfl
theorem exec_modi (ra : Reg) (s : State) : exec (.modi ra) s = .next (s.arithDiv ra modiOp) := rfl
theorem exec_modu (ra : Reg) (s : State) : exec (.modu ra) s = .next (s.arithDiv ra moduOp) := rfl

theorem State.arithDiv_of_zero {s : State} {ra : Reg} (h : s.get ra = 0#32) (op : AluOp) :
    s.arithDiv ra op = s.setNum divZeroNums := if_pos h

theorem State.arithDiv_of_ne_zero {s : State} {ra : Reg} (h : s.get ra ≠ 0#32) (op : AluOp) :
    s.arithDiv ra op = s.arith ra op := if_neg h

/-- A flag that an instruction clears. -/
theorem clear_iff : false = true ↔ False := iff_false_intro Bool.false_ne_true

/-- A compare leaves its flags and its frame, each flag by the proposition it decides. -/
theorem FlagFrame.of_flags {s : State} {f : Nums} {z n c e : Prop}
    (hz : f.z = true ↔ z) (hn : f.n = true ↔ n) (hc : f.c = true ↔ c) (he : f.e = true ↔ e) :
    FlagFrame s (s.setNum f) ∧ NumsAre (s.setNum f) z n c e := by
  obtain ⟨nums, frame⟩ := FlagFrame.of_setNum s f
  rw [hz, hn, hc, he] at nums
  exact ⟨frame, nums⟩

/-- An arithmetic instruction leaves the result of its operation, each flag by the proposition it decides. -/
theorem AluResult.of_arith {s : State} {ra : Reg} {op : AluOp} {r : Word} {f : Nums} {z n c e : Prop}
    (hop : op (s.get .accum) (s.get ra) = (r, f))
    (hz : f.z = true ↔ z) (hn : f.n = true ↔ n) (hc : f.c = true ↔ c) (he : f.e = true ↔ e) :
    AluResult s (s.arith ra op) r z n c e := by
  have result := AluResult.of_setAccum s r f
  rw [hz, hn, hc, he] at result
  rwa [State.arith, hop]

/-- An instruction without CARRY and ERROR, whose ZERO and NEGATIVE come from the word written. -/
theorem AluResult.of_resultNums {s : State} {ra : Reg} {op : AluOp} {r : Word}
    (hop : op (s.get .accum) (s.get ra) = (r, resultNums r)) :
    AluResult s (s.arith ra op) r (r = 0#32) (r.msb = true) False False :=
  .of_arith hop beq_iff_eq .rfl clear_iff clear_iff

/-- A division or remainder by zero writes the flags alone, and sets ERROR alone of the four (R156). -/
theorem FlagFrame.of_divZeroNums (s : State) :
    FlagFrame s (s.setNum divZeroNums) ∧ NumsAre (s.setNum divZeroNums) False False False True :=
  FlagFrame.of_flags clear_iff clear_iff clear_iff (iff_true_intro rfl)

/-! ### Compares (40_arith_int.md R143, R149) -/

/-- Settles O36: each flag decides its comparison of the operands, and the write of the flags is the whole effect. -/
theorem integerCompares : Obligations.IntegerCompares := by
  intro s ra rb
  refine ⟨wordOf_two_regs 0x2 0x0 rfl, wordOf_two_regs 0x3 0x0 rfl,
    ⟨_, exec_cmpi ra rb s, ?_⟩, ⟨_, exec_cmpu ra rb s, ?_⟩⟩
  · exact FlagFrame.of_flags decide_eq_true_iff decide_eq_true_iff clear_iff clear_iff
  · exact FlagFrame.of_flags decide_eq_true_iff clear_iff decide_eq_true_iff clear_iff

/-! ### Sums and differences (40_arith_int.md R141, R142, R144, R145, R150, R151, R155) -/

theorem carryAdd_iff (a b r : Bool) : carryAdd a b r = true ↔ (a = true ∨ b = true) ∧ r = false := by
  simp [carryAdd]

theorem carrySub_iff (a b r : Bool) : carrySub a b r = true ↔ (a = false ∨ b = true) ∧ r = true := by
  simp [carrySub]

/-- The ERROR of ADDI, a function of three sign bits, is the signed overflow of the sum. -/
theorem addNums_e_iff (a b : Word) :
    (addNums a b (a + b)).e = true ↔ a.toInt + b.toInt < -2 ^ 31 ∨ 2 ^ 31 ≤ a.toInt + b.toInt := by
  have signs : (addNums a b (a + b)).e = a.saddOverflow b := BitVec.saddOverflow_eq a b |>.symm
  simp [signs, BitVec.saddOverflow, or_comm]

/-- The ERROR of SUBI, a function of three sign bits, is the signed overflow of the difference. -/
theorem subNums_e_iff (a b : Word) :
    (subNums a b (a - b)).e = true ↔ a.toInt - b.toInt < -2 ^ 31 ∨ 2 ^ 31 ≤ a.toInt - b.toInt := by
  have signs : (subNums a b (a - b)).e = a.ssubOverflow b := by
    rw [BitVec.ssubOverflow_eq, subNums]
    cases a.msb <;> cases b.msb <;> simp
  simp [signs, BitVec.ssubOverflow, or_comm]

/-- Settles O37: the four flags of the sum, ERROR by `addNums_e_iff`. -/
theorem addResult : Obligations.AddResult := by
  intro s ra
  refine ⟨wordOf_one_reg 0x2 0x1 rfl, wordOf_one_reg 0x3 0x1 rfl, (exec_addu ra s).trans (exec_addi ra s).symm,
    _, exec_addi ra s, ?_⟩
  exact .of_arith rfl beq_iff_eq .rfl (carryAdd_iff ..) (addNums_e_iff ..)

/-- Settles O38: the four flags of the difference, ERROR by `subNums_e_iff`. -/
theorem subResult : Obligations.SubResult := by
  intro s ra
  refine ⟨wordOf_one_reg 0x2 0x2 rfl, wordOf_one_reg 0x3 0x2 rfl, (exec_subu ra s).trans (exec_subi ra s).symm,
    _, exec_subi ra s, ?_⟩
  exact .of_arith rfl (beq_iff_eq.trans sub_eq_zero) .rfl (carrySub_iff ..) (subNums_e_iff ..)

/-! ### Products (40_arith_int.md R146, R152) -/

/-- The word of an integer is the integer modulo 2^32. -/
theorem toNat_ofInt_word (p : ℤ) : ((BitVec.ofInt 32 p).toNat : ℤ) = p % 2 ^ 32 := by
  rw [BitVec.toNat_ofInt, Int.toNat_of_nonneg (Int.emod_nonneg _ (by decide))]
  rfl

theorem muliNums_e_iff (p : ℤ) (r : Word) : (muliNums p r).e = true ↔ p > 2 ^ 31 - 1 ∨ p < -2 ^ 31 := by
  simp [muliNums]

/-- Settles O39: the word written is the exact product modulo 2^32, and the flags decide on the exact product. -/
theorem mulResult : Obligations.MulResult := by
  intro s ra
  refine ⟨wordOf_one_reg 0x2 0x3 rfl, wordOf_one_reg 0x3 0x3 rfl,
    ⟨_, _, exec_muli ra s, toNat_ofInt_word _, ?_⟩, ⟨_, _, exec_mulu ra s, BitVec.toNat_ofNat .., ?_⟩⟩
  · exact .of_arith rfl beq_iff_eq decide_eq_true_iff clear_iff (muliNums_e_iff ..)
  · exact .of_arith rfl beq_iff_eq .rfl clear_iff decide_eq_true_iff

/-! ### Quotients and remainders (40_arith_int.md R147, R148, R153, R154, R156) -/

theorem abs_tmod_lt {a b : ℤ} (hb : b ≠ 0) : |a.tmod b| < |b| := by
  have smaller : (a.tmod b).natAbs < b.natAbs := by
    rw [Int.natAbs_tmod]
    exact Nat.mod_lt _ (Int.natAbs_pos.2 hb)
  rw [Int.abs_eq_natAbs, Int.abs_eq_natAbs]
  exact Int.ofNat_lt.2 smaller

/-- A remainder that is not zero has the sign of the dividend. -/
theorem tmod_pos_iff {a b : ℤ} (h : a.tmod b ≠ 0) : 0 < a.tmod b ↔ 0 < a := by
  have sign : (a.tmod b).sign = a.sign := by
    rw [Int.sign_tmod, if_neg fun hd => h (Int.tmod_eq_zero_of_dvd hd)]
  rw [← Int.sign_eq_one_iff_pos, sign, Int.sign_eq_one_iff_pos]

theorem toInt_ne_zero_iff (b : Word) : b.toInt ≠ 0 ↔ b ≠ 0#32 := by
  rw [← BitVec.toInt_zero (w := 32), BitVec.toInt_ne]

theorem modiOp_eq (a b : Word) :
    modiOp a b = (BitVec.ofInt 32 (a.toInt.tmod b.toInt), resultNums (BitVec.ofInt 32 (a.toInt.tmod b.toInt))) := by
  rw [modiOp, Int.tmod_def]

theorem divuOp_eq (a b : Word) : divuOp a b = (a / b, resultNums (a / b)) := by
  rw [divuOp, BitVec.udiv_def]

theorem moduOp_eq (a b : Word) : moduOp a b = (a % b, resultNums (a % b)) := by
  rw [moduOp, BitVec.umod_def, Nat.mod_def]

/-- The word of a signed remainder is zero only when the remainder is: it is the remainder of the two words. -/
theorem ofInt_tmod_eq_zero_iff (a b : Word) : BitVec.ofInt 32 (a.toInt.tmod b.toInt) = 0#32 ↔ a.toInt.tmod b.toInt = 0 := by
  rw [← BitVec.toInt_srem, BitVec.ofInt_toInt, ← BitVec.toInt_zero (w := 32), BitVec.toInt_inj]

/-- Settles O40: the quotient and the remainder of truncating division, whose word is zero only when it is. -/
theorem signedDivision : Obligations.SignedDivision := by
  intro s ra
  refine ⟨wordOf_one_reg 0x2 0x4 rfl, wordOf_one_reg 0x2 0x5 rfl, fun hb => ?_, fun hb => ?_⟩
  · rw [exec_divi, exec_modi, State.arithDiv_of_zero hb, State.arithDiv_of_zero hb]
    exact ⟨_, rfl, rfl, FlagFrame.of_divZeroNums s⟩
  · rw [exec_divi, exec_modi, State.arithDiv_of_ne_zero hb, State.arithDiv_of_ne_zero hb]
    refine ⟨_, _, (Int.tdiv_mul_add_tmod ..).symm, abs_tmod_lt ((toInt_ne_zero_iff _).2 hb), tmod_pos_iff,
      ⟨_, rfl, .of_arith rfl beq_iff_eq .rfl clear_iff decide_eq_true_iff⟩, ⟨_, rfl, ?_⟩⟩
    rw [← ofInt_tmod_eq_zero_iff]
    exact .of_resultNums (modiOp_eq ..)

/-- Settles O41: the quotient and the remainder of the words themselves. -/
theorem unsignedDivision : Obligations.UnsignedDivision := by
  intro s ra
  refine ⟨wordOf_one_reg 0x3 0x4 rfl, wordOf_one_reg 0x3 0x5 rfl, fun hb => ?_, fun hb => ?_⟩
  · rw [exec_divu, exec_modu, State.arithDiv_of_zero hb, State.arithDiv_of_zero hb]
    exact ⟨_, rfl, rfl, FlagFrame.of_divZeroNums s⟩
  · rw [exec_divu, exec_modu, State.arithDiv_of_ne_zero hb, State.arithDiv_of_ne_zero hb]
    refine ⟨s.get .accum / s.get ra, s.get .accum % s.get ra, ?_, BitVec.umod_lt _ ((BitVec.pos_iff_ne_zero _).2 hb),
      ⟨_, rfl, .of_resultNums (divuOp_eq ..)⟩, ⟨_, rfl, .of_resultNums (moduOp_eq ..)⟩⟩
    rw [BitVec.toNat_udiv, BitVec.toNat_umod, Nat.div_add_mod']

end Sys2Proof.Machine

namespace Sys2Proof.Machine

/-! ### The magnitude of a pattern (41_arith_float.md R170) -/

/-- The magnitude, in units of 2^-149, of a finite number whose bits 30:0 are `b`. It goes on past the largest finite number, so the
pattern of an infinity stands for 2^128. -/
def f32BodyMag (b : ℕ) : ℕ := if b / 2 ^ 23 = 0 then b % 2 ^ 23 else (2 ^ 23 + b % 2 ^ 23) * 2 ^ (b / 2 ^ 23 - 1)

/-- `k * 2^23 + n` is the pattern of `n * 2^k` units, the carry to `n = 2^24` included. -/
theorem f32BodyMag_eq {k n : ℕ} (hk : k = 0 ∨ 2 ^ 23 ≤ n) (hn : n ≤ 2 ^ 24) :
    f32BodyMag (k * 2 ^ 23 + n) = n * 2 ^ k := by
  unfold f32BodyMag
  rcases lt_or_ge n (2 ^ 23) with small | normal
  · obtain rfl : k = 0 := by omega
    rw [if_pos (by omega)]
    omega
  · rw [if_neg (by omega)]
    rcases hn.lt_or_eq with below | rfl
    · rw [show (k * 2 ^ 23 + n) / 2 ^ 23 - 1 = k by omega, show 2 ^ 23 + (k * 2 ^ 23 + n) % 2 ^ 23 = n by omega]
    · rw [show (k * 2 ^ 23 + 2 ^ 24) / 2 ^ 23 - 1 = k + 1 by omega, show (k * 2 ^ 23 + 2 ^ 24) % 2 ^ 23 = 0 by omega, pow_succ]
      ring

/-- Every pattern is one of `n * 2^k` units with a 24-bit `n`, below `2^23` only for subnormals. -/
theorem exists_scale_significand (b : ℕ) : ∃ k n, b = k * 2 ^ 23 + n ∧ (k = 0 ∨ 2 ^ 23 ≤ n) ∧ n < 2 ^ 24 := by
  rcases lt_or_ge b (2 ^ 23) with small | normal
  · exact ⟨0, b, by omega⟩
  · exact ⟨b / 2 ^ 23 - 1, 2 ^ 23 + b % 2 ^ 23, by omega⟩

theorem f32BodyMag_strictMono : StrictMono f32BodyMag := by
  refine strictMono_nat_of_lt_succ fun b => ?_
  obtain ⟨k, n, rfl, hk, hn⟩ := exists_scale_significand b
  rw [f32BodyMag_eq hk hn.le, Nat.add_assoc, f32BodyMag_eq (hk.imp_right fun h => by omega) hn]
  exact Nat.mul_lt_mul_of_pos_right n.lt_succ_self (by positivity)

/-- A magnitude of at most 24 significant bits. -/
def FitsSignificand (m : ℕ) : Prop := ∃ k n, n < 2 ^ 24 ∧ m = n * 2 ^ k

theorem fitsSignificand_f32BodyMag (b : ℕ) : FitsSignificand (f32BodyMag b) := by
  obtain ⟨k, n, rfl, hk, hn⟩ := exists_scale_significand b
  exact ⟨k, n, hn, f32BodyMag_eq hk hn.le⟩

theorem FitsSignificand.exists_body {m : ℕ} (h : FitsSignificand m) : ∃ b, f32BodyMag b = m := by
  obtain ⟨k, n, hn, rfl⟩ := h
  induction k generalizing n with
  | zero => exact ⟨0 * 2 ^ 23 + n, f32BodyMag_eq (.inl rfl) hn.le⟩
  | succ k ih =>
    rcases lt_or_ge n (2 ^ 23) with small | normal
    · obtain ⟨b, hb⟩ := ih (2 * n) (by omega)
      exact ⟨b, by rw [hb, pow_succ]; ring⟩
    · exact ⟨_, f32BodyMag_eq (.inr normal) hn.le⟩

/-- A remainder fits where both numbers do: it is a multiple of the lower of their two powers of two, and not above either
number. -/
theorem FitsSignificand.mod {m n : ℕ} (hm : FitsSignificand m) (hn : FitsSignificand n) (h : n ≠ 0) :
    FitsSignificand (m % n) := by
  obtain ⟨i, a, ha, rfl⟩ := hm
  obtain ⟨j, c, hc, rfl⟩ := hn
  rcases le_total i j with h | h
  · obtain ⟨e, rfl⟩ := Nat.exists_eq_add_of_le h
    refine ⟨i, a % (c * 2 ^ e), (Nat.mod_le ..).trans_lt ha, ?_⟩
    rw [← Nat.mul_mod_mul_right, mul_assoc, ← pow_add, add_comm e]
  · obtain ⟨e, rfl⟩ := Nat.exists_eq_add_of_le h
    have positive : 0 < c := Nat.pos_of_ne_zero (left_ne_zero_of_mul ‹_›)
    refine ⟨j, a * 2 ^ e % c, (Nat.mod_lt _ positive).trans hc, ?_⟩
    rw [← Nat.mul_mod_mul_right, mul_assoc, ← pow_add, add_comm e]

/-- The remainder of two finite magnitudes is one. -/
theorem exists_f32BodyMag_mod {b c : ℕ} (hb : b < f32InfBody) (hc : f32BodyMag c ≠ 0) :
    ∃ d, d < f32InfBody ∧ f32BodyMag d = f32BodyMag b % f32BodyMag c := by
  obtain ⟨d, hd⟩ := ((fitsSignificand_f32BodyMag b).mod (fitsSignificand_f32BodyMag c) hc).exists_body
  have le : d ≤ b := f32BodyMag_strictMono.le_iff_le.1 (hd.trans_le (Nat.mod_le ..))
  exact ⟨d, le.trans_lt hb, hd⟩

theorem f32BodyMag_infBody : f32BodyMag f32InfBody = 2 ^ 23 * 2 ^ 254 := f32BodyMag_eq (k := 254) (.inr le_rfl) (by decide)

theorem f32BodyMag_largest : f32BodyMag (f32InfBody - 1) = (2 ^ 24 - 1) * 2 ^ 253 :=
  f32BodyMag_eq (k := 253) (n := 2 ^ 24 - 1) (by decide) (by decide)

/-! ### The nearest pattern -/

/-- Of two numbers, the lower one is no farther from `x` exactly when `x` is not above their middle. -/
theorem abs_sub_le_of_lt_iff {u v x : ℚ} (h : u < v) : |u - x| ≤ |v - x| ↔ 2 * x ≤ u + v := by
  rw [← sq_le_sq, ← sub_nonneg, show (v - x) ^ 2 - (u - x) ^ 2 = (v - u) * (u + v - 2 * x) by ring,
    mul_nonneg_iff_of_pos_left (sub_pos.2 h), sub_nonneg]

theorem abs_sub_ge_of_lt_iff {u v x : ℚ} (h : u < v) : |v - x| ≤ |u - x| ↔ u + v ≤ 2 * x := by
  rw [← sq_le_sq, ← sub_nonneg, show (u - x) ^ 2 - (v - x) ^ 2 = (v - u) * (2 * x - (u + v)) by ring,
    mul_nonneg_iff_of_pos_left (sub_pos.2 h), sub_nonneg]

/-- No pattern is nearer to `x` units than `b` is, and `b` is even when another is as near. -/
def NearestBody (x : ℚ) (b : ℕ) : Prop :=
  ∀ c, |(f32BodyMag b : ℚ) - x| ≤ |(f32BodyMag c : ℚ) - x| ∧
    (c ≠ b → |(f32BodyMag b : ℚ) - x| = |(f32BodyMag c : ℚ) - x| → b % 2 = 0)

theorem f32BodyMag_cast_lt {b c : ℕ} : (f32BodyMag b : ℚ) < f32BodyMag c ↔ b < c :=
  Nat.cast_lt.trans f32BodyMag_strictMono.lt_iff_lt

theorem f32BodyMag_cast_le {b c : ℕ} : (f32BodyMag b : ℚ) ≤ f32BodyMag c ↔ b ≤ c :=
  Nat.cast_le.trans f32BodyMag_strictMono.le_iff_le

/-- Of two neighbouring patterns with `x` between them, the one that is no farther is nearest of all, given the tie rule between
the two. -/
theorem NearestBody.of_between {x : ℚ} {b d e : ℕ} (lo : (f32BodyMag b : ℚ) ≤ x) (hi : x ≤ f32BodyMag (b + 1))
    (hde : d = b ∧ e = b + 1 ∨ d = b + 1 ∧ e = b) (near : |(f32BodyMag d : ℚ) - x| ≤ |(f32BodyMag e : ℚ) - x|)
    (tie : |(f32BodyMag d : ℚ) - x| = |(f32BodyMag e : ℚ) - x| → d % 2 = 0) : NearestBody x d := by
  have below {c : ℕ} (h : c < b) : |(f32BodyMag b : ℚ) - x| < |(f32BodyMag c : ℚ) - x| := by
    have := f32BodyMag_cast_lt.2 h
    rw [abs_of_nonpos (by linarith), abs_of_nonpos (by linarith)]
    linarith
  have above {c : ℕ} (h : b + 1 < c) : |(f32BodyMag (b + 1) : ℚ) - x| < |(f32BodyMag c : ℚ) - x| := by
    have := f32BodyMag_cast_lt.2 h
    rw [abs_of_nonneg (by linarith), abs_of_nonneg (by linarith)]
    linarith
  intro c
  have place : c = d ∨ c = e ∨ |(f32BodyMag d : ℚ) - x| < |(f32BodyMag c : ℚ) - x| := by
    rcases lt_trichotomy c b with h | h | h
    · rcases hde with ⟨rfl, rfl⟩ | ⟨rfl, rfl⟩
      · exact .inr (.inr (below h))
      · exact .inr (.inr (near.trans_lt (below h)))
    · omega
    · rcases (Nat.succ_le_of_lt h).lt_or_eq with h | h
      · rcases hde with ⟨rfl, rfl⟩ | ⟨rfl, rfl⟩
        · exact .inr (.inr (near.trans_lt (above h)))
        · exact .inr (.inr (above h))
      · omega
  rcases place with rfl | rfl | farther
  · exact ⟨le_rfl, fun h => absurd rfl h⟩
  · exact ⟨near, fun _ => tie⟩
  · exact ⟨farther.le, fun _ h => absurd h farther.ne⟩

/-- A magnitude that has a pattern is its own nearest one. -/
theorem NearestBody.mag_eq {b c : ℕ} (h : NearestBody (f32BodyMag c) b) : f32BodyMag b = f32BodyMag c := by
  have := (h c).1
  rw [sub_self, abs_zero, abs_nonpos_iff, sub_eq_zero] at this
  exact_mod_cast this

/-- A nearest pattern is that of a finite number exactly below the middle of 2^128 and the largest finite number, where the tie
goes to the even one, 2^128. -/
theorem NearestBody.lt_infBody_iff {x : ℚ} {b : ℕ} (h : NearestBody x b) :
    b < f32InfBody ↔ x / 2 ^ 149 < 2 ^ 128 - 2 ^ 103 := by
  have top : (f32BodyMag f32InfBody : ℚ) = 2 ^ 23 * 2 ^ 254 := by rw [f32BodyMag_infBody]; norm_num
  have largest : (f32BodyMag (f32InfBody - 1) : ℚ) = (2 ^ 24 - 1) * 2 ^ 253 := by rw [f32BodyMag_largest]; norm_num
  have middle : x / 2 ^ 149 < 2 ^ 128 - 2 ^ 103 ↔ 2 * x < f32BodyMag f32InfBody + f32BodyMag (f32InfBody - 1) := by
    rw [top, largest, div_lt_iff₀ (by positivity)]
    constructor <;> intro h <;> linarith
  rw [middle]
  constructor
  · intro finite
    have low : (f32BodyMag b : ℚ) ≤ f32BodyMag (f32InfBody - 1) := f32BodyMag_cast_le.2 (by omega)
    obtain ⟨near, tie⟩ := h f32InfBody
    have below := f32BodyMag_cast_lt.2 finite
    have half := (abs_sub_le_of_lt_iff below).1 near
    by_contra! beyond
    have last : f32InfBody - 1 ≤ b := f32BodyMag_cast_le.1 (by linarith)
    have odd : b = f32InfBody - 1 := by omega
    have even := tie finite.ne' (le_antisymm near ((abs_sub_ge_of_lt_iff below).2 (by linarith)))
    rw [odd] at even
    exact absurd even (by decide)
  · intro below
    by_contra! infinite
    have beyond : (f32BodyMag f32InfBody : ℚ) ≤ f32BodyMag b := f32BodyMag_cast_le.2 infinite
    have above : f32InfBody - 1 < b := Nat.lt_of_lt_of_le (by decide) infinite
    have half := (abs_sub_ge_of_lt_iff (f32BodyMag_cast_lt.2 above)).1 (h (f32InfBody - 1)).1
    linarith

/-! ### The rounding of the model (41_arith_float.md R170) -/

/-- The scale at which the model rounds leaves a quotient of 24 bits, of fewer only for subnormals. -/
theorem scaled_quotient_bounds (y : ℕ) :
    (y.log2 - 23 = 0 ∨ 2 ^ 23 ≤ y / 2 ^ (y.log2 - 23)) ∧ y / 2 ^ (y.log2 - 23) < 2 ^ 24 := by
  have upper : y < 2 ^ 24 * 2 ^ (y.log2 - 23) :=
    Nat.lt_log2_self.trans_le (by rw [← pow_add]; exact Nat.pow_le_pow_right (by decide) (by omega))
  refine ⟨or_iff_not_imp_left.2 fun normal => ?_, Nat.div_lt_of_lt_mul (by rwa [mul_comm])⟩
  rw [Nat.le_div_iff_mul_le (by positivity), ← pow_add, show 23 + (y.log2 - 23) = y.log2 by omega]
  exact Nat.log2_self_le (by rintro rfl; exact normal rfl)

/-- The pattern the model rounds to, before overflow is taken to an infinity. -/
def f32UnboundedBody (num den : ℕ) : ℕ :=
  ((num / den).log2 - 23) * 2 ^ 23 + divNearestEven num (den * 2 ^ ((num / den).log2 - 23))

theorem f32RoundBody_eq (num den : ℕ) : f32RoundBody num den = min (f32UnboundedBody num den) f32InfBody := rfl

/-- The quotient rounds down up to the half and up from the half on, at the half to the even one. -/
theorem divNearestEven_cases (num den : ℕ) :
    (divNearestEven num den = num / den ∧ 2 * (num % den) ≤ den ∧ (2 * (num % den) = den → num / den % 2 = 0)) ∨
    (divNearestEven num den = num / den + 1 ∧ den ≤ 2 * (num % den) ∧ (2 * (num % den) = den → num / den % 2 = 1)) := by
  unfold divNearestEven
  split <;> omega

/-- Of two neighbouring patterns that are `gap / den` apart, with `x` at `r / den` above the lower one, the one on the side of `x`
of their half is nearest. -/
theorem NearestBody.of_rest {num den gap r b : ℕ} (hden : 0 < den) (hr : r < gap) (low : f32BodyMag b * den + r = num)
    (high : f32BodyMag (b + 1) * den + r = num + gap) :
    (2 * r ≤ gap → (2 * r = gap → b % 2 = 0) → NearestBody (num / den) b) ∧
    (gap ≤ 2 * r → (2 * r = gap → (b + 1) % 2 = 0) → NearestBody (num / den) (b + 1)) := by
  have step := f32BodyMag_cast_lt.2 b.lt_succ_self
  have below : (f32BodyMag b : ℚ) ≤ num / den := by
    rw [le_div_iff₀ (by positivity)]
    exact_mod_cast (by omega : f32BodyMag b * den ≤ num)
  have above : (num / den : ℚ) ≤ f32BodyMag (b + 1) := by
    rw [div_le_iff₀ (by positivity)]
    exact_mod_cast (by omega : num ≤ f32BodyMag (b + 1) * den)
  have le_half : 2 * (num / den : ℚ) ≤ f32BodyMag b + f32BodyMag (b + 1) ↔ 2 * r ≤ gap := by
    rw [← mul_div_assoc, div_le_iff₀ (by positivity), add_mul]
    norm_cast
    omega
  have ge_half : (f32BodyMag b + f32BodyMag (b + 1) : ℚ) ≤ 2 * (num / den) ↔ gap ≤ 2 * r := by
    rw [← mul_div_assoc, le_div_iff₀ (by positivity), add_mul]
    norm_cast
    omega
  refine ⟨fun half even => ?_, fun half even => ?_⟩
  · exact .of_between below above (.inl ⟨rfl, rfl⟩) ((abs_sub_le_of_lt_iff step).2 (le_half.2 half))
      fun tie => even (half.antisymm (ge_half.1 ((abs_sub_ge_of_lt_iff step).1 tie.ge)))
  · exact .of_between below above (.inr ⟨rfl, rfl⟩) ((abs_sub_ge_of_lt_iff step).2 (ge_half.2 half))
      fun tie => even ((le_half.1 ((abs_sub_le_of_lt_iff step).1 tie.ge)).antisymm half)

theorem nearestBody_f32UnboundedBody (num : ℕ) {den : ℕ} (hden : 0 < den) :
    NearestBody (num / den) (f32UnboundedBody num den) := by
  obtain ⟨hk, hq⟩ := scaled_quotient_bounds (num / den)
  rw [f32UnboundedBody]
  generalize (num / den).log2 - 23 = k at hk hq ⊢
  rw [Nat.div_div_eq_div_mul] at hk hq
  have gap : 0 < den * 2 ^ k := by positivity
  have split := Nat.div_add_mod num (den * 2 ^ k)
  have low : f32BodyMag (k * 2 ^ 23 + num / (den * 2 ^ k)) * den + num % (den * 2 ^ k) = num := by
    rw [f32BodyMag_eq hk hq.le, mul_assoc, mul_comm (2 ^ k), mul_comm, split]
  have high : f32BodyMag (k * 2 ^ 23 + num / (den * 2 ^ k) + 1) * den + num % (den * 2 ^ k) = num + den * 2 ^ k := by
    rw [Nat.add_assoc, f32BodyMag_eq (hk.imp_right Nat.le_succ_of_le) hq, mul_assoc, mul_comm (2 ^ k), Nat.succ_mul,
      mul_comm]
    omega
  obtain ⟨down, up⟩ := NearestBody.of_rest hden (Nat.mod_lt num gap) low high
  rcases divNearestEven_cases num (den * 2 ^ k) with ⟨eq, half, even⟩ | ⟨eq, half, odd⟩
  · rw [eq]
    exact down half fun tie => by have := even tie; omega
  · rw [eq, ← Nat.add_assoc]
    exact up half fun tie => by have := odd tie; omega

end Sys2Proof.Machine

namespace Sys2Proof.Machine

/-! ### The fields of a pattern (00_scope.md R7) -/

theorem f32Exp_eq (v : Word) : f32Exp v = v.toNat % 2 ^ 31 / 2 ^ 23 := by
  rw [f32Exp, BitVec.extractLsb'_toNat, Nat.shiftRight_eq_div_pow]
  omega

theorem f32Frac_eq (v : Word) : f32Frac v = v.toNat % 2 ^ 31 % 2 ^ 23 := by
  rw [f32Frac, BitVec.extractLsb'_toNat, Nat.shiftRight_zero]
  omega

/-- A pattern below that of an infinity is a finite number, of the magnitude of its bits 30:0. -/
theorem f32OfBits_of_lt {v : Word} (h : v.toNat % 2 ^ 31 < f32InfBody) :
    f32OfBits v = .fin v.msb (f32BodyMag (v.toNat % 2 ^ 31)) := by
  rw [f32OfBits, f32BodyMag, f32Exp_eq, f32Frac_eq, if_neg (by rw [f32InfBody] at h; omega)]
  split <;> rfl

/-- The magnitude of a finite number is that of a pattern below the infinities. -/
theorem exists_body_of_fin {v : Word} {s : Bool} {m : ℕ} (h : f32OfBits v = .fin s m) :
    ∃ b, b < f32InfBody ∧ f32BodyMag b = m := by
  have finite : v.toNat % 2 ^ 31 < f32InfBody := by
    by_contra special
    rw [f32OfBits, f32Exp_eq, if_pos (by rw [f32InfBody] at special; omega)] at h
    split at h <;> cases h
  rw [f32OfBits_of_lt finite] at h
  cases h
  exact ⟨_, finite, rfl⟩

theorem f32Pack_toNat (neg : Bool) {b : ℕ} (hb : b ≤ f32InfBody) : (f32Pack neg b).toNat = b + if neg then 2 ^ 31 else 0 := by
  rw [f32Pack, BitVec.toNat_ofNat, Nat.mod_eq_of_lt]
  rw [f32InfBody] at hb
  split <;> omega

theorem f32Pack_mod (neg : Bool) {b : ℕ} (hb : b ≤ f32InfBody) : (f32Pack neg b).toNat % 2 ^ 31 = b := by
  rw [f32Pack_toNat neg hb]
  rw [f32InfBody] at hb
  split <;> omega

theorem f32Pack_msb (neg : Bool) {b : ℕ} (hb : b ≤ f32InfBody) : (f32Pack neg b).msb = neg := by
  rw [BitVec.msb_eq_decide, f32Pack_toNat neg hb]
  rw [f32InfBody] at hb
  cases neg
  · exact decide_eq_false (by simp; omega)
  · exact decide_eq_true (by simp)

theorem f32Pack_getLsbD_zero (neg : Bool) {b : ℕ} (hb : b ≤ f32InfBody) : (f32Pack neg b).getLsbD 0 = decide (b % 2 = 1) := by
  rw [← BitVec.testBit_toNat, Nat.testBit_zero, f32Pack_toNat neg hb]
  congr 2
  split <;> omega

theorem f32OfBits_f32Pack (neg : Bool) {b : ℕ} (hb : b < f32InfBody) : f32OfBits (f32Pack neg b) = .fin neg (f32BodyMag b) := by
  rw [f32OfBits_of_lt (by rwa [f32Pack_mod neg hb.le]), f32Pack_msb neg hb.le, f32Pack_mod neg hb.le]

@[simp] theorem f32OfBits_f32Inf (neg : Bool) : f32OfBits (f32Inf neg) = .inf neg := by cases neg <;> decide

@[simp] theorem f32OfBits_f32Zero (neg : Bool) : f32OfBits (f32Zero neg) = .fin neg 0 := by cases neg <;> decide

/-! ### The value of a number -/

/-- The rational of the given sign and of `x` units of 2^-149. -/
def signedUnits (neg : Bool) (x : ℚ) : ℚ := (if neg then -1 else 1) * x / 2 ^ 149

theorem f32Rat_eq_signedUnits (neg : Bool) (m : ℕ) : f32Rat neg m = signedUnits neg m := by
  cases neg <;> simp [f32Rat, f32Int, signedUnits]

theorem signedUnits_not (neg : Bool) (x : ℚ) : signedUnits (!neg) x = signedUnits neg (-x) := by
  cases neg <;> simp [signedUnits]

theorem signedUnits_sub (neg : Bool) (x y : ℚ) : signedUnits neg x - signedUnits neg y = signedUnits neg (x - y) := by
  simp only [signedUnits]; ring

theorem abs_signedUnits (neg : Bool) (x : ℚ) : |signedUnits neg x| = |x| / 2 ^ 149 := by
  cases neg <;> simp [signedUnits, abs_div]

theorem signedUnits_neg_iff {neg : Bool} {x : ℚ} (hx : 0 < x) : signedUnits neg x < 0 ↔ neg = true := by
  have : 0 < x / 2 ^ 149 := by positivity
  cases neg <;> simp [signedUnits, neg_div] <;> linarith

/-- A number is no nearer to a rational than their magnitudes are to each other. -/
theorem abs_sub_le_abs_f32Rat_sub (neg s : Bool) (m : ℕ) {x : ℚ} (hx : 0 ≤ x) :
    |(m : ℚ) - x| / 2 ^ 149 ≤ |f32Rat s m - signedUnits neg x| := by
  have := abs_abs_sub_abs_le (f32Rat s m) (signedUnits neg x)
  rwa [f32Rat_eq_signedUnits s m, abs_signedUnits, abs_signedUnits, Nat.abs_cast, abs_of_nonneg hx, ← sub_div, abs_div,
    abs_of_pos (show (0 : ℚ) < 2 ^ 149 by positivity), ← f32Rat_eq_signedUnits] at this

/-- Two numbers of one magnitude that are as far from a rational of the sign of one are equal. -/
theorem f32Rat_eq_of_equidistant {neg s : Bool} {m : ℕ} {x : ℚ} (hx : x = 0 → m = 0)
    (h : |f32Rat neg m - signedUnits neg x| = |f32Rat s m - signedUnits neg x|) : f32Rat s m = f32Rat neg m := by
  rcases Bool.eq_or_eq_not s neg with rfl | rfl
  · rfl
  simp only [f32Rat_eq_signedUnits, signedUnits_not, signedUnits_sub, abs_signedUnits] at h
  rw [div_left_inj' (by positivity), abs_eq_abs] at h
  have zero : (m : ℚ) = 0 := by
    rcases h with h | h
    · linarith
    · exact_mod_cast hx (by linarith)
  rw [f32Rat_eq_signedUnits, f32Rat_eq_signedUnits, signedUnits_not, zero, neg_zero]

/-! ### Correct rounding (41_arith_float.md R170) -/

/-- Rounding a magnitude to the nearest pattern, with the sign put on it and overflow taken to an infinity, is the rounding of
R170. -/
theorem NearestBody.roundsTo {x : ℚ} {b : ℕ} (h : NearestBody x b) (hx : 0 ≤ x) (neg : Bool) :
    RoundsTo (signedUnits neg x) (f32Pack neg (min b f32InfBody)) := by
  have size : |signedUnits neg x| = x / 2 ^ 149 := by rw [abs_signedUnits, abs_of_nonneg hx]
  rcases lt_or_ge b f32InfBody with finite | overflow
  · rw [min_eq_left finite.le]
    refine .inl ⟨_, _, f32OfBits_f32Pack neg finite, size ▸ h.lt_infBody_iff.1 finite, fun v s' m' hv => ?_⟩
    obtain ⟨c, -, rfl⟩ := exists_body_of_fin hv
    obtain ⟨near, tie⟩ := h c
    have far := abs_sub_le_abs_f32Rat_sub neg s' (f32BodyMag c) hx
    have own : |f32Rat neg (f32BodyMag b) - signedUnits neg x| = |(f32BodyMag b : ℚ) - x| / 2 ^ 149 := by
      rw [f32Rat_eq_signedUnits, signedUnits_sub, abs_signedUnits]
    have scaled : |(f32BodyMag b : ℚ) - x| / 2 ^ 149 ≤ |(f32BodyMag c : ℚ) - x| / 2 ^ 149 := by gcongr
    refine ⟨own ▸ scaled.trans far, fun ne eq => ?_⟩
    rw [f32Pack_getLsbD_zero neg finite.le, decide_eq_false_iff_not]
    have same : |(f32BodyMag b : ℚ) - x| = |(f32BodyMag c : ℚ) - x| := by
      have := scaled.antisymm (far.trans (eq ▸ own.le))
      rwa [div_left_inj' (by positivity)] at this
    have even := tie (fun hcb => ne ?_) same
    · omega
    · subst hcb
      refine f32Rat_eq_of_equidistant (fun hx0 => ?_) eq
      subst hx0
      exact NearestBody.mag_eq (c := 0) (by exact_mod_cast h)
  · rw [min_eq_right overflow]
    have large : 2 ^ 128 - 2 ^ 103 ≤ x / 2 ^ 149 := not_lt.1 fun small => overflow.not_gt (h.lt_infBody_iff.2 small)
    have positive : 0 < x := hx.lt_of_ne (by rintro rfl; norm_num at large)
    exact .inr ⟨neg, f32OfBits_f32Inf neg, size ▸ large, (signedUnits_neg_iff positive).symm⟩

/-- The rounding of the model is the one of R170, of the sign asked for. -/
theorem f32Round_roundsTo (neg : Bool) (num : ℕ) {den : ℕ} (hden : 0 < den) :
    RoundsTo (signedUnits neg (num / den)) (f32Round neg num den) :=
  (nearestBody_f32UnboundedBody num hden).roundsTo (by positivity) neg

theorem f32Round_msb (neg : Bool) (num den : ℕ) : (f32Round neg num den).msb = neg := f32Pack_msb neg (min_le_right ..)

/-- Settles O42: the unbounded rounding is a nearest pattern, and the sign and the overflow keep it nearest. -/
theorem roundingIsNearestEven : Obligations.RoundingIsNearestEven := by
  intro neg num den hden
  rw [mul_div_assoc]
  exact ⟨f32Round_roundsTo neg num hden, f32Round_msb neg num den⟩

end Sys2Proof.Machine

namespace Sys2Proof.Machine

/-! ### The float instructions as their shapes (41_arith_float.md R173 to R179) -/

theorem exec_cmpf (ra rb : Reg) (s : State) :
    exec (.cmpf ra rb) s = .next (s.setNum (cmpfNums (f32OfBits (s.regz ra)) (f32OfBits (s.regz rb)))) := rfl
theorem exec_addf (ra : Reg) (s : State) :
    exec (.addf ra) s = .next (s.floatArith ra fun canon a b => f32Add canon (f32OfBits a) (f32OfBits b)) := rfl
theorem exec_subf (ra : Reg) (s : State) :
    exec (.subf ra) s = .next (s.floatArith ra fun canon a b => f32Sub canon (f32OfBits a) (f32OfBits b)) := rfl
theorem exec_mulf (ra : Reg) (s : State) :
    exec (.mulf ra) s = .next (s.floatArith ra fun canon a b => f32Mul canon (f32OfBits a) (f32OfBits b)) := rfl
theorem exec_divf (ra : Reg) (s : State) :
    exec (.divf ra) s = .next (s.floatArith ra fun canon a b => f32Div canon (f32OfBits a) (f32OfBits b)) := rfl
theorem exec_modf (ra : Reg) (s : State) : exec (.modf ra) s = .next (s.floatArith ra f32Mod) := rfl

theorem f32IsNaN_iff (x : F32) : f32IsNaN x = true ↔ x = .nan := by cases x <;> simp [f32IsNaN]

theorem f32IsZero_iff (x : F32) : f32IsZero x = true ↔ ∃ s, x = .fin s 0 := by cases x <;> simp [f32IsZero]

theorem f32IsNeg_iff (x : F32) : f32IsNeg x = true ↔ x = .inf true ∨ ∃ m, x = .fin true m ∧ m ≠ 0 := by
  cases x <;> simp [f32IsNeg]

theorem f32IsNaN_or_iff (x y : F32) : (f32IsNaN x || f32IsNaN y) = true ↔ x = .nan ∨ y = .nan := by
  rw [Bool.or_eq_true, f32IsNaN_iff, f32IsNaN_iff]

/-- A float instruction writes the result of its operation to ACCUM, and the flags of R172. -/
theorem State.floatArith_result (s : State) (ra : Reg) (op : Word → Word → Word → Word) :
    (s.floatArith ra op).get .accum = op s.cfg.canonNan (s.get .accum) (s.get ra) ∧ AluFrame s (s.floatArith ra op) ∧
      FloatFlags (s.get .accum) (s.get ra) (s.floatArith ra op) := by
  obtain ⟨accum, nums, frame⟩ := AluResult.of_setAccum s (op s.cfg.canonNan (s.get .accum) (s.get ra))
    (floatNums (f32OfBits (s.get .accum)) (f32OfBits (s.get ra)) (f32OfBits (op s.cfg.canonNan (s.get .accum) (s.get ra))))
  refine ⟨accum, frame, ?_⟩
  rw [FloatFlags, ← f32IsZero_iff, ← f32IsNeg_iff, ← f32IsNaN_or_iff, ← clear_iff]
  unfold State.floatArith
  rw [accum]
  exact nums

/-! ### Compare (41_arith_float.md R173) -/

theorem f32Rat_inj {s t : Bool} {m n : ℕ} : f32Rat s m = f32Rat t n ↔ f32Int s m = f32Int t n := by
  rw [f32Rat, f32Rat, div_left_inj' (by positivity), Int.cast_inj]

theorem f32Rat_lt {s t : Bool} {m n : ℕ} : f32Rat s m < f32Rat t n ↔ f32Int s m < f32Int t n := by
  rw [f32Rat, f32Rat, div_lt_div_iff_of_pos_right (by positivity), Int.cast_lt]

@[simp] theorem f32Ext_nan : f32Ext .nan = none := rfl
@[simp] theorem f32Ext_inf (p : Bool) :
    f32Ext (.inf p) = some (if p then ⊥ else ((⊤ : WithTop ℚ) : WithBot (WithTop ℚ))) := by
  cases p <;> rfl
@[simp] theorem f32Ext_fin (s : Bool) (m : ℕ) : f32Ext (.fin s m) = some ((f32Rat s m : WithTop ℚ) : WithBot (WithTop ℚ)) :=
  rfl

theorem cmpfNums_z_iff (x y : F32) : (cmpfNums x y).z = true ↔ f32Ext x = f32Ext y := by
  cases x with
  | nan => cases y <;> simp [cmpfNums, f32Eq, f32IsNaN]
  | inf p =>
    cases y with
    | nan => simp [cmpfNums, f32Eq, f32IsNaN]
    | inf q => cases p <;> cases q <;> simp [cmpfNums, f32Eq, f32IsNaN]
    | fin t n => cases p <;> simp [cmpfNums, f32Eq, f32IsNaN]
  | fin s m =>
    cases y with
    | nan => simp [cmpfNums, f32Eq, f32IsNaN]
    | inf q => cases q <;> simp [cmpfNums, f32Eq, f32IsNaN]
    | fin t n => simp [cmpfNums, f32Eq, f32IsNaN, f32Rat_inj]

theorem cmpfNums_n_iff (x y : F32) : (cmpfNums x y).n = true ↔ ∃ p q, f32Ext x = some p ∧ f32Ext y = some q ∧ p < q := by
  cases x with
  | nan => simp [cmpfNums, f32Lt]
  | inf p =>
    cases y with
    | nan => simp [cmpfNums, f32Lt]
    | inf q => cases p <;> cases q <;> simp [cmpfNums, f32Lt]
    | fin t n => cases p <;> simp [cmpfNums, f32Lt]
  | fin s m =>
    cases y with
    | nan => simp [cmpfNums, f32Lt]
    | inf q =>
      cases q
      · simp [cmpfNums, f32Lt, WithBot.coe_lt_coe.2 (WithTop.coe_lt_top (f32Rat s m)), -WithBot.coe_top]
      · simp [cmpfNums, f32Lt]
    | fin t n => simp [cmpfNums, f32Lt, f32Rat_lt]

/-- Settles O43: each flag decides its relation of the numbers with the infinities at the ends. -/
theorem floatCompare : Obligations.FloatCompare := by
  intro s ra rb
  exact ⟨wordOf_two_regs 0x4 0x0 rfl, _, exec_cmpf ra rb s,
    FlagFrame.of_flags (cmpfNums_z_iff ..) (cmpfNums_n_iff ..) clear_iff (f32IsNaN_or_iff ..)⟩

/-! ### Sums and differences (41_arith_float.md R174, R175) -/

/-- The sum of two numbers as the rules give it (R170 to R172, R174): NaN, an infinity, or the exact sum rounded once. -/
structure FloatSum (canon : Word) (x y : F32) (w : Word) : Prop where
  nan : x = .nan ∨ y = .nan ∨ (∃ p, x = .inf p ∧ y = .inf (!p)) → w = canon
  inf : ∀ p, x = .inf p → (y = .inf p ∨ ∃ q n, y = .fin q n) → f32OfBits w = .inf p
  inf_right : ∀ p q m, x = .fin q m → y = .inf p → f32OfBits w = .inf p
  fin : ∀ p m q n, x = .fin p m → y = .fin q n → RoundsTo (f32Rat p m + f32Rat q n) w ∧
    (f32Rat p m + f32Rat q n = 0 → f32OfBits w = .fin (p && q) 0)

theorem f32Zero_roundsTo (neg : Bool) : RoundsTo 0 (f32Zero neg) := by
  have := f32Round_roundsTo neg 0 one_pos
  rwa [Nat.cast_zero, zero_div, signedUnits, mul_zero, zero_div] at this

theorem f32Rat_add (s t : Bool) (m n : ℕ) : f32Rat s m + f32Rat t n = ((f32Int s m + f32Int t n : ℤ) : ℚ) / 2 ^ 149 := by
  rw [f32Rat, f32Rat, ← add_div, Int.cast_add]

theorem f32Int_natAbs (z : ℤ) : f32Int (decide (z < 0)) z.natAbs = z := by
  rcases lt_or_ge z 0 with h | h
  · simp [f32Int, h, abs_of_neg]
  · simp [f32Int, h.not_gt, abs_of_nonneg h]

/-- An integer number of units rounds by its sign and its magnitude. -/
theorem f32Round_int_roundsTo (z : ℤ) : RoundsTo ((z : ℚ) / 2 ^ 149) (f32Round (decide (z < 0)) z.natAbs 1) := by
  have := f32Round_roundsTo (decide (z < 0)) z.natAbs one_pos
  rwa [Nat.cast_one, div_one, ← f32Rat_eq_signedUnits, f32Rat, f32Int_natAbs] at this

theorem f32Add_floatSum (canon : Word) (x y : F32) : FloatSum canon x y (f32Add canon x y) where
  nan := by
    rintro (rfl | rfl | ⟨p, rfl, rfl⟩)
    · rfl
    · cases x <;> rfl
    · cases p <;> rfl
  inf := by
    rintro p rfl (rfl | ⟨q, n, rfl⟩) <;> simp [f32Add]
  inf_right := by
    rintro p q m rfl rfl
    exact f32OfBits_f32Inf p
  fin := by
    rintro p m q n rfl rfl
    rw [f32Rat_add, div_eq_zero_iff, or_iff_left (by positivity), Int.cast_eq_zero, f32Add]
    split
    · next zero =>
      rw [zero, Int.cast_zero, zero_div]
      exact ⟨f32Zero_roundsTo _, fun _ => f32OfBits_f32Zero _⟩
    · next nonzero => exact ⟨f32Round_int_roundsTo _, fun zero => absurd zero nonzero⟩

theorem f32Sub_floatSum (canon : Word) (x y : F32) : FloatSum canon x (f32Neg y) (f32Sub canon x y) :=
  f32Add_floatSum canon x (f32Neg y)

theorem f32Rat_not (s : Bool) (m : ℕ) : f32Rat (!s) m = -f32Rat s m := by
  cases s <;> simp [f32Rat, f32Int, neg_div]

/-- Settles O44: the clauses of the sum, read from ACCUM after the instruction. -/
theorem floatAdd : Obligations.FloatAdd := by
  intro s ra
  obtain ⟨accum, frame, flags⟩ := s.floatArith_result ra fun canon a b => f32Add canon (f32OfBits a) (f32OfBits b)
  obtain ⟨nan, inf, infRight, fin⟩ := accum ▸ f32Add_floatSum s.cfg.canonNan (f32OfBits (s.get .accum)) (f32OfBits (s.get ra))
  exact ⟨wordOf_one_reg 0x4 0x1 rfl, _, exec_addf ra s, frame, flags, nan, inf, infRight, fin⟩

/-- Settles O45: the clauses of the sum with the second operand negated. -/
theorem floatSub : Obligations.FloatSub := by
  intro s ra
  obtain ⟨accum, frame, flags⟩ := s.floatArith_result ra fun canon a b => f32Sub canon (f32OfBits a) (f32OfBits b)
  obtain ⟨nan, inf, infRight, fin⟩ := accum ▸ f32Sub_floatSum s.cfg.canonNan (f32OfBits (s.get .accum)) (f32OfBits (s.get ra))
  refine ⟨wordOf_one_reg 0x4 0x2 rfl, _, exec_subf ra s, frame, flags, fun special => nan ?_, fun p hx hy => inf p hx ?_,
    fun p q m hx hy => infRight (!p) q m hx (by rw [hy]; rfl), fun p m q n hx hy => ?_⟩
  · exact special.imp_right (.imp (fun hy => by rw [hy]; rfl) fun ⟨p, hx, hy⟩ => ⟨p, hx, by rw [hy]; rfl⟩)
  · exact hy.imp (fun hy => by rw [hy, f32Neg, Bool.not_not]) fun ⟨q, n, hy⟩ => ⟨!q, n, by rw [hy]; rfl⟩
  · have sum := fin p m (!q) n hx (by rw [hy]; rfl)
    rwa [f32Rat_not, ← sub_eq_add_neg] at sum

/-! ### Products and quotients (41_arith_float.md R176, R177) -/

theorem signedUnits_mul (s t : Bool) (x y : ℚ) : signedUnits s x * signedUnits t y = signedUnits (s ^^ t) (x * y / 2 ^ 149) := by
  cases s <;> cases t <;> simp [signedUnits] <;> ring

theorem signedUnits_div (s t : Bool) (x y : ℚ) : signedUnits s x / signedUnits t y = signedUnits (s ^^ t) (x * 2 ^ 149 / y) := by
  cases s <;> cases t <;> simp [signedUnits] <;> ring

theorem f32Mul_fin_roundsTo (s t : Bool) (m n : ℕ) :
    RoundsTo (f32Rat s m * f32Rat t n) (f32Round (s ^^ t) (m * n) (2 ^ 149)) := by
  have := f32Round_roundsTo (s ^^ t) (m * n) (den := 2 ^ 149) (by positivity)
  rwa [f32Rat_eq_signedUnits, f32Rat_eq_signedUnits, signedUnits_mul, ← Nat.cast_mul, ← Nat.cast_ofNat, ← Nat.cast_pow]

theorem f32Div_fin_roundsTo (s t : Bool) (m : ℕ) {n : ℕ} (hn : n ≠ 0) :
    RoundsTo (f32Rat s m / f32Rat t n) (f32Round (s ^^ t) (m * 2 ^ 149) n) := by
  have := f32Round_roundsTo (s ^^ t) (m * 2 ^ 149) (Nat.pos_of_ne_zero hn)
  rwa [f32Rat_eq_signedUnits, f32Rat_eq_signedUnits, signedUnits_div, ← Nat.cast_ofNat, ← Nat.cast_pow, ← Nat.cast_mul]

/-- Settles O46: the special products case by case, and the finite one by `f32Mul_fin_roundsTo`. -/
theorem floatMul : Obligations.FloatMul := by
  intro s ra
  obtain ⟨accum, frame, flags⟩ := s.floatArith_result ra fun canon a b => f32Mul canon (f32OfBits a) (f32OfBits b)
  refine ⟨wordOf_one_reg 0x4 0x3 rfl, _, exec_mulf ra s, frame, flags, ?_, ?_, ?_, ?_⟩ <;> rw [accum]
  · rintro (hx | hy | ⟨p, q, hx, hy⟩ | ⟨p, q, hx, hy⟩)
    · rw [hx, f32Mul]
    · rw [hy]; cases f32OfBits (s.get .accum) <;> rfl
    · rw [hx, hy, f32Mul, if_pos rfl]
    · rw [hx, hy, f32Mul, if_pos rfl]
  · rintro p q hx (hy | ⟨n, hn, hy⟩)
    · rw [hx, hy, f32Mul, f32OfBits_f32Inf]
    · rw [hx, hy, f32Mul, if_neg hn, f32OfBits_f32Inf]
  · intro p q m hx hm hy
    rw [hx, hy, f32Mul, if_neg hm, f32OfBits_f32Inf]
  · intro p m q n hx hy
    rw [hx, hy, f32Mul]
    exact ⟨f32Mul_fin_roundsTo .., f32Round_msb ..⟩

/-- Settles O47: the special quotients case by case, and the finite one by `f32Div_fin_roundsTo`. -/
theorem floatDiv : Obligations.FloatDiv := by
  intro s ra
  obtain ⟨accum, frame, flags⟩ := s.floatArith_result ra fun canon a b => f32Div canon (f32OfBits a) (f32OfBits b)
  refine ⟨wordOf_one_reg 0x4 0x4 rfl, _, exec_divf ra s, frame, flags, ?_, ?_, ?_, ?_, ?_⟩ <;> rw [accum]
  · rintro (hx | hy | ⟨p, q, hx, hy⟩ | ⟨p, q, hx, hy⟩)
    · rw [hx, f32Div]
    · rw [hy]; cases f32OfBits (s.get .accum) <;> rfl
    · rw [hx, hy, f32Div]
    · rw [hx, hy, f32Div, if_pos rfl, if_pos rfl]
  · intro p q n hx hy
    rw [hx, hy, f32Div, f32OfBits_f32Inf]
  · intro p q m hx hm hy
    rw [hx, hy, f32Div, if_pos rfl, if_neg hm, f32OfBits_f32Inf]
  · intro p q m hx hy
    rw [hx, hy, f32Div, f32OfBits_f32Zero]
  · intro p m q n hx hy hn
    rw [hx, hy, f32Div, if_neg hn]
    exact ⟨f32Div_fin_roundsTo p q m hn, f32Round_msb ..⟩

/-! ### Remainders (41_arith_float.md R178) -/

/-- A finite magnitude is rounded to itself. -/
theorem f32OfBits_f32Round_f32BodyMag {b : ℕ} (hb : b < f32InfBody) (neg : Bool) :
    f32OfBits (f32Round neg (f32BodyMag b) 1) = .fin neg (f32BodyMag b) := by
  have nearest := nearestBody_f32UnboundedBody (f32BodyMag b) one_pos
  rw [Nat.cast_one, div_one] at nearest
  have exact := f32BodyMag_strictMono.injective nearest.mag_eq
  rw [f32Round, f32RoundBody_eq, exact, min_eq_left hb.le]
  exact f32OfBits_f32Pack neg hb

theorem f32Mod_fin {canon a b : Word} {p q : Bool} {m n : ℕ} (ha : f32OfBits a = .fin p m) (hb : f32OfBits b = .fin q n)
    (hn : n ≠ 0) : f32OfBits (f32Mod canon a b) = .fin p (m % n) := by
  obtain ⟨c, hc, hm⟩ := exists_body_of_fin ha
  obtain ⟨d, -, rfl⟩ := exists_body_of_fin hb
  rw [f32Mod, ha, hb]
  simp only [if_neg hn]
  split
  · next zero => rw [ha, zero, Nat.zero_mod]
  · obtain ⟨r, hr, eq⟩ := exists_f32BodyMag_mod hc hn
    rw [← hm, ← eq, f32OfBits_f32Round_f32BodyMag hr]

theorem ratTrunc_neg (q : ℚ) : ratTrunc (-q) = -ratTrunc q := by
  rcases lt_trichotomy q 0 with h | rfl | h
  · simp [ratTrunc, h.le, h.not_ge, Int.floor_neg]
  · simp [ratTrunc]
  · simp [ratTrunc, h.le, h.not_ge, Int.ceil_neg]

theorem ratTrunc_natCast_div (m n : ℕ) : ratTrunc ((m : ℚ) / n) = ((m / n : ℕ) : ℤ) := by
  rw [ratTrunc, if_pos (by positivity)]
  exact Rat.floor_natCast_div_natCast m n

/-- A rational rounded toward zero is the truncating quotient of its integers. -/
theorem ratTrunc_div (a b : ℤ) : ratTrunc ((a : ℚ) / b) = a.tdiv b := by
  obtain ⟨m, rfl | rfl⟩ := a.eq_nat_or_neg <;> obtain ⟨n, rfl | rfl⟩ := b.eq_nat_or_neg <;>
    simp [neg_div, div_neg, ratTrunc_neg, ratTrunc_natCast_div]

theorem f32Int_mod (s t : Bool) (m n : ℕ) : f32Int s (m % n) = (f32Int s m).tmod (f32Int t n) := by
  cases s <;> cases t <;> simp [f32Int, Int.tmod_eq_emod_of_nonneg]

/-- The remainder of the magnitudes, with the sign of the dividend, is the dividend less the divisor times the truncated
quotient. -/
theorem f32Rat_mod (s t : Bool) (m n : ℕ) :
    f32Rat s (m % n) = f32Rat s m - f32Rat t n * ratTrunc (f32Rat s m / f32Rat t n) := by
  have quotient : f32Rat s m / f32Rat t n = (f32Int s m : ℚ) / f32Int t n := div_div_div_cancel_right₀ (by positivity) ..
  rw [quotient, ratTrunc_div, f32Rat, f32Int_mod s t, Int.tmod_def, f32Rat, f32Rat]
  push_cast
  ring

/-- Settles O48: the special remainders case by case, and the finite one, which needs no rounding, by `f32Mod_fin`. -/
theorem floatRemainder : Obligations.FloatRemainder := by
  intro s ra
  obtain ⟨accum, frame, flags⟩ := s.floatArith_result ra f32Mod
  refine ⟨wordOf_one_reg 0x4 0x5 rfl, _, exec_modf ra s, frame, flags, ?_, ?_, ?_⟩ <;> rw [accum]
  · rw [f32Mod]
    rintro (hx | hy | ⟨p, hx⟩ | ⟨q, hy⟩)
    · rw [hx]
    · rw [hy]; cases f32OfBits (s.get .accum) <;> rfl
    · rw [hx]
    · rw [hy]; cases f32OfBits (s.get .accum) <;> rfl
  · intro p m q hx hy
    rw [f32Mod, hx, hy]
  · intro p m q n hx hy hn
    exact ⟨m % n, f32Mod_fin hx hy hn, f32Rat_mod p q m n⟩

end Sys2Proof.Machine

namespace Sys2Proof.Machine

/-! ### The bitwise and shift instructions as their shapes (42_bitwise_shift.md R191 to R196) -/

theorem exec_not (ra : Reg) (s : State) : exec (.not ra) s = .next (s.setLogic (~~~s.get ra)) := rfl
theorem exec_or (ra : Reg) (s : State) : exec (.or ra) s = .next (s.setLogic (s.get .accum ||| s.get ra)) := rfl
theorem exec_xor (ra : Reg) (s : State) : exec (.xor ra) s = .next (s.setLogic (s.get .accum ^^^ s.get ra)) := rfl
theorem exec_and (ra : Reg) (s : State) : exec (.and ra) s = .next (s.setLogic (s.get .accum &&& s.get ra)) := rfl
theorem exec_bsl (rn rk : Reg) (s : State) :
    exec (.bsl rn rk) s = .next (s.setShifted rk (shiftLeft (s.get .accum) (shiftAmount (s.get rn)) (s.regz rk))) := rfl
theorem exec_bsr (rn rk : Reg) (s : State) :
    exec (.bsr rn rk) s = .next (s.setShifted rk (shiftRight (s.get .accum) (shiftAmount (s.get rn)) (s.regz rk))) := rfl

theorem msb_word_iff (w : Word) : w.msb = true ↔ w.getLsbD 31 = true := by rw [BitVec.msb_eq_getLsbD_last]

/-! ### Bitwise instructions (42_bitwise_shift.md R190 to R194) -/

/-- A bitwise instruction leaves its result, ZERO and NEGATIVE from it, CARRY and ERROR cleared, and nothing else (R190). -/
theorem AluResult.of_setLogic (s : State) (r : Word) :
    AluResult s (s.setLogic r) r (r = 0#32) (r.getLsbD 31 = true) False False := by
  obtain ⟨accum, ⟨hz, hn, hc, he⟩, frame⟩ := AluResult.of_setAccum s r (resultNums r)
  exact ⟨accum, ⟨hz.trans beq_iff_eq, hn.trans (msb_word_iff r), hc.trans clear_iff, he.trans clear_iff⟩, frame⟩

/-- Settles O49: each instruction writes one bitwise word by `setLogic`, whose bits the library names. -/
theorem bitwiseResults : Obligations.BitwiseResults := by
  intro s ra
  refine ⟨wordOf_one_reg 0x0 0x1 rfl, wordOf_one_reg 0x0 0x2 rfl, wordOf_one_reg 0x0 0x3 rfl, wordOf_one_reg 0x0 0x4 rfl,
    ⟨_, _, exec_not ra s, .of_setLogic .., ?_⟩, ⟨_, _, exec_or ra s, .of_setLogic .., ?_⟩,
    ⟨_, _, exec_xor ra s, .of_setLogic .., ?_⟩, ⟨_, _, exec_and ra s, .of_setLogic .., ?_⟩⟩
  · intro k hk
    simp [hk]
  · exact fun _ _ => BitVec.getLsbD_or
  · exact fun _ _ => BitVec.getLsbD_xor
  · exact fun _ _ => BitVec.getLsbD_and

/-! ### The bits of a shift (42_bitwise_shift.md R195, R196)

The bits are read by `getLsbD`, as in the obligations, so the proofs keep `simp` from turning them into `w[k]`. -/

theorem shiftAmount_lt (v : Word) : shiftAmount v < 32 := Nat.mod_lt _ (by decide)

/-- The mask of the low bits, which both shifts take from their carry-in. -/
theorem getLsbD_lowMask (n : Nat) {k : Nat} (hk : k < 32) : (BitVec.ofNat 32 (2 ^ n - 1)).getLsbD k = decide (k < n) := by
  rw [BitVec.getLsbD_ofNat, Nat.testBit_two_pow_sub_one, decide_eq_true hk, Bool.true_and]

section Shift

variable (a cin : Word) {n k : Nat}

theorem getLsbD_shiftLeft_r (hk : k < 32) :
    (shiftLeft a n cin).r.getLsbD k = if k < n then cin.getLsbD k else a.getLsbD (k - n) := by
  by_cases zero : n = 0
  · simp [-BitVec.getLsbD_eq_getElem, shiftLeft, zero]
  · by_cases below : k < n <;> simp [-BitVec.getLsbD_eq_getElem, shiftLeft, zero, hk, below, getLsbD_lowMask]

theorem getLsbD_shiftLeft_out (hn : n < 32) :
    (shiftLeft a n cin).out.getLsbD k = (decide (k < n) && a.getLsbD (32 - n + k)) := by
  by_cases below : k < n
  · simp [-BitVec.getLsbD_eq_getElem, shiftLeft, Nat.ne_zero_of_lt below, below]
  · have beyond : 32 ≤ 32 - n + k := by omega
    by_cases zero : n = 0 <;> simp [-BitVec.getLsbD_eq_getElem, shiftLeft, zero, below, BitVec.getLsbD_of_ge _ _ beyond]

theorem shiftLeft_c_iff : (shiftLeft a n cin).c = true ↔ n ≠ 0 ∧ a.getLsbD (32 - n) = true := by
  by_cases zero : n = 0 <;> simp [-BitVec.getLsbD_eq_getElem, shiftLeft, zero]

theorem getLsbD_shiftRight_r (hk : k < 32) :
    (shiftRight a n cin).r.getLsbD k = if 32 - n ≤ k then cin.getLsbD k else a.getLsbD (k + n) := by
  by_cases zero : n = 0
  · simp [-BitVec.getLsbD_eq_getElem, shiftRight, zero, hk]
  · by_cases above : 32 - n ≤ k
    · have beyond : 32 ≤ n + k := by omega
      simp [-BitVec.getLsbD_eq_getElem, shiftRight, zero, hk, above, getLsbD_lowMask, BitVec.getLsbD_of_ge _ _ beyond]
    · simp [-BitVec.getLsbD_eq_getElem, shiftRight, zero, hk, above, getLsbD_lowMask, Nat.lt_of_not_le above, Nat.add_comm]

theorem getLsbD_shiftRight_out (hk : k < 32) :
    (shiftRight a n cin).out.getLsbD k = (decide (32 - n ≤ k) && a.getLsbD (k - (32 - n))) := by
  by_cases zero : n = 0
  · simp [-BitVec.getLsbD_eq_getElem, shiftRight, zero, hk]
  · simp [-BitVec.getLsbD_eq_getElem, shiftRight, zero, hk, ← decide_not]

theorem shiftRight_c_iff : (shiftRight a n cin).c = true ↔ n ≠ 0 ∧ a.getLsbD (n - 1) = true := by
  by_cases zero : n = 0 <;> simp [-BitVec.getLsbD_eq_getElem, shiftRight, zero]

end Shift

/-! ### The writes of a shift (42_bitwise_shift.md R195, R196) -/

section Writes

variable (s : State) {rk : Reg} (x : Shifted)

@[simp] theorem State.setShifted_accum : (s.setShifted rk x).get .accum = x.r := State.setAccum_accum ..

theorem State.setShifted_carry (ha : rk ≠ .accum) (hs : rk ≠ .status) : (s.setShifted rk x).get rk = x.out := by
  rw [State.setShifted, State.setAccum_get_ne _ _ _ ha hs, State.get_set_self]

/-- STATUS as carry register holds the carry-out under the flags (log 19). -/
theorem State.setShifted_status_high {k : Nat} (hk : 4 ≤ k) :
    ((s.setShifted .status x).get .status).getLsbD k = x.out.getLsbD k := by
  rw [State.setShifted, State.setAccum_status, getLsbD_setNumWord_high _ _ hk, State.get_set_self]

theorem State.getLsbD_setShifted_carry {k : Nat} (hk : rk ≠ .status ∨ 4 ≤ k) (ha : rk ≠ .accum) :
    ((s.setShifted rk x).get rk).getLsbD k = x.out.getLsbD k := by
  by_cases hs : rk = .status
  · subst hs
    exact s.setShifted_status_high x (hk.resolve_left (· rfl))
  · rw [s.setShifted_carry x ha hs]

theorem State.setShifted_nums {c : Prop} (hc : x.c = true ↔ c) :
    NumsAre (s.setShifted rk x) (x.r = 0#32) (x.r.getLsbD 31 = true) c False := by
  obtain ⟨hz, hn, hx, he⟩ := (AluResult.of_setAccum (s.set rk x.out) x.r (shiftNums x.r x.c)).nums
  exact ⟨hz.trans beq_iff_eq, hn.trans (msb_word_iff x.r), hx.trans hc, he.trans clear_iff⟩

/-- A shift writes ACCUM, the carry register and STATUS, of STATUS only the numeric flags unless it is the carry register. -/
theorem State.setShifted_frame :
    KeepsRegs [.accum, .status, rk] s (s.setShifted rk x) ∧ (rk ≠ .status → KeepsStatusHigh s (s.setShifted rk x)) ∧
      KeepsMem s (s.setShifted rk x) ∧ KeepsRest s (s.setShifted rk x) := by
  have write := AluWrite.setShifted s rk x
  refine ⟨(write.writesRegs.mono (by simp)).regs, fun hs => write.keepsStatusHigh (by simp [hs.symm]),
    fun _ => rfl, ⟨rfl, rfl, rfl, rfl, rfl⟩, rfl, rfl⟩

end Writes

/-- Settles O50: the bits of `shiftLeft` in what `setShifted` writes. -/
theorem shiftLeftResult : Obligations.ShiftLeftResult := by
  rintro s rn rk n rfl
  refine ⟨wordOf_two_regs 0x0 0x5 rfl, _, exec_bsl rn rk s, fun k hk => ?_, fun k hk ha => ?_, ?_, s.setShifted_frame _⟩
  · rw [State.setShifted_accum]
    exact getLsbD_shiftLeft_r _ _ hk
  · rw [s.getLsbD_setShifted_carry _ hk ha]
    exact getLsbD_shiftLeft_out _ _ (shiftAmount_lt _)
  · rw [State.setShifted_accum]
    exact s.setShifted_nums _ (shiftLeft_c_iff ..)

/-- Settles O51: the bits of `shiftRight` in what `setShifted` writes. -/
theorem shiftRightResult : Obligations.ShiftRightResult := by
  rintro s rn rk n rfl
  refine ⟨wordOf_two_regs 0x0 0x6 rfl, _, exec_bsr rn rk s, fun k hk => ?_, fun k hk ha lt => ?_, ?_, s.setShifted_frame _⟩
  · rw [State.setShifted_accum]
    exact getLsbD_shiftRight_r _ _ hk
  · rw [s.getLsbD_setShifted_carry _ hk ha]
    exact getLsbD_shiftRight_out _ _ lt
  · rw [State.setShifted_accum]
    exact s.setShifted_nums _ (shiftRight_c_iff ..)

/-! ### Chained shifts (42_bitwise_shift.md R197) -/

/-- The bits that leave the low word to the left are those that enter the high word. -/
theorem shiftLeft_append (hi lo : Word) {n : Nat} (hn : n < 32) :
    (shiftLeft hi n (shiftLeft lo n 0#32).out).r ++ (shiftLeft lo n 0#32).r = (hi ++ lo) <<< n := by
  refine BitVec.eq_of_getLsbD_eq fun i hi64 => ?_
  rw [BitVec.getLsbD_append, BitVec.getLsbD_shiftLeft, BitVec.getLsbD_append]
  by_cases low : i < 32
  · have source : i - n < 32 := by omega
    by_cases entering : i < n <;> simp [-BitVec.getLsbD_eq_getElem, low, hi64, source, entering, getLsbD_shiftLeft_r]
  · have inHigh : i - 32 < 32 := by omega
    have moved : ¬ i < n := by omega
    by_cases crossing : i - 32 < n
    · have source : i - n < 32 := by omega
      have index : 32 - n + (i - 32) = i - n := by omega
      simp [-BitVec.getLsbD_eq_getElem, low, hi64, inHigh, moved, crossing, source, index, getLsbD_shiftLeft_r, getLsbD_shiftLeft_out, hn]
    · have source : ¬ i - n < 32 := by omega
      have index : i - 32 - n = i - n - 32 := by omega
      simp [-BitVec.getLsbD_eq_getElem, low, hi64, inHigh, moved, crossing, source, index, getLsbD_shiftLeft_r]

/-- The bits that leave the high word to the right are those that enter the low word. -/
theorem shiftRight_append (hi lo : Word) {n : Nat} (hn : n < 32) :
    (shiftRight hi n 0#32).r ++ (shiftRight lo n (shiftRight hi n 0#32).out).r = (hi ++ lo) >>> n := by
  refine BitVec.eq_of_getLsbD_eq fun i hi64 => ?_
  rw [BitVec.getLsbD_append, BitVec.getLsbD_ushiftRight, BitVec.getLsbD_append]
  by_cases low : i < 32
  · by_cases crossing : 32 - n ≤ i
    · have source : ¬ n + i < 32 := by omega
      have index : i - (32 - n) = n + i - 32 := by omega
      simp [-BitVec.getLsbD_eq_getElem, low, crossing, source, index, getLsbD_shiftRight_r, getLsbD_shiftRight_out]
    · have source : n + i < 32 := by omega
      simp [-BitVec.getLsbD_eq_getElem, low, crossing, source, Nat.add_comm, getLsbD_shiftRight_r]
  · have inHigh : i - 32 < 32 := by omega
    have source : ¬ n + i < 32 := by omega
    have index : i - 32 + n = n + i - 32 := by omega
    by_cases entering : 32 - n ≤ i - 32
    · have beyond : 32 ≤ n + i - 32 := by omega
      simp [-BitVec.getLsbD_eq_getElem, low, inHigh, source, entering, getLsbD_shiftRight_r, BitVec.getLsbD_of_ge _ _ beyond]
    · simp [-BitVec.getLsbD_eq_getElem, low, inHigh, source, entering, index, getLsbD_shiftRight_r]

/-- Settles O52: the second shift reads the carry register as the first one left it, so the two words chain. -/
theorem shiftsChain : Obligations.ShiftsChain := by
  intro s t u v rn rk hrk zero carry amount
  simp only [List.mem_cons, List.not_mem_nil, or_false, not_or] at hrk
  obtain ⟨ha, hs, hi⟩ := hrk
  have noCarryIn : s.regz rk = 0#32 := (s.regz_ne hi).trans zero
  refine ⟨fun first second => ?_, fun first second => ?_⟩
  · rw [exec_bsl, Host.Outcome.next.injEq] at first second
    subst first second
    have chained := (u.regz_ne hi).trans (carry.trans (s.setShifted_carry _ ha hs))
    rw [State.setShifted_accum, State.setShifted_accum, chained, noCarryIn, amount]
    exact shiftLeft_append _ _ (shiftAmount_lt _)
  · rw [exec_bsr, Host.Outcome.next.injEq] at first second
    subst first second
    have chained := (u.regz_ne hi).trans (carry.trans (s.setShifted_carry _ ha hs))
    rw [State.setShifted_accum, State.setShifted_accum, chained, noCarryIn, amount]
    exact shiftRight_append _ _ (shiftAmount_lt _)

end Sys2Proof.Machine

namespace Sys2Proof

/-! ### Opcode words with an operand in bits 7:4 (30_encoding.md R103, R110) -/

/-- An opcode word is its group, with the operand fields at bits 7:4, 11:8 and 15:12. -/
theorem packOp_eq_or_f1 (g f1 f2 f3 : BitVec 4) :
    packOp g f1 f2 f3 =
      packOp g 0 0 0 ||| (f1.setWidth 16 <<< 4) ||| (f2.setWidth 16 <<< 8) ||| (f3.setWidth 16 <<< 12) := by
  have key : packOp g f1 0 0 = packOp g 0 0 0 ||| (f1.setWidth 16 <<< 4) := by
    refine BitVec.eq_of_getLsbD_eq fun i hi => ?_
    simp only [BitVec.getLsbD_or, BitVec.getLsbD_shiftLeft, BitVec.getLsbD_setWidth, getLsbD_packOp]
    grind
  rw [packOp_eq_or, key]

/-- The bytes of an instruction with a literal: its opcode word, then the literal. -/
theorem bytesOf_of_encodeWord {i : Instr} {w : OpWord} {lit : Word} (h : encodeWord i = w) (hl : i.literal? = some lit) :
    BytesOf i w lit :=
  ⟨by simp only [encode, h, hl], by simpa using decodeOfEncode i []⟩

/-- The bytes of an instruction of group `g` with a register, a condition, an offset register and a literal. -/
theorem bytesOf_reg_cond_offset {i : Instr} {rd ro : Reg} {cc : Cond} {lit : Word} (g : BitVec 4)
    (h : encodeWord i = packOp g rd.field cc ro.field) (hl : i.literal? = some lit) :
    BytesOf i (packOp g 0 0 0 ||| (rd.field.setWidth 16 <<< 4) ||| (cc.setWidth 16 <<< 8) ||| (ro.field.setWidth 16 <<< 12))
      lit :=
  bytesOf_of_encodeWord (h.trans (packOp_eq_or_f1 ..)) hl

/-- The opcode word of an instruction of group `g` with two register operands, the first in bits 7:4. -/
theorem wordOf_two_regs_f1 {i : Instr} {rd rs : Reg} (g : BitVec 4) (h : encodeWord i = packOp g rd.field rs.field 0) :
    WordOf i (packOp g 0 0 0 ||| (rd.field.setWidth 16 <<< 4) ||| (rs.field.setWidth 16 <<< 8)) :=
  wordOf_of_encodeWord (by simpa using h.trans (packOp_eq_or_f1 ..))

end Sys2Proof

namespace Sys2Proof.Machine

/-! ### Register transfers (43_load_store.md R213 to R216) -/

theorem exec_mov (rd rs : Reg) (s : State) : exec (.mov rd rs) s = .next (s.set rd (s.get rs)) := rfl

theorem exec_loadl_of_cond {s : State} {cc : Cond} (h : s.cond cc = true) (rd ro : Reg) (lit : Word) :
    exec (.loadl rd cc ro lit) s = .next (s.set rd (s.operandV lit ro)) :=
  congrArg _ (State.whenCond_true h _)

theorem exec_inc_of_cond {s : State} {cc : Cond} (h : s.cond cc = true) (rd ro : Reg) (lit : Word) :
    exec (.inc rd cc ro lit) s = .next (s.set rd (s.get rd + s.operandV lit ro)) :=
  congrArg _ (State.whenCond_true h _)

theorem exec_dec_of_cond {s : State} {cc : Cond} (h : s.cond cc = true) (rd ro : Reg) (lit : Word) :
    exec (.dec rd cc ro lit) s = .next (s.set rd (s.get rd - s.operandV lit ro)) :=
  congrArg _ (State.whenCond_true h _)

/-- An instruction that answers one register write leaves the value there, and the frame of the write. -/
theorem exists_regFrame_of_exec {i : Instr} {s : State} {rd : Reg} {v : Word} (h : exec i s = .next (s.set rd v)) :
    ∃ t, exec i s = .next t ∧ t.get rd = v ∧ RegFrame [rd] s t :=
  ⟨_, h, s.get_set_self rd v, .of_set s rd v⟩

/-- Settles O53: each of the four is one register write where it does anything, and O35 has the false condition. -/
theorem registerTransfers : Obligations.RegisterTransfers := by
  intro s rd rs ro cc lit
  refine ⟨wordOf_two_regs_f1 0x8 rfl, bytesOf_reg_cond_offset 0xA rfl rfl, bytesOf_reg_cond_offset 0x1 rfl rfl,
    bytesOf_reg_cond_offset 0x9 rfl rfl, exists_regFrame_of_exec (exec_mov rd rs s), fun hc => ⟨?_, ?_, ?_⟩, fun hc => ?_⟩
  · exact exists_regFrame_of_exec (exec_loadl_of_cond hc rd ro lit)
  · exact exists_regFrame_of_exec (exec_inc_of_cond hc rd ro lit)
  · exact exists_regFrame_of_exec (exec_dec_of_cond hc rd ro lit)
  · obtain ⟨-, -, skip⟩ := operandValueAndFalseCondition s rd ro cc lit
    obtain ⟨-, -, loadl, inc, dec, -⟩ := skip hc
    exact ⟨loadl, inc, dec⟩

/-! ### Loads and stores in RAM, and across its end (43_load_store.md R211, R212, 60_exceptions.md R277) -/

/-- A read that meets an unmapped address leaves only the request of `mem_fault`. -/
theorem readWord_orFault_unmapped {a : Word} {s : State} {j : Nat} (h : FirstUnmapped s.cfg a 4 j)
    (k : Word → State → State) : ReadFaulted s ((readWord a s).orFault k) := by
  rw [readWord_unmapped h, Bus.orFault]
  exact ⟨.of_raise rfl (.refl s), s.raiseIrq_byteAt _⟩

/-- A write that meets an unmapped address leaves the bytes below it written, and the request of `mem_fault`. -/
theorem writeWord_orFault_unmapped {a v : Word} {s : State} {j : Nat} (h : FirstUnmapped s.cfg a 4 j)
    (k : Unit → State → State) : WriteFaulted a v j s ((writeWord a v s).orFault k) := by
  obtain ⟨t, hwrite, stored, regs, rest⟩ := writeWord_unmapped (v := v) h
  rw [hwrite, Bus.orFault]
  exact ⟨.of_raise regs rest, by simpa [Stored, KeepsMemOutside] using stored⟩

/-- Settles O54: with a true condition LOAD is one word read, and then the register write. -/
theorem loadResult : Obligations.LoadResult := by
  intro s rd ro cc lit
  refine ⟨bytesOf_reg_cond_offset 0x5 rfl rfl, fun hc => ⟨fun hram => ?_, fun j hu => ?_⟩⟩
  · exact exists_regFrame_of_exec (by rw [exec_load_of_cond hc, readWord_ram hram, Bus.orFault])
  · exact ⟨_, exec_load_of_cond hc rd ro lit, readWord_orFault_unmapped hu _⟩

/-- Settles O55: with a true condition STORE is one word write. -/
theorem storeResult : Obligations.StoreResult := by
  intro s rd ro cc lit
  refine ⟨bytesOf_reg_cond_offset 0xD rfl rfl, fun hc => ⟨fun hram => ?_, fun j hu => ?_⟩⟩
  · obtain ⟨t, hwrite, stored, -, regs, rest⟩ := writeWord_ram (v := s.get rd) hram
    exact ⟨t, by rw [exec_store_of_cond hc, hwrite, Bus.orFault], fun q _ => by rw [State.get, regs, ← State.get], stored, rest⟩
  · exact ⟨_, exec_store_of_cond hc rd ro lit, writeWord_orFault_unmapped hu _⟩

end Sys2Proof.Machine

namespace Sys2Proof

/-- The opcode word of an instruction of group `g` with one register operand, in bits 7:4. -/
theorem wordOf_one_reg_f1 {i : Instr} {r : Reg} (g : BitVec 4) (h : encodeWord i = packOp g r.field 0 0) :
    WordOf i (packOp g 0 0 0 ||| (r.field.setWidth 16 <<< 4)) :=
  wordOf_of_encodeWord (by simpa using h.trans (packOp_eq_or_f1 ..))

end Sys2Proof

namespace Sys2Proof.Machine

/-! ### Pushes and pops in RAM, and across its end (44_stack.md R230, R231, 45_control.md R241, 60_exceptions.md R277) -/

theorem WritesRegs.byteAt {l : List Reg} {s t : State} (h : WritesRegs l s t) (a : Word) : t.byteAt a = s.byteAt a := by
  rw [h.rest]; rfl

theorem WritesRegs.keepsRest {l : List Reg} {s t : State} (h : WritesRegs l s t) : KeepsRest s t := by
  rw [h.rest]; exact ⟨⟨rfl, rfl, rfl, rfl, rfl⟩, rfl, rfl⟩

theorem WritesRegs.regFrame {l : List Reg} {s t : State} (h : WritesRegs l s t) : RegFrame l s t :=
  ⟨h.regs, h.byteAt, h.keepsRest⟩

theorem KeepsRest.trans {s t u : State} (h : KeepsRest s t) (h' : KeepsRest t u) : KeepsRest s u where
  cfg := h'.cfg.trans h.cfg
  halted := h'.halted.trans h.halted
  fatal := h'.fatal.trans h.fatal
  devWrites := h'.devWrites.trans h.devWrites
  freeIndex := h'.freeIndex.trans h.freeIndex
  queue := h'.queue.trans h.queue
  report := h'.report.trans h.report

/-- Registers written after a store of a word widen its frame by themselves only. -/
theorem StoreFrame.writesRegs {l : List Reg} {a v : Word} {s t u : State} (h : StoreFrame [] a v s t) (h' : WritesRegs l t u) :
    StoreFrame l a v s u where
  regs := fun r hr => (h'.regs r hr).trans (h.regs r List.not_mem_nil)
  stored :=
    have ⟨bytes, outside⟩ := h.stored
    ⟨fun k hk => (h'.byteAt _).trans (bytes k hk), fun b hb => (h'.byteAt b).trans (outside b hb)⟩
  rest := h.rest.trans h'.keepsRest

/-- A push to RAM stores the word in the slot and moves SP, whatever comes after it. -/
theorem State.pushThen_storeFrame {s : State} (v : Word) (h : RamRange s.cfg (s.get .sp - 4#32) 4) :
    ∃ t, (∀ k, s.pushThen v k = k (t.set .sp (s.get .sp - 4#32))) ∧ StoreFrame [] (s.get .sp - 4#32) v s t := by
  obtain ⟨t, hwrite, stored, -, regs, rest⟩ := writeWord_ram (v := v) h
  exact ⟨t, fun k => by rw [State.pushThen, State.pushSlot, hwrite, Bus.orFault],
    fun q _ => by rw [State.get, regs, ← State.get], stored, rest⟩

/-- A push that meets an unmapped address stops at its write: SP is not moved. -/
theorem State.pushThen_writeFaulted {s : State} {j : Nat} (h : FirstUnmapped s.cfg (s.get .sp - 4#32) 4 j) (v : Word)
    (k : State → State) : WriteFaulted (s.get .sp - 4#32) v j s (s.pushThen v k) :=
  writeWord_orFault_unmapped h _

/-- A pop that meets an unmapped address stops at its read. -/
theorem State.popThen_readFaulted {s : State} {j : Nat} (h : FirstUnmapped s.cfg (s.get .sp) 4 j)
    (k : Word → State → State) : ReadFaulted s (s.popThen k) :=
  readWord_orFault_unmapped h _

/-- Settles O56: PUSH writes the register's word to the slot and then moves SP, so PUSH SP stores the old SP. -/
theorem pushResult : Obligations.PushResult := by
  refine fun s rs => ⟨wordOf_one_reg_f1 0xE rfl, fun hram => ?_, fun j hu => ?_⟩
  · obtain ⟨t, hpush, frame⟩ := State.pushThen_storeFrame (s.get rs) hram
    exact ⟨_, by rw [exec_push, hpush, id], t.get_set_self .sp _, frame.writesRegs (.of_set t List.mem_cons_self _)⟩
  · exact ⟨_, exec_push rs s, State.pushThen_writeFaulted hu _ _⟩

/-- Settles O57: POP reads the word, moves SP and then writes the register, so POP SP keeps the word; RET is POP of IP. -/
theorem popAndRetResult : Obligations.PopAndRetResult := by
  refine fun s rd => ⟨wordOf_one_reg_f1 0x6 rfl, wordOf_of_encodeWord rfl, (exec_ret s).trans (exec_pop .ip s).symm,
    fun hram => ?_, fun j hu => ?_⟩
  · have frame : WritesRegs [.sp, rd] s ((s.set .sp (s.get .sp + 4#32)).set rd (s.wordAt (s.get .sp))) :=
      (WritesRegs.of_set s (by simp) _).set (by simp) _
    exact ⟨_, by rw [exec_pop, State.popThen_ram hram], State.get_set_self _ _ _,
      fun hsp => by rw [State.get_set_ne _ _ hsp.symm, State.get_set_self], frame.regFrame⟩
  · exact ⟨_, exec_pop rd s, State.popThen_readFaulted hu _⟩

end Sys2Proof.Machine

namespace Sys2Proof.Machine

/-! ### Calls in RAM, and across its end (45_control.md R240, 60_exceptions.md R277) -/

/-- Settles O58: with a true condition CALL is a push of IP with the write of IP after it; the operand value is of before the push. -/
theorem callResult : Obligations.CallResult := by
  intro s ro cc lit
  refine ⟨bytesOf_of_encodeWord (packOp_eq_or 0x7 0 cc ro.field) rfl, fun hc => ⟨fun hram => ?_, fun j hu => ?_⟩⟩
  · obtain ⟨t, hpush, frame⟩ := State.pushThen_storeFrame (s.get .ip) hram
    exact ⟨_, by rw [exec_call_of_cond hc, hpush], by simp, State.get_set_self _ _ _, frame.writesRegs (.set_sp_ip t _ _)⟩
  · exact ⟨_, exec_call_of_cond hc ro lit, State.pushThen_writeFaulted hu _ _⟩

/-! ### NOP, whatever its ignored bits (45_control.md R242) -/

theorem exec_nop (s : State) : exec .nop s = .next s := rfl

/-- A word whose low byte is 0 is a NOP: the other byte is ignored. -/
theorem decodeWord_nop {w : OpWord} (h : w &&& 0x00FF#16 = 0x0000#16) : decodeWord w = .ok .nop :=
  decodeWord_of_selectedBy (i := .nop) h

/-- Settles O59: the step is the fetch of two bytes from RAM, and NOP leaves the state that the fetch made. -/
theorem nopDoesNothing : Obligations.NopDoesNothing := by
  refine ⟨wordOf_of_encodeWord rfl, exec_nop, ?_⟩
  rintro s w hwf hcase hram rfl hlow
  have hfetch : fetch (s.reporting .progress) = .run .nop ((s.reporting .progress).fetched 2) :=
    fetch_short hram (decodeWord_nop hlow) rfl
  rw [step_fetch hwf hcase, State.fetchExecute, hfetch]
  exact exec_nop _

end Sys2Proof.Machine

namespace Sys2Proof.Machine

/-! ### The return from an interrupt, in RAM and across its end (46_system.md R257, 60_exceptions.md R277) -/

theorem WritesRegs.set_sp_status_ip (s : State) (p st v : Word) :
    WritesRegs [.sp, .status, .ip] s (((s.set .sp p).set .status st).set .ip v) :=
  ((of_set s (by decide) p).set (by decide) st).set (by decide) v

/-- A return from an interrupt that meets an unmapped address stops at its reads: no register is written. -/
theorem State.returnFromInterrupt_readFaulted {s : State} {j : Nat} (h : FirstUnmapped s.cfg (s.get .sp) 8 j) :
    ReadFaulted s s.returnFromInterrupt := by
  rw [State.returnFromInterrupt_unmapped h]
  exact ⟨.of_raise rfl (.refl s), s.raiseIrq_byteAt _⟩

/-- Settles O17: both words are read before the three registers are written, and `rtiStatus_bit` has the bits of STATUS. -/
theorem rtiRestoresStatusAndIp : Obligations.RtiRestoresStatusAndIp := by
  refine fun s => ⟨wordOf_of_encodeWord rfl, fun hram => ?_, fun j hu => ?_⟩
  · refine ⟨_, by rw [exec_rti, State.returnFromInterrupt_ram hram], by simp, State.get_set_self _ _ _,
      fun k hk => ?_, ?_, (WritesRegs.set_sp_status_ip s _ _ _).regFrame⟩
    · rw [State.get_set_ne _ _ (by decide), State.get_set_self, rtiStatus_bit]
      simp [hk]
    · rw [State.get_set_ne _ _ (by decide), State.get_set_self, rtiStatus_bit]
      simp
  · exact ⟨_, exec_rti s, State.returnFromInterrupt_readFaulted hu⟩

/-! ### HALT, SLEEP, SIE and CIE (46_system.md R251 to R254, 60_exceptions.md R287) -/

theorem exec_halt (s : State) : exec .halt s = .next ({ s with halted := true }.reporting .idle) := rfl

theorem exec_sleep (s : State) :
    exec .sleep s = .next ((s.set .status (withFlag (s.get .status) .sleep)).reporting .idle) := rfl

theorem exec_sie (s : State) : exec .sie s = .next (s.set .status (withFlag (s.get .status) .intEnabled)) := rfl

theorem exec_cie (s : State) : exec .cie s = .next (s.set .status (withoutFlag (s.get .status) .intEnabled)) := rfl

theorem State.set_withFlag_status_bit (s : State) (f : Flag) (k : Nat) :
    ((s.set .status (withFlag (s.get .status) f)).get .status).getLsbD k =
      (decide (k = f.bit) || (s.get .status).getLsbD k) := by
  rw [State.get_set_self, getLsbD_withFlag, Bool.or_comm]

theorem State.set_withoutFlag_status_bit (s : State) (f : Flag) (k : Nat) :
    ((s.set .status (withoutFlag (s.get .status) f)).get .status).getLsbD k =
      (!decide (k = f.bit) && (s.get .status).getLsbD k) := by
  rw [State.get_set_self, getLsbD_withoutFlag, Bool.and_comm]

/-- Settles O60: HALT sets a latch, the other three write one bit of STATUS, and `reporting` touches the output bit alone. -/
theorem systemBits : Obligations.SystemBits := by
  refine ⟨wordOf_of_encodeWord rfl, wordOf_of_encodeWord rfl, wordOf_of_encodeWord rfl, wordOf_of_encodeWord rfl,
    fun s => ⟨?halt, ?sleep, ?sie, ?cie⟩⟩
  case halt =>
    exact ⟨_, exec_halt s, rfl, rfl, fun _ _ => rfl, fun _ => rfl, rfl, rfl, rfl, rfl⟩
  case sleep =>
    have frame := RegFrame.of_set s .status (withFlag (s.get .status) .sleep)
    exact ⟨_, exec_sleep s, s.set_withFlag_status_bit .sleep, rfl, frame.regs, frame.mem, ⟨rfl, rfl, rfl, rfl, rfl⟩, rfl⟩
  case sie =>
    exact ⟨_, exec_sie s, s.set_withFlag_status_bit .intEnabled, .of_set s .status _⟩
  case cie =>
    exact ⟨_, exec_cie s, s.set_withoutFlag_status_bit .intEnabled, .of_set s .status _⟩

end Sys2Proof.Machine

namespace Sys2Proof.Machine

/-! ### Which case a step is (60_exceptions.md R270 to R272) -/

theorem State.isIdle_iff (s : State) :
    s.isIdle = true ↔
      s.flag .sleep = true ∧ s.flag .intFlag = false ∧ ¬(s.flag .intEnabled = true ∧ s.queue ≠ []) := by
  simp [State.isIdle, and_assoc, imp_iff_not_or]

theorem State.nextCase_eq_rest_iff (s : State) : s.nextCase = .rest ↔ s.halted = true ∨ s.isIdle = true := by
  rw [← Bool.or_eq_true, State.nextCase]
  split
  · next resting => simp [resting]
  · next awake =>
    refine iff_of_false (fun h => ?_) awake
    split at h
    · split at h <;> cases h
    · cases h

/-- A pending number that is enabled is delivered unless the core is halted: no core is idle with one (R271). -/
theorem State.nextCase_eq_deliver_iff (s : State) (n : IrqNum) (rest : List IrqNum) :
    s.nextCase = .deliver n rest ↔ s.halted = false ∧ s.flag .intEnabled = true ∧ s.queue = n :: rest := by
  constructor
  · intro h
    have awake : ¬s.halted = true := fun hh => by rw [s.nextCase_eq_rest_iff.2 (.inl hh)] at h; cases h
    have enabled : ¬s.flag .intEnabled = false := fun he => by
      rw [State.nextCase, he] at h
      split at h <;> cases h
    exact ⟨by simpa using awake, by simpa using enabled, State.nextCase_deliver h⟩
  · rintro ⟨running, enabled, queue⟩
    have busy : s.isIdle = false := by simp [State.isIdle, enabled, queue]
    simp [State.nextCase, running, busy, enabled, queue]

theorem State.nextCase_eq_fetch_iff_of_disabled {s : State} (h : s.flag .intEnabled = false) :
    s.nextCase = .fetch ↔ s.halted = false ∧ s.isIdle = false := by
  rw [State.nextCase, h, ← Bool.or_eq_false_iff]
  split
  · next resting => simp [resting]
  · next awake => simpa using awake

theorem State.halted_of_nextCase_fetch {s : State} (h : s.nextCase = .fetch) : s.halted = false := by
  cases hh : s.halted with
  | false => rfl
  | true => rw [State.nextCase_of_halted hh] at h; cases h

@[simp] theorem State.reporting_nextCase (s : State) (p : StepReport) : (s.reporting p).nextCase = s.nextCase := rfl

/-- Settles O7: the idle test excludes a deliverable number, so the first two cases of R270 do not hide the third. -/
theorem stepCases : Obligations.StepCases := by
  refine fun s => ⟨?_, s.nextCase_eq_deliver_iff, step_rest⟩
  rw [s.nextCase_eq_rest_iff, s.isIdle_iff]

/-! ### Nothing stops the machine (60_exceptions.md R276 to R279) -/

/-- Every arm of `exec` answers a next state. -/
theorem exec_total (i : Instr) (s : State) : ∃ t, exec i s = .next t := by
  cases i <;> exact ⟨_, rfl⟩

theorem State.fetchExecute_total (s : State) : ∃ t, s.fetchExecute = .next t := by
  unfold State.fetchExecute
  split
  · next t _ => exact ⟨t, rfl⟩
  · next i t _ => exact exec_total i t

theorem step_total {s : State} (hwf : s.cfg.wf = true) : ∃ t, step s = .next t := by
  cases hc : s.nextCase with
  | rest => exact ⟨_, step_rest hwf hc⟩
  | deliver n rest => exact ⟨_, step_deliver hwf hc⟩
  | fetch =>
    rw [step_fetch hwf hc]
    exact State.fetchExecute_total _

/-- Settles O8, case by case of the step. -/
theorem nothingStopsTheRun : Obligations.NothingStopsTheRun :=
  ⟨exec_total, fun s => ⟨step_total, fun hwf => by simp [step, hwf]⟩⟩

/-! ### The gate of a request (60_exceptions.md R283) -/

theorem exec_int (n : IrqNum) (s : State) : exec (.int n) s = .next (s.raiseIrq n) := rfl

theorem State.gateOpen_iff (s : State) : s.gateOpen = true ↔ s.flag .intEnabled = true ∨ s.flag .intFlag = true := by
  simp [State.gateOpen]

theorem State.queueHasRoom_iff (s : State) :
    s.queueHasRoom = true ↔ ∀ d, s.cfg.irqDepth = some d → s.queue.length < d := by
  unfold State.queueHasRoom
  split
  · next unbounded => simp [unbounded]
  · next d bounded => simp [bounded]

theorem State.raiseIrq_of_open {s : State} (h : s.gateOpen = true ∧ s.queueHasRoom = true) (n : IrqNum) :
    s.raiseIrq n = { s with queue := s.queue ++ [n] } := by
  simp [State.raiseIrq, h]

theorem State.raiseIrq_of_closed {s : State} (h : ¬(s.gateOpen = true ∧ s.queueHasRoom = true)) (n : IrqNum) :
    s.raiseIrq n = s := by
  rw [← Bool.and_eq_true] at h
  exact if_neg h

/-- The word of INT: the number stands in bits 15:8, its halves being the two operand fields (46_system.md R250). -/
theorem wordOf_int (n : IrqNum) : WordOf (.int n) (0x0070#16 ||| (n.setWidth 16 <<< 8)) := by
  refine wordOf_of_encodeWord (BitVec.eq_of_getLsbD_eq fun i hi => ?_)
  rw [encodeWord, packOp_eq_or, BitVec.or_assoc, show packOp 0x0 0x7 0 0 = 0x0070#16 from rfl]
  simp only [BitVec.getLsbD_or, BitVec.getLsbD_shiftLeft, BitVec.getLsbD_setWidth, BitVec.getLsbD_extractLsb']
  grind

/-- Settles O13: INT and the port are both `RaiseIrq`, which looks at the gate and the room. -/
theorem requestGate : Obligations.RequestGate := by
  intro s n
  rw [← s.gateOpen_iff, ← s.queueHasRoom_iff, exec_int]
  exact ⟨fun h => by rw [State.raiseIrq_of_open h], fun h => by rw [State.raiseIrq_of_closed h], rfl, wordOf_int n⟩

/-! ### The reset sequence (70_reset_and_hazards.md R321, R322) -/

theorem State.resetInput_get (s : State) (r : Reg) :
    s.resetInput.get r = if r = .sp then s.cfg.stackStart else 0#32 := by
  cases r <;> rfl

/-- Settles O19. -/
theorem resetSequence : Obligations.ResetSequence :=
  fun s => ⟨s.resetInput, rfl, s.resetInput_get, rfl, rfl, rfl, rfl, rfl, rfl⟩

/-- STATUS is 0 after a reset, so the pending number waits: the first step is a fetch. -/
theorem State.resetInput_nextCase (s : State) : s.resetInput.nextCase = .fetch := by
  have flags (f : Flag) : s.resetInput.flag f = false := by simp [State.flag, flagOf, s.resetInput_get]
  rw [State.nextCase_eq_fetch_iff_of_disabled (flags .intEnabled)]
  exact ⟨rfl, by simp [State.isIdle, flags]⟩

/-- The head of the queue stays there through an instruction, which can only append (10_state.md R44). -/
theorem exec_queue_head {i : Instr} {s t : State} {n : IrqNum} {rest : List IrqNum} (hq : s.queue = n :: rest)
    (h : exec i s = .next t) : ∃ more, t.queue = n :: more := by
  obtain e | ⟨m, e, -⟩ := instructionRequestsAtMostOne i s t h
  · exact ⟨rest, e.trans hq⟩
  · exact ⟨rest ++ [m], by rw [e, hq, List.cons_append]⟩

/-- Settles O22: number 0 stays at the head of the queue, where INT_ENABLED makes it deliverable. -/
theorem pendingResetInterrupt : Obligations.PendingResetInterrupt := by
  refine ⟨fun s t h => ?_, fun i s t rest hq h running enabled => ?_⟩
  · cases h
    exact ⟨s.resetInput_nextCase, rfl⟩
  · obtain ⟨more, queue⟩ := exec_queue_head hq h
    exact ⟨more, (t.nextCase_eq_deliver_iff _ _).2 ⟨running, enabled, queue⟩⟩

/-! ### Lists of inputs (70_reset_and_hazards.md R327) -/

/-- What every input keeps, a list of inputs keeps. -/
theorem events_preserve {P : State → Prop} (keep : ∀ {s t e}, P s → s.event e = .next t → P t) {s t : State} {es : List Event}
    (hs : P s) (h : s.events es = .next t) : P t := by
  induction es generalizing s with
  | nil => cases h; exact hs
  | cons e es ih =>
    rw [State.events] at h
    split at h
    · next u hu => exact ih (keep hs hu) h
    · cases h
    · cases h

/-- Where each input of a list leads on and keeps a property, the list does. -/
theorem events_reach {P : State → Prop} {es : List Event}
    (reach : ∀ {s e}, e ∈ es → P s → ∃ t, s.event e = .next t ∧ P t) {s : State} (hs : P s) :
    ∃ t, s.events es = .next t ∧ P t := by
  induction es generalizing s with
  | nil => exact ⟨s, rfl, hs⟩
  | cons e es ih =>
    obtain ⟨t, ht, hp⟩ := reach List.mem_cons_self hs
    obtain ⟨u, hu, hq⟩ := ih (fun hm => reach (List.mem_cons_of_mem e hm)) hp
    exact ⟨u, by simp [State.events, ht, hu], hq⟩

/-! ### The configuration (70_reset_and_hazards.md R325) -/

theorem exec_cfg {i : Instr} {s t : State} (h : exec i s = .next t) : t.cfg = s.cfg := by
  cases exec_effect h with
  | wrote u bus regs =>
    obtain ⟨cfg, -⟩ := regs.latches
    exact cfg.trans bus.cfg
  | faulted u bus request => rw [request, State.raiseIrq_cfg, bus.cfg]
  | requested n int request => rw [request, State.raiseIrq_cfg]
  | halted halt latch => rw [latch]; rfl
  | slept sleep flag => rw [flag]; rfl

@[simp] theorem State.unknownOp_cfg (s : State) : s.unknownOp.cfg = s.cfg := by
  unfold State.unknownOp
  split
  · rfl
  · exact s.raiseIrq_cfg _

theorem fetchLiteral_cfg (i : Instr) (s : State) : (fetchLiteral i s).state.cfg = s.cfg := by
  obtain ⟨k, e | ⟨lit, e⟩⟩ := fetchLiteral_cases i s <;> simp [e, Fetched.state]

theorem fetch_cfg (s : State) : (fetch s).state.cfg = s.cfg := by
  obtain ⟨k, e | ⟨w, e | ⟨i, e | e⟩⟩⟩ := fetch_cases s
  · simp [e, Fetched.state]
  · simp [e, Fetched.state]
  · simp [e, Fetched.state]
  · simp [e, fetchLiteral_cfg]

theorem State.fetchExecute_cfg {s t : State} (h : s.fetchExecute = .next t) : t.cfg = s.cfg := by
  have fetched := fetch_cfg s
  unfold State.fetchExecute at h
  split at h
  · next u e => cases h; rwa [e] at fetched
  · next i u e => rw [e] at fetched; exact (exec_cfg h).trans fetched

theorem State.deliver_cfg (s : State) (n : IrqNum) (rest : List IrqNum) : (s.deliver n rest).cfg = s.cfg := by
  obtain ⟨t, -, first, e | ⟨u, -, second, e | e⟩⟩ := s.deliver_cases n rest
  · rw [e, State.raiseIrq_cfg, first.cfg]
  · rw [e, State.raiseIrq_cfg, second.cfg, first.cfg]
  · rw [e]; exact second.cfg.trans first.cfg

theorem step_cfg {s t : State} (h : step s = .next t) : t.cfg = s.cfg := by
  have hwf := step_wf h
  cases hc : s.nextCase with
  | rest => rw [step_rest hwf hc] at h; cases h; rfl
  | deliver n rest => rw [step_deliver hwf hc] at h; cases h; exact State.deliver_cfg _ n rest
  | fetch => rw [step_fetch hwf hc] at h; exact State.fetchExecute_cfg (s := s.reporting .progress) h

theorem event_cfg {s t : State} {e : Event} (h : s.event e = .next t) : t.cfg = s.cfg := by
  cases e with
  | step => exact step_cfg h
  | irq n => cases h; exact s.raiseIrq_cfg n
  | reset => cases h; rfl
  | stop => cases h; rfl

/-- Settles O25: every input keeps the configuration, so a list of them does. -/
theorem configurationIsFixed : Obligations.ConfigurationIsFixed :=
  fun _ _ _ h => events_preserve (fun hc he => (event_cfg he).trans hc) rfl h

/-! ### The invariant through the other inputs and the image load (70_reset_and_hazards.md R326, R327) -/

theorem Config.irqDepth_pos_of_wf {c : Config} (h : c.wf = true) {d : Nat} (hd : c.irqDepth = some d) : 0 < d := by
  simp only [Config.wf, Config.irqDepthOk, Bool.and_eq_true, hd, decide_eq_true_eq] at h
  obtain ⟨⟨-, positive⟩, -⟩ := h
  exact positive

theorem State.Inv.resetInput {s : State} (hwf : s.cfg.wf = true) (h : s.Inv) : s.resetInput.Inv where
  memWf := h.memWf
  memRam := h.memRam
  queueDepth := fun _ hd => Config.irqDepth_pos_of_wf hwf hd
  fatalHalted := fun hf => nomatch hf
  devices := h.devices

theorem State.Inv.stopInput {s : State} (h : s.Inv) : s.stopInput.Inv :=
  h.congr rfl rfl (Nat.le_refl _) rfl (fun _ => rfl) rfl

theorem State.Inv.loadImage {s : State} (h : s.Inv) (image : List Byte) : (s.loadImage image).Inv :=
  State.loadImageAt_keeps State.Inv (fun _ _ b hi ha => hi.storeByte b ha) image 0#32 s h

/-- Settles O24: a request is gated by the depth, one number fits any depth, and the load is a run of stores into RAM. -/
theorem inputsKeepInvariant : Obligations.InputsKeepInvariant := by
  refine ⟨fun s t e hwf hi he h => ?_, fun s image => ⟨fun hi => hi.loadImage image, fun r _ => ?_, ?_, fun hlen => ⟨?_, ?_⟩⟩⟩
  · cases e with
    | step => exact absurd rfl he
    | irq n => cases h; exact hi.raiseIrq n
    | reset => cases h; exact hi.resetInput hwf
    | stop => cases h; exact hi.stopInput
  · obtain ⟨regs, -⟩ := s.loadImageAt_rest image 0#32
    rw [State.get, State.loadImage, regs, ← State.get]
  · obtain ⟨-, rest⟩ := s.loadImageAt_rest image 0#32
    exact rest
  · intro k b hb hr
    rw [← BitVec.zero_add (BitVec.ofNat 32 k)] at hr ⊢
    exact State.loadImageAt_byteAt image 0#32 s hlen hb hr
  · intro a ha
    refine State.loadImageAt_byteAt_other image 0#32 a s fun k hk hr => ?_
    rw [BitVec.zero_add] at hr ⊢
    rintro rfl
    rw [BitVec.toNat_ofNat, Nat.mod_eq_of_lt (by omega)] at ha
    exact ha.elim (by omega) (absurd hr)

end Sys2Proof.Machine

namespace Sys2Proof.Machine

/-! ### Faults and unknown words of a fetch (60_exceptions.md R276, R278) -/

theorem step_of_fetch_over {s t : State} (hwf : s.cfg.wf = true) (hc : s.nextCase = .fetch)
    (h : fetch (s.reporting .progress) = .over t) : step s = .next t := by
  rw [step_fetch hwf hc, State.fetchExecute, h]

theorem State.raiseIrq_readFaulted (s : State) : ReadFaulted s (s.raiseIrq irqMemFault) :=
  ⟨.of_raise rfl (.refl s), s.raiseIrq_byteAt _⟩

theorem step_fetch_unmapped {s : State} {j : Nat} (hwf : s.cfg.wf = true) (hc : s.nextCase = .fetch)
    (h : FirstUnmapped s.cfg (s.get .ip) 2 j) : step s = .next ((s.reporting .progress).raiseIrq irqMemFault) :=
  step_of_fetch_over hwf hc (fetch_unmapped h)

theorem fetchLiteral_unmapped {s : State} {j : Nat} (i : Instr) (h : FirstUnmapped s.cfg (s.get .ip) 4 j) :
    fetchLiteral i s = .over (s.raiseIrq irqMemFault) := by
  simp [fetchLiteral, readWord_unmapped h]

/-- The state in which a step has fetched its opcode word from RAM: INS and IP are written, nothing else but the output bit. -/
def State.opcodeRead (s : State) : State := (s.reporting .progress).opcodeFetched (leOpWord (s.bytesAt (s.get .ip) 2))

theorem State.opcodeRead_writesRegs (s : State) : WritesRegs [.ins, .ip] (s.reporting .progress) s.opcodeRead :=
  (WritesRegs.of_set _ (by decide) _).set (by decide) _

@[simp] theorem State.opcodeRead_ins (s : State) : s.opcodeRead.get .ins = (leOpWord (s.bytesAt (s.get .ip) 2)).setWidth 32 := by
  simp [State.opcodeRead, State.opcodeFetched]

@[simp] theorem State.opcodeRead_ip (s : State) : s.opcodeRead.get .ip = s.get .ip + 2#32 := State.get_set_self _ _ _

theorem State.opcodeRead_keepsRegs (s : State) : KeepsRegs [.ins, .ip] s s.opcodeRead := s.opcodeRead_writesRegs.regs

@[simp] theorem State.opcodeRead_cfg (s : State) : s.opcodeRead.cfg = s.cfg := rfl
@[simp] theorem State.opcodeRead_halted (s : State) : s.opcodeRead.halted = s.halted := rfl
@[simp] theorem State.opcodeRead_fatal (s : State) : s.opcodeRead.fatal = s.fatal := rfl
@[simp] theorem State.opcodeRead_queue (s : State) : s.opcodeRead.queue = s.queue := rfl
@[simp] theorem State.opcodeRead_byteAt (s : State) (a : Word) : s.opcodeRead.byteAt a = s.byteAt a := rfl
@[simp] theorem State.opcodeRead_devWrites (s : State) : s.opcodeRead.devWrites = s.devWrites := rfl
@[simp] theorem State.opcodeRead_freeIndex (s : State) : s.opcodeRead.freeIndex = s.freeIndex := rfl
@[simp] theorem State.opcodeRead_report (s : State) : s.opcodeRead.report = .progress := rfl

/-- A request after the fetch of the opcode word is gated as before it. -/
theorem State.opcodeRead_raiseIrq_queue (s : State) (n : IrqNum) : (s.opcodeRead.raiseIrq n).queue = (s.raiseIrq n).queue :=
  State.raiseIrq_queue_congr n (s.opcodeRead_keepsRegs .status (by decide)) rfl rfl

theorem step_unknown {s : State} {e : DecodeReject} (hwf : s.cfg.wf = true) (hc : s.nextCase = .fetch)
    (hram : RamRange s.cfg (s.get .ip) 2) (hdec : decodeWord (leOpWord (s.bytesAt (s.get .ip) 2)) = .error e) :
    step s = .next s.opcodeRead.unknownOp :=
  step_of_fetch_over hwf hc (fetch_unknown hram hdec)

theorem step_literal_unmapped {s : State} {i : Instr} {j : Nat} (hwf : s.cfg.wf = true) (hc : s.nextCase = .fetch)
    (hram : RamRange s.cfg (s.get .ip) 2) (hdec : decodeWord (leOpWord (s.bytesAt (s.get .ip) 2)) = .ok i)
    (hlit : i.hasLiteral = true) (hu : FirstUnmapped s.cfg (s.get .ip + 2#32) 4 j) :
    step s = .next (s.opcodeRead.raiseIrq irqMemFault) := by
  have long : fetch (s.reporting .progress) = fetchLiteral i s.opcodeRead := fetch_long hram hdec hlit
  exact step_of_fetch_over hwf hc (long.trans (fetchLiteral_unmapped i (by simpa using hu)))

theorem State.unknownOp_of_strict {s : State} (h : s.cfg.strict = true) :
    s.unknownOp = { s with halted := true, fatal := true, report := .idle } := if_pos h

theorem State.unknownOp_of_not_strict {s : State} (h : s.cfg.strict = false) : s.unknownOp = s.raiseIrq irqUnknownOp := by
  simp [State.unknownOp, h]

/-- An unknown word ends in a request or in the latches, neither of which touches registers, memory or the device record. -/
theorem State.unknownOp_keeps (s : State) :
    s.unknownOp.regs = s.regs ∧ s.unknownOp.mem = s.mem ∧ s.unknownOp.devWrites = s.devWrites := by
  cases strict : s.cfg.strict with
  | true => rw [State.unknownOp_of_strict strict]; exact ⟨rfl, rfl, rfl⟩
  | false => rw [State.unknownOp_of_not_strict strict]; simp

@[simp] theorem State.unknownOp_get (s : State) (r : Reg) : s.unknownOp.get r = s.get r := by
  obtain ⟨regs, -⟩ := s.unknownOp_keeps
  rw [State.get, regs, ← State.get]

@[simp] theorem State.unknownOp_byteAt (s : State) (a : Word) : s.unknownOp.byteAt a = s.byteAt a := by
  obtain ⟨-, mem, -⟩ := s.unknownOp_keeps
  rw [State.byteAt, mem, ← State.byteAt]

@[simp] theorem State.unknownOp_devWrites (s : State) : s.unknownOp.devWrites = s.devWrites := by
  obtain ⟨-, -, devWrites⟩ := s.unknownOp_keeps
  exact devWrites

/-- Settles O11: the fetch writes INS and IP, and then STRICT alone decides between the request and the latches. -/
theorem unknownWordStep : Obligations.UnknownWordStep := by
  intro s e hwf hc hram hdec
  refine ⟨_, step_unknown hwf hc hram hdec, by simp, by simp, fun r hr => ?_, fun a => by simp, by simp, by simp, fun lax => ?_,
    fun strict => ?_⟩
  · rw [State.unknownOp_get, s.opcodeRead_keepsRegs r hr]
  · rw [State.unknownOp_of_not_strict (s := s.opcodeRead) lax]
    exact ⟨by simp [State.halted_of_nextCase_fetch hc], by simp, s.opcodeRead_raiseIrq_queue _, by simp⟩
  · rw [State.unknownOp_of_strict (s := s.opcodeRead) strict]
    exact ⟨rfl, rfl, rfl, rfl⟩

/-- Settles O12: the fault of the opcode word comes before any register write, that of the literal after INS and IP. -/
theorem fetchFaults : Obligations.FetchFaults := by
  refine fun s j hwf hc => ⟨fun hu => ?_, fun i hram hdec hlit hu => ?_⟩
  · exact ⟨_, step_fetch_unmapped hwf hc hu, State.raiseIrq_readFaulted _⟩
  · refine ⟨_, step_literal_unmapped hwf hc hram hdec hlit hu, by simp, by simp, fun r hr => ?_, fun a => by simp,
      ⟨by simp, by simp, by simp, by simp, by simp⟩, s.opcodeRead_raiseIrq_queue _, by simp⟩
    rw [State.raiseIrq_get, s.opcodeRead_keepsRegs r hr]

/-! ### A fetch fault that cannot be delivered (70_reset_and_hazards.md R331) -/

/-- The case of a step depends on HALTED, STATUS and the queue; with INT_ENABLED 0 it does not depend on the queue. -/
theorem State.nextCase_fetch_congr {s t : State} (hc : s.nextCase = .fetch) (disabled : s.flag .intEnabled = false)
    (hh : t.halted = s.halted) (hs : t.get .status = s.get .status) : t.nextCase = .fetch := by
  have flags (f : Flag) : t.flag f = s.flag f := by rw [State.flag, hs, ← State.flag]
  have idle : t.isIdle = s.isIdle := by simp [State.isIdle, flags, disabled]
  rw [State.nextCase_eq_fetch_iff_of_disabled disabled] at hc
  rwa [State.nextCase_eq_fetch_iff_of_disabled (by rw [flags, disabled]), hh, idle]

/-- How many of `m` requests in a row the queue takes. -/
def State.requestsTaken (s : State) (m : Nat) : Nat :=
  if s.gateOpen then (match s.cfg.irqDepth with | none => m | some d => min m (d - s.queue.length)) else 0

theorem State.requestsTaken_of_closed {s : State} (h : s.gateOpen = false) (m : Nat) : s.requestsTaken m = 0 := by
  simp [State.requestsTaken, h]

theorem State.requestsTaken_of_unbounded {s : State} (h : s.gateOpen = true) (hd : s.cfg.irqDepth = none) (m : Nat) :
    s.requestsTaken m = m := by
  simp [State.requestsTaken, h, hd]

theorem State.requestsTaken_of_depth {s : State} {d : Nat} (h : s.gateOpen = true) (hd : s.cfg.irqDepth = some d) (m : Nat) :
    s.requestsTaken m = min m (d - s.queue.length) := by
  simp [State.requestsTaken, h, hd]

theorem State.requestsTaken_of_refused {s : State} (h : (s.gateOpen && s.queueHasRoom) = false) (m : Nat) :
    s.requestsTaken m = 0 := by
  cases gate : s.gateOpen with
  | false => exact State.requestsTaken_of_closed gate m
  | true =>
    rw [gate, Bool.true_and, State.queueHasRoom] at h
    split at h
    · cases h
    · next d depth =>
      have full := of_decide_eq_false h
      rw [State.requestsTaken_of_depth gate depth]
      omega

theorem State.requestsTaken_succ_of_taken {s : State} (h : (s.gateOpen && s.queueHasRoom) = true) (n : IrqNum) (m : Nat) :
    s.requestsTaken (m + 1) = State.requestsTaken { s with queue := s.queue ++ [n] } m + 1 := by
  obtain ⟨gate, room⟩ := Bool.and_eq_true_iff.1 h
  have gate' : State.gateOpen { s with queue := s.queue ++ [n] } = true := gate
  cases depth : s.cfg.irqDepth with
  | none =>
    rw [State.requestsTaken_of_unbounded gate depth, State.requestsTaken_of_unbounded gate' depth]
  | some d =>
    have below := s.queueHasRoom_iff.1 room d depth
    rw [State.requestsTaken_of_depth gate depth, State.requestsTaken_of_depth gate' depth, List.length_append, List.length_singleton]
    omega

/-- One request in front of `m`: it takes a place if it is let in, and the others find the queue it leaves. -/
theorem State.raiseIrq_requestsTaken (s : State) (n : IrqNum) (m : Nat) :
    (s.raiseIrq n).queue ++ List.replicate ((s.raiseIrq n).requestsTaken m) n =
      s.queue ++ List.replicate (s.requestsTaken (m + 1)) n := by
  obtain ⟨taken, e⟩ | ⟨refused, e⟩ := s.raiseIrq_cases n
  · rw [e, State.requestsTaken_succ_of_taken taken n, List.replicate_succ, List.append_assoc, List.singleton_append]
  · rw [e, State.requestsTaken_of_refused refused, State.requestsTaken_of_refused refused]

/-- What `m` fetch faults in a row leave: the queue has the requests it has taken, nothing else has changed but the output bit. -/
structure FaultedFetches (m : Nat) (s t : State) : Prop where
  regs : t.regs = s.regs
  mem : t.mem = s.mem
  halted : t.halted = s.halted
  queue : t.queue = s.queue ++ List.replicate (s.requestsTaken m) irqMemFault

theorem State.requestsTaken_zero (s : State) : s.requestsTaken 0 = 0 := by
  unfold State.requestsTaken
  split
  · split <;> simp
  · rfl

/-- A fetch fault that cannot be delivered leads to the same fetch fault. -/
theorem events_step_fetch_unmapped {s : State} {j : Nat} (m : Nat) (hwf : s.cfg.wf = true) (hc : s.nextCase = .fetch)
    (disabled : s.flag .intEnabled = false) (hu : FirstUnmapped s.cfg (s.get .ip) 2 j) :
    ∃ t, s.events (List.replicate m .step) = .next t ∧ FaultedFetches m s t := by
  induction m generalizing s with
  | zero => exact ⟨s, rfl, rfl, rfl, rfl, by simp [s.requestsTaken_zero]⟩
  | succ m ih =>
    have first : s.event .step = .next ((s.reporting .progress).raiseIrq irqMemFault) := step_fetch_unmapped hwf hc hu
    obtain ⟨t, ht, rest⟩ := ih (s := (s.reporting .progress).raiseIrq irqMemFault) (by simpa using hwf)
      (State.nextCase_fetch_congr hc disabled (by simp) (by simp)) (by simpa [State.flag] using disabled) (by simpa using hu)
    refine ⟨t, by rw [List.replicate_succ, State.events, first]; exact ht, rest.regs.trans (State.raiseIrq_regs ..),
      by simpa using rest.mem, by simpa using rest.halted, ?_⟩
    rw [rest.queue, State.raiseIrq_requestsTaken]
    rfl

/-- Settles O16: the faults repeat, and the queue takes their requests up to its depth where INT_FLAG opens the gate. -/
theorem fetchFaultLivelock : Obligations.FetchFaultLivelock := by
  intro s j m hwf hc disabled hu
  obtain ⟨t, ht, faulted⟩ := events_step_fetch_unmapped m hwf hc disabled hu
  have gate : s.gateOpen = s.flag .intFlag := by rw [State.gateOpen, disabled, Bool.false_or]
  refine ⟨t, ht, fun r _ => ?_, fun a => ?_, faulted.halted, fun hf => ?_, fun hf hd => ?_, fun d hf hd => ?_⟩
  · rw [State.get, faulted.regs, ← State.get]
  · rw [State.byteAt, faulted.mem, ← State.byteAt]
  · rw [faulted.queue, State.requestsTaken_of_closed (gate.trans hf), List.replicate_zero, List.append_nil]
  · rw [faulted.queue, State.requestsTaken_of_unbounded (gate.trans hf) hd]; rfl
  · rw [faulted.queue, State.requestsTaken_of_depth (gate.trans hf) hd]; rfl

end Sys2Proof.Machine

namespace Sys2Proof.Machine

/-! ### The dead sleep (70_reset_and_hazards.md R334) -/

theorem State.deadSleep_iff (s : State) :
    s.deadSleep = true ↔ s.flag .sleep = true ∧ s.flag .intEnabled = false ∧ s.flag .intFlag = false := by
  simp [State.deadSleep, and_assoc]

/-- What a core in dead sleep keeps: `stop` can set HALTED, and a step writes the output bit. -/
structure SleepsOn (s t : State) : Prop where
  cfg : t.cfg = s.cfg
  regs : t.regs = s.regs
  mem : t.mem = s.mem
  queue : t.queue = s.queue

theorem SleepsOn.deadSleep {s t : State} (h : SleepsOn s t) (hd : s.deadSleep = true) : t.deadSleep = true := by
  simpa only [State.deadSleep, State.flag, State.get, h.regs] using hd

/-- A core in dead sleep is idle, and its gate is closed. -/
theorem event_deadSleep {s : State} {e : Event} (hwf : s.cfg.wf = true) (hd : s.deadSleep = true) (he : e ≠ .reset) :
    ∃ t, s.event e = .next t ∧ SleepsOn s t := by
  obtain ⟨asleep, disabled, outside⟩ := s.deadSleep_iff.1 hd
  cases e with
  | step =>
    have idle : s.isIdle = true := s.isIdle_iff.2 ⟨asleep, outside, by simp [disabled]⟩
    exact ⟨_, step_rest hwf (s.nextCase_eq_rest_iff.2 (.inr idle)), rfl, rfl, rfl, rfl⟩
  | irq n =>
    have closed : ¬(s.gateOpen = true ∧ s.queueHasRoom = true) := by simp [State.gateOpen, disabled, outside]
    exact ⟨s, congrArg _ (State.raiseIrq_of_closed closed n), rfl, rfl, rfl, rfl⟩
  | reset => exact absurd rfl he
  | stop => exact ⟨s.stopInput, rfl, rfl, rfl, rfl, rfl⟩

theorem State.flag_set_withFlag (s : State) (f g : Flag) :
    (s.set .status (withFlag (s.get .status) f)).flag g = (decide (g.bit = f.bit) || s.flag g) :=
  s.set_withFlag_status_bit f g.bit

/-- SLEEP sets its bit and leaves the two that would end the sleep. -/
theorem State.deadSleep_of_exec_sleep {s t : State} (disabled : s.flag .intEnabled = false) (outside : s.flag .intFlag = false)
    (h : exec .sleep s = .next t) : t.deadSleep = true := by
  rw [exec_sleep] at h
  cases h
  simp [State.deadSleep_iff, State.flag_set_withFlag, disabled, outside, Flag.bit]

/-- Settles O14: no input but reset wakes a core in dead sleep, so no list of them does. -/
theorem deadSleepEndsOnlyByReset : Obligations.DeadSleepEndsOnlyByReset := by
  refine ⟨fun s t => State.deadSleep_of_exec_sleep, fun s es hwf hd hes => ?_⟩
  obtain ⟨t, ht, sleeps⟩ := events_reach (P := SleepsOn s) (es := es) (s := s) (fun {u e} he hu => by
    obtain ⟨v, hv, next⟩ := event_deadSleep (hu.cfg ▸ hwf) (hu.deadSleep hd) (ne_of_mem_of_not_mem he hes)
    exact ⟨v, hv, next.cfg.trans hu.cfg, next.regs.trans hu.regs, next.mem.trans hu.mem, next.queue.trans hu.queue⟩)
    ⟨rfl, rfl, rfl, rfl⟩
  exact ⟨t, ht, sleeps.deadSleep hd, fun r _ => by rw [State.get, sleeps.regs, ← State.get],
    fun a => by rw [State.byteAt, sleeps.mem, ← State.byteAt], sleeps.queue⟩

/-! ### The frame of a delivery on a RAM stack (60_exceptions.md R273, R275, R288) -/

/-- The four addresses of the upper word of the frame are none of those of the lower one. -/
theorem upper_ne_lower (p : Word) {i k : Nat} (hi : i < 4) (hk : k < 4) :
    p - 4#32 + BitVec.ofNat 32 i ≠ p - 8#32 + BitVec.ofNat 32 k := by
  bv_omega

theorem sub_eight_add_four (p : Word) : p - 8#32 + 4#32 = p - 4#32 := by bv_omega

theorem upper_eq (p : Word) (i : Nat) : p - 4#32 + BitVec.ofNat 32 i = p - 8#32 + BitVec.ofNat 32 (4 + i) := by
  rw [← addr_add, show BitVec.ofNat 32 4 = 4#32 from rfl, sub_eight_add_four]

/-- Below `p` the word `v` has been written, below that the first `j` bytes of `w`, and no other byte of memory. -/
structure FrameStored (p v w : Word) (j : Nat) (s t : State) : Prop where
  upper : ∀ k, k < 4 → t.byteAt (p - 4#32 + BitVec.ofNat 32 k) = byteOf v k
  lower : ∀ k, k < j → t.byteAt (p - 8#32 + BitVec.ofNat 32 k) = byteOf w k
  outside : ∀ a : Word, (∀ k, k < 4 → a ≠ p - 4#32 + BitVec.ofNat 32 k) → (∀ k, k < j → a ≠ p - 8#32 + BitVec.ofNat 32 k) →
    t.byteAt a = s.byteAt a

theorem FrameStored.of_stored {p v w : Word} {j : Nat} {s t u : State} (first : Stored (p - 4#32) v 4 s t)
    (second : Stored (p - 8#32) w j t u) (hj : j ≤ 4) : FrameStored p v w j s u := by
  obtain ⟨upper, outside⟩ := first
  obtain ⟨lower, outside'⟩ := second
  refine ⟨fun k hk => ?_, lower, fun a ha ha' => ?_⟩
  · rw [outside' _ fun i hi => upper_ne_lower p hk (by omega), upper k hk]
  · rw [outside' a ha', outside a ha]

theorem FrameStored.congr {p v w : Word} {j : Nat} {s t u : State} (h : FrameStored p v w j s t)
    (hu : ∀ a, u.byteAt a = t.byteAt a) : FrameStored p v w j s u :=
  ⟨fun k hk => (hu _).trans (h.upper k hk), fun k hk => (hu _).trans (h.lower k hk),
    fun a ha ha' => (hu a).trans (h.outside a ha ha')⟩

/-- A word whose four bytes stand in memory is the word there. -/
theorem State.wordAt_of_bytes {t : State} {a v : Word} (h : ∀ k, k < 4 → t.byteAt (a + BitVec.ofNat 32 k) = byteOf v k) :
    t.wordAt a = v := by
  have bytes : t.bytesAt a 4 = (List.range 4).map (byteOf v) := List.map_congr_left fun k hk => h k (List.mem_range.1 hk)
  rw [State.wordAt, bytes]
  exact leWord_byteOf v

theorem FrameStored.wordAt_upper {p v w : Word} {j : Nat} {s t : State} (h : FrameStored p v w j s t) :
    t.wordAt (p - 4#32) = v := State.wordAt_of_bytes h.upper

theorem FrameStored.wordAt_lower {p v w : Word} {s t : State} (h : FrameStored p v w 4 s t) : t.wordAt (p - 8#32) = w :=
  State.wordAt_of_bytes h.lower

theorem FrameStored.keepsMemOutside {p v w : Word} {s t : State} (h : FrameStored p v w 4 s t) :
    KeepsMemOutside (p - 8#32) 8 s t := fun a ha =>
  h.outside a (fun k hk => by rw [upper_eq]; exact ha (4 + k) (by omega)) fun k hk => ha k (by omega)

/-! ### A delivery (60_exceptions.md R273, R288) -/

/-- The STATUS a handler starts with: INT_FLAG set and INT_ENABLED cleared. -/
def handlerStatus (w : Word) : Word := withoutFlag (withFlag w .intFlag) .intEnabled

theorem getLsbD_handlerStatus (w : Word) (k : Nat) :
    (handlerStatus w).getLsbD k = if k = 6 then true else if k = 4 then false else w.getLsbD k := by
  rw [handlerStatus, getLsbD_withoutFlag, getLsbD_withFlag, show Flag.intFlag.bit = 6 from rfl,
    show Flag.intEnabled.bit = 4 from rfl]
  grind

/-- What a delivery of `n` leaves once both words are pushed: `u` is the state after the pushes. -/
def State.vectored (s u : State) (n : IrqNum) (rest : List IrqNum) : State :=
  { (u.set .sp (s.get .sp - 8#32)).set .status (handlerStatus (s.get .status)) with
    queue := rest }.set .ip (s.vectorOf n)

section Vectored

variable (s u : State) (n : IrqNum) (rest : List IrqNum)

@[simp] theorem State.vectored_ip : (s.vectored u n rest).get .ip = s.vectorOf n := State.get_set_self _ _ _

theorem State.vectored_get_ne {r : Reg} (h : r ≠ .ip) :
    (s.vectored u n rest).get r =
      ((u.set .sp (s.get .sp - 8#32)).set .status (handlerStatus (s.get .status))).get r :=
  State.get_set_ne _ _ h

@[simp] theorem State.vectored_status : (s.vectored u n rest).get .status = handlerStatus (s.get .status) := by
  rw [State.vectored_get_ne _ _ _ _ (by decide), State.get_set_self]

@[simp] theorem State.vectored_sp : (s.vectored u n rest).get .sp = s.get .sp - 8#32 := by
  rw [State.vectored_get_ne _ _ _ _ (by decide), State.get_set_ne _ _ (by decide), State.get_set_self]

theorem State.vectored_keepsRegs : KeepsRegs [.sp, .status, .ip] u (s.vectored u n rest) := by
  intro r hr
  simp only [List.mem_cons, List.not_mem_nil, or_false, not_or] at hr
  obtain ⟨sp, status, ip⟩ := hr
  rw [State.vectored_get_ne _ _ _ _ ip, State.get_set_ne _ _ status, State.get_set_ne _ _ sp]

@[simp] theorem State.vectored_cfg : (s.vectored u n rest).cfg = u.cfg := rfl
@[simp] theorem State.vectored_halted : (s.vectored u n rest).halted = u.halted := rfl
@[simp] theorem State.vectored_fatal : (s.vectored u n rest).fatal = u.fatal := rfl
@[simp] theorem State.vectored_queue : (s.vectored u n rest).queue = rest := rfl
@[simp] theorem State.vectored_byteAt (a : Word) : (s.vectored u n rest).byteAt a = u.byteAt a := rfl
@[simp] theorem State.vectored_devWrites : (s.vectored u n rest).devWrites = u.devWrites := rfl
@[simp] theorem State.vectored_freeIndex : (s.vectored u n rest).freeIndex = u.freeIndex := rfl
@[simp] theorem State.vectored_report : (s.vectored u n rest).report = u.report := rfl

end Vectored

theorem State.deliver_of_writes {s t u : State} (first : writeWord (s.get .sp - 4#32) (s.get .ip) s = .ok () t)
    (second : writeWord (s.get .sp - 8#32) (s.get .status) t = .ok () u) (n : IrqNum) (rest : List IrqNum) :
    s.deliver n rest = s.vectored u n rest := by
  rw [State.deliver, first, Bus.orFault, second, Bus.orFault]
  rfl

/-- Both pushes of a delivery onto a mapped stack complete. -/
theorem State.deliver_mapped {s : State} (n : IrqNum) (rest : List IrqNum) (h : MappedRange s.cfg (s.get .sp - 8#32) 8) :
    ∃ u, s.deliver n rest = s.vectored u n rest ∧ WriteKeeps s u := by
  obtain ⟨low, high⟩ := MappedRange.split (m := 4) (n := 4) h
  rw [show BitVec.ofNat 32 4 = 4#32 from rfl, sub_eight_add_four] at high
  obtain ⟨t, first, -, keeps⟩ := writeWord_mapped (v := s.get .ip) high
  obtain ⟨u, second, -, keeps'⟩ := writeWord_mapped (s := t) (v := s.get .status) (by rw [keeps.cfg]; exact low)
  exact ⟨u, State.deliver_of_writes first second n rest, keeps.trans keeps'⟩

/-- A delivery onto a RAM stack leaves its frame there. -/
theorem State.deliver_frameStored {s : State} (n : IrqNum) (rest : List IrqNum) (h : RamRange s.cfg (s.get .sp - 8#32) 8) :
    ∃ u, s.deliver n rest = s.vectored u n rest ∧ FrameStored (s.get .sp) (s.get .ip) (s.get .status) 4 s u ∧
      u.regs = s.regs ∧ KeepsRest s u := by
  obtain ⟨low, high⟩ := RamRange.split (m := 4) (n := 4) h
  rw [show BitVec.ofNat 32 4 = 4#32 from rfl, sub_eight_add_four] at high
  obtain ⟨t, first, stored, -, regs, keeps⟩ := writeWord_ram (v := s.get .ip) high
  obtain ⟨u, second, stored', -, regs', keeps'⟩ := writeWord_ram (s := t) (v := s.get .status) (by rw [keeps.cfg]; exact low)
  exact ⟨u, State.deliver_of_writes first second n rest, .of_stored stored stored' le_rfl,
    regs'.trans regs, keeps.trans keeps'⟩

/-- Settles O9: the pushes keep registers and latches, and then SP, STATUS, the queue and IP are written. -/
theorem deliverySavesAndVectors : Obligations.DeliverySavesAndVectors := by
  intro s n rest hwf hc hm
  obtain ⟨u, deliver, keeps⟩ := State.deliver_mapped (s := s.reporting .progress) n rest hm
  have regs : KeepsRegs [.sp, .status, .ip] (s.reporting .progress) ((s.reporting .progress).vectored u n rest) :=
    fun r hr => (State.vectored_keepsRegs _ _ _ _ r hr).trans (keeps.get r)
  refine ⟨_, (step_deliver hwf hc).trans (congrArg _ deliver), State.vectored_sp .., State.vectored_ip .., fun k => ?_, rfl,
    keeps.report, regs, keeps.cfg, keeps.halted, keeps.fatal, fun hram => ?_⟩
  · rw [State.vectored_status]
    exact getLsbD_handlerStatus _ k
  · obtain ⟨v, deliver', frame, -, rest'⟩ := State.deliver_frameStored (s := s.reporting .progress) n rest hram
    rw [← deliver, deliver']
    have frame' := frame.congr (State.vectored_byteAt (s.reporting .progress) v n rest)
    exact ⟨frame'.wordAt_upper, frame'.wordAt_lower, frame'.keepsMemOutside,
      rest'.cfg, rest'.halted, rest'.fatal, rest'.devWrites, rest'.freeIndex⟩

/-- An abandoned delivery is the next step again: what a fault adds to the queue comes after the number. -/
theorem MemFaulted.nextCase_deliver {s t : State} {n : IrqNum} {rest : List IrqNum} (h : MemFaulted s t)
    (hc : s.nextCase = .deliver n rest) : ∃ more, t.nextCase = .deliver n more := by
  obtain ⟨running, enabled, queue⟩ := (s.nextCase_eq_deliver_iff n rest).1 hc
  have running' : t.halted = false := h.halted.trans running
  have enabled' : t.flag .intEnabled = true := by rwa [State.flag, h.regs _ List.not_mem_nil, ← State.flag]
  simp only [State.nextCase_eq_deliver_iff]
  obtain e | e := s.raiseIrq_queue_cases irqMemFault
  · exact ⟨rest, running', enabled', by rw [h.queue, e, queue]⟩
  · exact ⟨rest ++ [irqMemFault], running', enabled', by rw [h.queue, e, queue, List.cons_append]⟩

/-- A delivery whose second push meets an unmapped address stops there, with the first word written. -/
theorem State.deliver_second_unmapped {s : State} {j : Nat} (n : IrqNum) (rest : List IrqNum)
    (hram : RamRange s.cfg (s.get .sp - 4#32) 4) (hu : FirstUnmapped s.cfg (s.get .sp - 8#32) 4 j) :
    MemFaulted s (s.deliver n rest) ∧ FrameStored (s.get .sp) (s.get .ip) (s.get .status) j s (s.deliver n rest) := by
  obtain ⟨t, first, stored, -, regs, keeps⟩ := writeWord_ram (v := s.get .ip) hram
  obtain ⟨u, second, stored', regs', keeps'⟩ :=
    writeWord_unmapped (s := t) (v := s.get .status) (a := s.get .sp - 8#32) (j := j) (by rw [keeps.cfg]; exact hu)
  have deliver : s.deliver n rest = u.raiseIrq irqMemFault := by rw [State.deliver, first, Bus.orFault, second, Bus.orFault]
  rw [deliver]
  exact ⟨.of_raise (regs'.trans regs) (keeps.trans keeps'),
    (FrameStored.of_stored stored stored' hu.1.le).congr (u.raiseIrq_byteAt _)⟩

/-- Settles O10: a fault of either push keeps every register and the number at the head of the queue. -/
theorem deliveryFaultAbandons : Obligations.DeliveryFaultAbandons := by
  refine fun s n rest j hwf hc => ⟨fun hu => ?_, fun hram hu => ?_⟩
  · have faulted : WriteFaulted (s.get .sp - 4#32) (s.get .ip) j (s.reporting .progress) ((s.reporting .progress).deliver n rest) :=
      writeWord_orFault_unmapped (s := s.reporting .progress) hu _
    exact ⟨_, step_deliver hwf hc, faulted, faulted.nextCase_deliver hc⟩
  · obtain ⟨faulted, frame⟩ := State.deliver_second_unmapped (s := s.reporting .progress) n rest hram hu
    exact ⟨_, step_deliver hwf hc, faulted, frame.upper, frame.lower, frame.outside, faulted.nextCase_deliver hc⟩

/-! ### The return from a delivery (60_exceptions.md R290) -/

/-- A delivery leaves SLEEP as it was, so RTI does not clear it. -/
theorem rtiStatus_handlerStatus (w : Word) : rtiStatus w (handlerStatus w) = w := by
  refine BitVec.eq_of_getLsbD_eq fun k _ => ?_
  rw [rtiStatus_bit, getLsbD_handlerStatus]
  by_cases hk : k = 5 <;> simp [hk]

/-- RTI on the frame of a delivery takes SP, STATUS and IP back. -/
theorem State.returnFromInterrupt_frameStored {s u : State} (hram : RamRange u.cfg (u.get .sp) 8)
    (hsp : u.get .sp = s.get .sp - 8#32)
    (hstatus : u.get .status = handlerStatus (s.get .status))
    (frame : FrameStored (s.get .sp) (s.get .ip) (s.get .status) 4 s u) :
    u.returnFromInterrupt = ((u.set .sp (s.get .sp)).set .status (s.get .status)).set .ip (s.get .ip) := by
  rw [State.returnFromInterrupt_ram hram, hsp, hstatus, sub_eight_add_four, frame.wordAt_upper, frame.wordAt_lower,
    rtiStatus_handlerStatus, BitVec.sub_add_cancel]

/-- RTI after a delivery onto a RAM stack, with only IP and INS moved between them. -/
theorem State.returnFromInterrupt_deliver {s u : State} {n : IrqNum} {rest : List IrqNum}
    (hram : RamRange s.cfg (s.get .sp - 8#32) 8) (hregs : KeepsRegs [.ip, .ins] (s.deliver n rest) u)
    (hmem : KeepsMem (s.deliver n rest) u) (hcfg : u.cfg = (s.deliver n rest).cfg) :
    KeepsRegs [.ins] s u.returnFromInterrupt ∧ KeepsMemOutside (s.get .sp - 8#32) 8 s u.returnFromInterrupt ∧
      u.returnFromInterrupt.queue = u.queue := by
  obtain ⟨w, deliver, frame, regs, keeps⟩ := State.deliver_frameStored n rest hram
  rw [deliver] at hregs hmem hcfg
  have hsp : u.get .sp = s.get .sp - 8#32 := (hregs .sp (by decide)).trans (State.vectored_sp ..)
  have hstatus := (hregs .status (by decide)).trans (State.vectored_status ..)
  have stack : RamRange u.cfg (u.get .sp) 8 := by rwa [hcfg, hsp, State.vectored_cfg, keeps.cfg]
  have frame' : FrameStored (s.get .sp) (s.get .ip) (s.get .status) 4 s u :=
    (frame.congr (s.vectored_byteAt w n rest)).congr hmem
  rw [State.returnFromInterrupt_frameStored stack hsp hstatus frame']
  refine ⟨fun r hr => ?_, frame'.keepsMemOutside, rfl⟩
  by_cases restored : r ∈ [Reg.sp, .status, .ip]
  · simp only [List.mem_cons, List.not_mem_nil, or_false] at restored
    obtain rfl | rfl | rfl := restored <;> simp
  · have untouched : r ∉ [Reg.ip, .ins] := by grind
    rw [(WritesRegs.set_sp_status_ip u _ _ _).regs r restored, hregs r untouched, s.vectored_keepsRegs w n rest r restored,
      State.get, regs, ← State.get]

/-- Settles O18: RTI finds the frame of the delivery and the STATUS it made, and every other register is as it was. -/
theorem rtiUndoesDelivery : Obligations.RtiUndoesDelivery := by
  intro s t u v n rest hwf hc hram hstep hregs hmem hcfg hrti
  obtain ⟨w, deliver, -⟩ := State.deliver_frameStored (s := s.reporting .progress) n rest hram
  rw [step_deliver hwf hc] at hstep
  cases hstep
  rw [exec_rti] at hrti
  cases hrti
  obtain ⟨regs, outside, queue⟩ := State.returnFromInterrupt_deliver (s := s.reporting .progress) hram hregs hmem hcfg
  refine ⟨regs, outside, fun hq => ?_⟩
  rw [queue, hq, deliver, State.vectored_queue]

end Sys2Proof.Machine
